-- ==== Sys2Proof/Word.lean ====
section
/-! DEFINITION. The word types of CPU64: registers, bytes, and the fields of an instruction. -/

namespace Sys2Proof

/-- A general register, an address, `pc`, `SP` or an instruction word: 64 bits (R7, R20, R24, R27, R80). -/
abbrev Word := BitVec 64

/-- One byte of `Memoria` (R50). -/
abbrev Byte := BitVec 8

/-- A register field: value i names `Ri` (R90). -/
abbrev RegId := BitVec 4

/-- The immediate field of format RI (R85). -/
abbrev Imm44 := BitVec 44

/-- The immediate field of format I (R86). -/
abbrev Imm48 := BitVec 48

/-- The number of a cell of the `IO` space, 0 .. 2^48 - 1 (R175). -/
abbrev IoCell := BitVec 48

/-- The 16-bit opcode field, bits 63:48 of every instruction (R80). -/
abbrev Opcode := BitVec 16

end Sys2Proof
end

