-- ==== Sys2Proof/Config.lean ====
section
/-! DEFINITION. The parameters of 00_scope.md rule R6 as plain data, and the free values: constants with no body,
of which nothing can be proved but that they exist. -/

namespace Sys2Proof

/-- `ENDIAN` (R55): which byte of a multi-byte datum lies at the lowest address. -/
inductive Endian where
  | little
  | big
  deriving DecidableEq, Repr

/-- `IMM_EXT` (R89): how a 44-bit data immediate becomes 64 bits. -/
inductive ImmExt where
  | zero
  | sign
  deriving DecidableEq, Repr

/-- `SUBWORD_WRITE` (R22): what bits 63:8n of `Rd` become after a result of 1, 2 or 4 bytes. -/
inductive SubwordWrite where
  | zeroExtend
  | preserveUpper
  | signExtend
  | unspecified
  deriving DecidableEq, Repr

/-- `ALU_FLAGS` (R30): the flag effect of arithmetic, logic and shift instructions. -/
inductive AluFlags where
  | result
  | unchanged
  | unspecified
  deriving DecidableEq, Repr

/-- `DIV_ROUND` (R132): how an inexact quotient is rounded. -/
inductive DivRound where
  | trunc
  | floor
  deriving DecidableEq, Repr

/-- The NaN draw of the record `FP` (D27): which patterns a NaN result is drawn from (log 11). -/
inductive NanDraw where
  /-- The quiet NaNs of the format, sign and payload free (D27, U6). -/
  | quiet
  /-- Every NaN pattern of the format, the quiet bit free too (R262). -/
  | any
  deriving DecidableEq, Repr

/-- A run of I/O cell numbers, both ends included. `IO_INPUT_SET` is a list of such runs (log 19). -/
structure CellRange where
  lo : Nat
  hi : Nat
  deriving DecidableEq, Repr

/-- The seven values that a configuration knowing the opcodes of the 8-byte ALU mnemonics supplies (D19, R97).
`Alu8Opcodes.wellFormed` says which seven are allowed. -/
structure Alu8Opcodes where
  add8 : Opcode
  sub8 : Opcode
  mul8 : Opcode
  muls8 : Opcode
  div8 : Opcode
  addv8 : Opcode
  subv8 : Opcode
  deriving DecidableEq, Repr

/-- The seven supplied opcodes. -/
def Alu8Opcodes.opcodes (o : Alu8Opcodes) : List Opcode :=
  [o.add8, o.sub8, o.mul8, o.muls8, o.div8, o.addv8, o.subv8]

/-- The opcodes an `ALU8_OPCODES` supplies: none by default. -/
def suppliedOpcodes : Option Alu8Opcodes → List Opcode
  | none => []
  | some o => o.opcodes

/-- The parameters of R6 that the host fixes before reset for the whole run (R330 (1), R336).
`XLEN`, `NREG`, `ILEN`, `SHIFT_COUNT` are fixed by R6 and stand in the types and meanings; `IoRead` and the rest of
the open part of `FP` are the free values below. -/
structure Params where
  /-- `MEM_SIZE`, the number of bytes of `Memoria` (R52). -/
  memSize : Nat
  /-- `RESET_PC` (R331). -/
  resetPc : Word
  /-- `SP_RESET` (R333). -/
  spReset : Word
  endian : Endian
  immExt : ImmExt
  subwordWrite : SubwordWrite
  aluFlags : AluFlags
  /-- `DIV64_SIGNED`: signedness of the unsized `DIV` (R132). -/
  div64Signed : Bool
  divRound : DivRound
  /-- `STRICT_ZERO_FIELDS` (R95). -/
  strictZeroFields : Bool
  /-- `IO_INPUT_SET` (R176). -/
  inputSet : List CellRange
  /-- `ALU8_OPCODES`: the opcodes of the 8-byte ALU mnemonics, `none` where they have no encoding (R97, R214, D19). -/
  alu8Opcodes : Option Alu8Opcodes
  /-- The NaN draw of `FP` (R6, D27). -/
  nanDraw : NanDraw
  deriving DecidableEq, Repr

/-- Free value (log 8): the fresh bits of `SUBWORD_WRITE = unspecified` at draw k; an 8n-bit write uses bits 63:8n. -/
opaque Config.freeUpper : Nat → BitVec 64

/-- Free value (log 9): Z after an ALU instruction under `ALU_FLAGS = unspecified` at draw k. -/
opaque Config.freeZ : Nat → Bool

/-- Free value (log 9): N after an ALU instruction under `ALU_FLAGS = unspecified` at draw k. -/
opaque Config.freeN : Nat → Bool

/-- Free value (log 10): the environment's answer to `IoRead` at draw k (R176). -/
opaque Config.ioAnswer : Nat → BitVec 64

/-- Free value (log 11): the bits from which the NaN of draw k takes its sign and fraction (R262). -/
opaque Config.freeNan : Nat → BitVec 64

/-- `FP.sin_4` (R261, log 12): some total function, nothing else is known of it. -/
opaque Config.sin4 : BitVec 32 → BitVec 32

/-- `FP.cos_4` (R261, log 12). -/
opaque Config.cos4 : BitVec 32 → BitVec 32

/-- `FP.sin_8` (R261, log 12). -/
opaque Config.sin8 : BitVec 64 → BitVec 64

/-- `FP.cos_8` (R261, log 12). -/
opaque Config.cos8 : BitVec 64 → BitVec 64

/-- Free value (log 13): `FP.div_4` of an infinity by a zero, which R263 does not state. -/
opaque Config.infDivZero4 : BitVec 32 → BitVec 32 → BitVec 32

/-- Free value (log 13): `FP.div_8` of an infinity by a zero, which R263 does not state. -/
opaque Config.infDivZero8 : BitVec 64 → BitVec 64 → BitVec 64

end Sys2Proof
end

