-- ==== Sys2Proof/Syntax.lean ====
section
/-! DEFINITION. The instructions of CPU64: one constructor per row of spec/opcode_table.json, in the table's order. -/

namespace Sys2Proof

/-- An instruction with its operand fields (R82 to R87). `rd` and `rs` name field positions, not roles (R90): in the
stores, the pushes, the compares and `SVIO` the register of the `RD` field is only read. -/
inductive Instr where
  -- Control de Flujo
  /-- `PARAR`, 0x0000, format OP (R111). -/
  | parar
  /-- `NOP`, 0x0001, format OP (R112). -/
  | nop
  -- Aritmética
  /-- `ADD Rd, Rs`, 0x0010, format RR (R121). -/
  | add (rd rs : RegId)
  /-- `SUB Rd, Rs`, 0x0011, format RR (R122). -/
  | sub (rd rs : RegId)
  /-- `MULS Rd, Rs`, 0x0012, format RR (R123). -/
  | muls (rd rs : RegId)
  /-- `MUL Rd, Rs`, 0x0013, format RR (R124). -/
  | mul (rd rs : RegId)
  /-- `DIV Rd, Rs`, 0x0014, format RR (R125). -/
  | div (rd rs : RegId)
  /-- `ADDV Rd, v`, 0x0020, format RI (R126). -/
  | addv (rd : RegId) (v : Imm44)
  /-- `SUBV Rd, v`, 0x0021, format RI (R127). -/
  | subv (rd : RegId) (v : Imm44)
  /-- `INC Rd`, 0x0030, format R (R128). -/
  | inc (rd : RegId)
  /-- `DEC Rd`, 0x0031, format R (R129). -/
  | dec (rd : RegId)
  -- Lógicas y Bits
  /-- `NOT Rd`, 0x0040, format R (R136). -/
  | not (rd : RegId)
  /-- `AND Rd, Rs`, 0x0041, format RR (R137). -/
  | and (rd rs : RegId)
  /-- `ANDV Rd, v`, 0x0042, format RI (R138). -/
  | andv (rd : RegId) (v : Imm44)
  /-- `OR Rd, Rs`, 0x0043, format RR (R139). -/
  | or (rd rs : RegId)
  /-- `ORV Rd, v`, 0x0044, format RI (R140). -/
  | orv (rd : RegId) (v : Imm44)
  /-- `XOR Rd, Rs`, 0x0045, format RR (R141). -/
  | xor (rd rs : RegId)
  /-- `XORV Rd, v`, 0x0046, format RI (R142). -/
  | xorv (rd : RegId) (v : Imm44)
  /-- `SHL Rd`, 0x0050, format R (R143). -/
  | shl (rd : RegId)
  /-- `SHR Rd`, 0x0051, format R (R144). -/
  | shr (rd : RegId)
  -- Memoria y Datos
  /-- `LOAD Rd, addr`, 0x0060, format RI (R151). -/
  | load (rd : RegId) (addr : Imm44)
  /-- `LOADV Rd, v`, 0x0061, format RI (R152). -/
  | loadv (rd : RegId) (v : Imm44)
  /-- `STORE Rd, Rs`, 0x0062, format RR (R153). -/
  | store (rd rs : RegId)
  /-- `STOREV Rd, addr`, 0x0063, format RI (R154). -/
  | storev (rd : RegId) (addr : Imm44)
  /-- `CLEAR Rd`, 0x0064, format R (R155). -/
  | clear (rd : RegId)
  /-- `CMP Rd, Rs`, 0x0070, format RR (R156). -/
  | cmp (rd rs : RegId)
  /-- `CMPV Rd, v`, 0x0071, format RI (R157). -/
  | cmpv (rd : RegId) (v : Imm44)
  -- Control de Flujo
  /-- `JMP k`, 0x0090, format I (R113). -/
  | jmp (k : Imm48)
  /-- `JEQ k`, 0x0091, format I (R114). -/
  | jeq (k : Imm48)
  /-- `JNE k`, 0x0092, format I (R115). -/
  | jne (k : Imm48)
  /-- `JMI k`, 0x0093, format I (R116). -/
  | jmi (k : Imm48)
  /-- `JPL k`, 0x0094, format I (R117). -/
  | jpl (k : Imm48)
  -- Entrada/Salida
  /-- `SVIO Rd, addr`, 0x00A0, format RI (R178). -/
  | svio (rd : RegId) (addr : Imm44)
  /-- `LOADIO Rd, addr`, 0x00A1, format RI (R179). -/
  | loadio (rd : RegId) (addr : Imm44)
  /-- `SHOWIO addr`, 0x00A2, format I (R180). -/
  | showio (addr : Imm48)
  /-- `CLRIO`, 0x00A3, format OP (R181). -/
  | clrio
  /-- `RESETIO`, 0x00A4, format OP (R182). -/
  | resetio
  -- Operaciones de 1 Byte
  /-- `ADD1 Rd, Rs`, 0x0100, format RR (R186). -/
  | add1 (rd rs : RegId)
  /-- `SUB1 Rd, Rs`, 0x0101, format RR (R187). -/
  | sub1 (rd rs : RegId)
  /-- `MUL1 Rd, Rs`, 0x0102, format RR (R188). -/
  | mul1 (rd rs : RegId)
  /-- `MULS1 Rd, Rs`, 0x0103, format RR (R189). -/
  | muls1 (rd rs : RegId)
  /-- `DIV1 Rd, Rs`, 0x0104, format RR (R190). -/
  | div1 (rd rs : RegId)
  /-- `ADDV1 Rd, v`, 0x0110, format RI (R191). -/
  | addv1 (rd : RegId) (v : Imm44)
  /-- `SUBV1 Rd, v`, 0x0111, format RI (R192). -/
  | subv1 (rd : RegId) (v : Imm44)
  -- Operaciones de 2 Bytes
  /-- `ADD2 Rd, Rs`, 0x0200, format RR (R193). -/
  | add2 (rd rs : RegId)
  /-- `SUB2 Rd, Rs`, 0x0201, format RR (R194). -/
  | sub2 (rd rs : RegId)
  /-- `MUL2 Rd, Rs`, 0x0202, format RR (R195). -/
  | mul2 (rd rs : RegId)
  /-- `MULS2 Rd, Rs`, 0x0203, format RR (R196). -/
  | muls2 (rd rs : RegId)
  /-- `DIV2 Rd, Rs`, 0x0204, format RR (R197). -/
  | div2 (rd rs : RegId)
  /-- `ADDV2 Rd, v`, 0x0210, format RI (R198). -/
  | addv2 (rd : RegId) (v : Imm44)
  /-- `SUBV2 Rd, v`, 0x0211, format RI (R199). -/
  | subv2 (rd : RegId) (v : Imm44)
  -- Operaciones de 4 Bytes
  /-- `ADD4 Rd, Rs`, 0x0300, format RR (R200). -/
  | add4 (rd rs : RegId)
  /-- `SUB4 Rd, Rs`, 0x0301, format RR (R201). -/
  | sub4 (rd rs : RegId)
  /-- `MUL4 Rd, Rs`, 0x0302, format RR (R202). -/
  | mul4 (rd rs : RegId)
  /-- `MULS4 Rd, Rs`, 0x0303, format RR (R203). -/
  | muls4 (rd rs : RegId)
  /-- `DIV4 Rd, Rs`, 0x0304, format RR (R204). -/
  | div4 (rd rs : RegId)
  /-- `ADDV4 Rd, v`, 0x0310, format RI (R205). -/
  | addv4 (rd : RegId) (v : Imm44)
  /-- `SUBV4 Rd, v`, 0x0311, format RI (R206). -/
  | subv4 (rd : RegId) (v : Imm44)
  -- Transferencia de Datos (MOV)
  /-- `MOV1 Rd, Rs`, 0x0400, format RR (R221). -/
  | mov1 (rd rs : RegId)
  /-- `MOV2 Rd, Rs`, 0x0401, format RR (R222). -/
  | mov2 (rd rs : RegId)
  /-- `MOV4 Rd, Rs`, 0x0402, format RR (R223). -/
  | mov4 (rd rs : RegId)
  /-- `MOV8 Rd, Rs`, 0x0403, format RR (R224). -/
  | mov8 (rd rs : RegId)
  /-- `MOVV1 Rd, v`, 0x0410, format RI (R225). -/
  | movv1 (rd : RegId) (v : Imm44)
  /-- `MOVV2 Rd, v`, 0x0411, format RI (R226). -/
  | movv2 (rd : RegId) (v : Imm44)
  /-- `MOVV4 Rd, v`, 0x0412, format RI (R227). -/
  | movv4 (rd : RegId) (v : Imm44)
  /-- `MOVV8 Rd, v`, 0x0413, format RI (R228). -/
  | movv8 (rd : RegId) (v : Imm44)
  -- Carga de Memoria (LOAD)
  /-- `LOAD1 Rd, addr`, 0x0500, format RI (R236). -/
  | load1 (rd : RegId) (addr : Imm44)
  /-- `LOAD2 Rd, addr`, 0x0501, format RI (R237). -/
  | load2 (rd : RegId) (addr : Imm44)
  /-- `LOAD4 Rd, addr`, 0x0502, format RI (R238). -/
  | load4 (rd : RegId) (addr : Imm44)
  /-- `LOAD8 Rd, addr`, 0x0503, format RI (R239). -/
  | load8 (rd : RegId) (addr : Imm44)
  /-- `LOADR1 Rd, Rs`, 0x0510, format RR (R240). -/
  | loadr1 (rd rs : RegId)
  /-- `LOADR2 Rd, Rs`, 0x0511, format RR (R241). -/
  | loadr2 (rd rs : RegId)
  /-- `LOADR4 Rd, Rs`, 0x0512, format RR (R242). -/
  | loadr4 (rd rs : RegId)
  /-- `LOADR8 Rd, Rs`, 0x0513, format RR (R243). -/
  | loadr8 (rd rs : RegId)
  -- Almacenamiento en Memoria (STORE)
  /-- `STORE1 Rd, addr`, 0x0600, format RI (R244). -/
  | store1 (rd : RegId) (addr : Imm44)
  /-- `STORE2 Rd, addr`, 0x0601, format RI (R245). -/
  | store2 (rd : RegId) (addr : Imm44)
  /-- `STORE4 Rd, addr`, 0x0602, format RI (R246). -/
  | store4 (rd : RegId) (addr : Imm44)
  /-- `STORE8 Rd, addr`, 0x0603, format RI (R247). -/
  | store8 (rd : RegId) (addr : Imm44)
  /-- `STORER1 Rd, Rs`, 0x0610, format RR (R248). -/
  | storer1 (rd rs : RegId)
  /-- `STORER2 Rd, Rs`, 0x0611, format RR (R249). -/
  | storer2 (rd rs : RegId)
  /-- `STORER4 Rd, Rs`, 0x0612, format RR (R250). -/
  | storer4 (rd rs : RegId)
  /-- `STORER8 Rd, Rs`, 0x0613, format RR (R251). -/
  | storer8 (rd rs : RegId)
  -- Operaciones de 4 Bytes (Float)
  /-- `FADD4 Rd, Rs`, 0x0700, format RR (R265). -/
  | fadd4 (rd rs : RegId)
  /-- `FSUB4 Rd, Rs`, 0x0701, format RR (R266). -/
  | fsub4 (rd rs : RegId)
  /-- `FMUL4 Rd, Rs`, 0x0702, format RR (R267). -/
  | fmul4 (rd rs : RegId)
  /-- `FDIV4 Rd, Rs`, 0x0703, format RR (R268). -/
  | fdiv4 (rd rs : RegId)
  -- Operaciones de 8 Bytes (Double)
  /-- `FADD8 Rd, Rs`, 0x0710, format RR (R272). -/
  | fadd8 (rd rs : RegId)
  /-- `FSUB8 Rd, Rs`, 0x0711, format RR (R273). -/
  | fsub8 (rd rs : RegId)
  /-- `FMUL8 Rd, Rs`, 0x0712, format RR (R274). -/
  | fmul8 (rd rs : RegId)
  /-- `FDIV8 Rd, Rs`, 0x0713, format RR (R275). -/
  | fdiv8 (rd rs : RegId)
  -- Operaciones de 4 Bytes (Float)
  /-- `FSQRT4 Rd`, 0x0720, format R (R269). -/
  | fsqrt4 (rd : RegId)
  -- Operaciones de 8 Bytes (Double)
  /-- `FSQRT8 Rd`, 0x0721, format R (R276). -/
  | fsqrt8 (rd : RegId)
  -- Operaciones de 4 Bytes (Float)
  /-- `FSIN4 Rd`, 0x0722, format R (R270). -/
  | fsin4 (rd : RegId)
  /-- `FCOS4 Rd`, 0x0723, format R (R271). -/
  | fcos4 (rd : RegId)
  -- Operaciones de 8 Bytes (Double)
  /-- `FSIN8 Rd`, 0x0724, format R (R277). -/
  | fsin8 (rd : RegId)
  /-- `FCOS8 Rd`, 0x0725, format R (R278). -/
  | fcos8 (rd : RegId)
  -- Control de Subrutinas
  /-- `RET`, 0x0800, format OP (R285). -/
  | ret
  -- Operaciones de Pila por Tamaño
  /-- `POP1 Rd`, 0x0810, format R (R287). -/
  | pop1 (rd : RegId)
  /-- `POP2 Rd`, 0x0811, format R (R288). -/
  | pop2 (rd : RegId)
  /-- `POP4 Rd`, 0x0812, format R (R289). -/
  | pop4 (rd : RegId)
  /-- `POP8 Rd`, 0x0813, format R (R290). -/
  | pop8 (rd : RegId)
  /-- `PUSH1 Rd`, 0x0820, format R (R291). -/
  | push1 (rd : RegId)
  /-- `PUSH2 Rd`, 0x0821, format R (R292). -/
  | push2 (rd : RegId)
  /-- `PUSH4 Rd`, 0x0822, format R (R293). -/
  | push4 (rd : RegId)
  /-- `PUSH8 Rd`, 0x0823, format R (R294). -/
  | push8 (rd : RegId)
  -- Memoria y Datos
  /-- `CMP1 Rd, Rs`, 0x0830, format RR (R158). -/
  | cmp1 (rd rs : RegId)
  /-- `CMP2 Rd, Rs`, 0x0831, format RR (R159). -/
  | cmp2 (rd rs : RegId)
  /-- `CMP4 Rd, Rs`, 0x0832, format RR (R160). -/
  | cmp4 (rd rs : RegId)
  /-- `CMP8 Rd, Rs`, 0x0833, format RR (R161). -/
  | cmp8 (rd rs : RegId)
  /-- `CMPV1 Rd, v`, 0x0840, format RI (R162). -/
  | cmpv1 (rd : RegId) (v : Imm44)
  /-- `CMPV2 Rd, v`, 0x0841, format RI (R163). -/
  | cmpv2 (rd : RegId) (v : Imm44)
  /-- `CMPV4 Rd, v`, 0x0842, format RI (R164). -/
  | cmpv4 (rd : RegId) (v : Imm44)
  /-- `CMPV8 Rd, v`, 0x0843, format RI (R165). -/
  | cmpv8 (rd : RegId) (v : Imm44)
  -- Operaciones de 8 Bytes
  /-- `ADD8 Rd, Rs`, no opcode, format RR (R207). -/
  | add8 (rd rs : RegId)
  /-- `SUB8 Rd, Rs`, no opcode, format RR (R208). -/
  | sub8 (rd rs : RegId)
  /-- `MUL8 Rd, Rs`, no opcode, format RR (R209). -/
  | mul8 (rd rs : RegId)
  /-- `MULS8 Rd, Rs`, no opcode, format RR (R210). -/
  | muls8 (rd rs : RegId)
  /-- `DIV8 Rd, Rs`, no opcode, format RR (R211). -/
  | div8 (rd rs : RegId)
  /-- `ADDV8 Rd, v`, no opcode, format RI (R212). -/
  | addv8 (rd : RegId) (v : Imm44)
  /-- `SUBV8 Rd, v`, no opcode, format RI (R213). -/
  | subv8 (rd : RegId) (v : Imm44)
  deriving DecidableEq, Repr

end Sys2Proof
end

