-- ==== Sys2Proof/WellFormed.lean ====
section
/-! DEFINITION. Which instructions are well formed. Register numbers and immediates carry their width in their type
(R90: every register field value is legal; R85, R86), so the one check left is that a machine word exists (R97). Which
values the parameters may take is checked in Decode.lean, beside the opcode table they must not meet. -/

namespace Sys2Proof

/-- An instruction is well formed when the table of R93 gives it a 64-bit word: the seven 8-byte ALU mnemonics have none
(R97, R214, 90_conflicts.md C1), all others have one. -/
def Instr.wellFormed : Instr → Bool
  | .add8 .. | .sub8 .. | .mul8 .. | .muls8 .. | .div8 .. | .addv8 .. | .subv8 .. => false
  | .parar .. | .nop .. | .add .. | .sub .. | .muls .. | .mul .. | .div .. | .addv .. | .subv .. | .inc ..
  | .dec .. | .not .. | .and .. | .andv .. | .or .. | .orv .. | .xor .. | .xorv .. | .shl .. | .shr ..
  | .load .. | .loadv .. | .store .. | .storev .. | .clear .. | .cmp .. | .cmpv .. | .jmp .. | .jeq ..
  | .jne .. | .jmi .. | .jpl .. | .svio .. | .loadio .. | .showio .. | .clrio .. | .resetio .. | .add1 ..
  | .sub1 .. | .mul1 .. | .muls1 .. | .div1 .. | .addv1 .. | .subv1 .. | .add2 .. | .sub2 .. | .mul2 ..
  | .muls2 .. | .div2 .. | .addv2 .. | .subv2 .. | .add4 .. | .sub4 .. | .mul4 .. | .muls4 .. | .div4 ..
  | .addv4 .. | .subv4 .. | .mov1 .. | .mov2 .. | .mov4 .. | .mov8 .. | .movv1 .. | .movv2 .. | .movv4 ..
  | .movv8 .. | .load1 .. | .load2 .. | .load4 .. | .load8 .. | .loadr1 .. | .loadr2 .. | .loadr4 ..
  | .loadr8 .. | .store1 .. | .store2 .. | .store4 .. | .store8 .. | .storer1 .. | .storer2 .. | .storer4 ..
  | .storer8 .. | .fadd4 .. | .fsub4 .. | .fmul4 .. | .fdiv4 .. | .fadd8 .. | .fsub8 .. | .fmul8 ..
  | .fdiv8 .. | .fsqrt4 .. | .fsqrt8 .. | .fsin4 .. | .fcos4 .. | .fsin8 .. | .fcos8 .. | .ret .. | .pop1 ..
  | .pop2 .. | .pop4 .. | .pop8 .. | .push1 .. | .push2 .. | .push4 .. | .push8 .. | .cmp1 .. | .cmp2 ..
  | .cmp4 .. | .cmp8 .. | .cmpv1 .. | .cmpv2 .. | .cmpv4 .. | .cmpv8 .. => true

/-- An instruction is well formed under an `ALU8_OPCODES` when some word denotes it there: one of R93, or, where the
opcodes of the 8-byte mnemonics are supplied, any (R97, D19). -/
def Instr.wellFormedIn (alu8 : Option Alu8Opcodes) (i : Instr) : Bool := i.wellFormed || alu8.isSome

end Sys2Proof
end

