-- ==== Sys2Proof/Decode.lean ====
section
/-! DEFINITION. The decoder of R92, total on every 64-bit word and on every list of bytes, and the encoder, its inverse.
Every field position is written once: in `opcodeOf` .. `imm48Of` for decoding, in `encodeOP` .. `encodeI` for encoding. -/

namespace Sys2Proof

/-- Why a word is no instruction. Both reasons are reported as `IllegalInstruction` (R304). -/
inductive DecodeError where
  /-- The opcode is in no row of R93 (R94). -/
  | unassignedOpcode
  /-- A bit that the row's format draws as 0 is 1, under `STRICT_ZERO_FIELDS` (R95). -/
  | nonzeroZeroField
  /-- Fewer than the 8 bytes of an instruction were given (R80). -/
  | tooFewBytes
  deriving DecidableEq, Repr

/-! ## Fields (R82 to R86) -/

/-- `OPCODE`, bits 63:48 in every format (R80). -/
def opcodeOf (w : Word) : Opcode := w.extractLsb' 48 16

/-- `RD` in formats R and RI, bits 47:44 (R83, R85). -/
def rdHighOf (w : Word) : RegId := w.extractLsb' 44 4

/-- `RD` in format RR, bits 7:4 (R84). -/
def rdLowOf (w : Word) : RegId := w.extractLsb' 4 4

/-- `RS` in format RR, bits 3:0 (R84). -/
def rsOf (w : Word) : RegId := w.extractLsb' 0 4

/-- `INMEDIATO` in format RI, bits 43:0 (R85). -/
def imm44Of (w : Word) : Imm44 := w.extractLsb' 0 44

/-- `INMEDIATO` in format I, bits 47:0 (R86). -/
def imm48Of (w : Word) : Imm48 := w.extractLsb' 0 48

/-- The bits format OP draws as 0: 47:0 (R82). -/
def zeroBitsOP (w : Word) : BitVec 48 := w.extractLsb' 0 48

/-- The bits format R draws as 0: 43:0 (R83). -/
def zeroBitsR (w : Word) : BitVec 44 := w.extractLsb' 0 44

/-- The bits format RR draws as 0: 47:8 (R84). -/
def zeroBitsRR (w : Word) : BitVec 40 := w.extractLsb' 8 40

/-! ## The opcode table (R87, R93) -/

/-- A row of the opcode table: its format, and the instruction its fields make. -/
inductive Row where
  | op (make : Instr)
  | r (make : RegId → Instr)
  | rr (make : RegId → RegId → Instr)
  | ri (make : RegId → Imm44 → Instr)
  | i (make : Imm48 → Instr)

/-- Rows of R93: unsized instructions, jumps and I/O (opcodes 0x00xx). -/
def rowsBase : List (Opcode × Row) :=
  [(0x0000#16, .op .parar),
   (0x0001#16, .op .nop),
   (0x0010#16, .rr .add),
   (0x0011#16, .rr .sub),
   (0x0012#16, .rr .muls),
   (0x0013#16, .rr .mul),
   (0x0014#16, .rr .div),
   (0x0020#16, .ri .addv),
   (0x0021#16, .ri .subv),
   (0x0030#16, .r .inc),
   (0x0031#16, .r .dec),
   (0x0040#16, .r .not),
   (0x0041#16, .rr .and),
   (0x0042#16, .ri .andv),
   (0x0043#16, .rr .or),
   (0x0044#16, .ri .orv),
   (0x0045#16, .rr .xor),
   (0x0046#16, .ri .xorv),
   (0x0050#16, .r .shl),
   (0x0051#16, .r .shr),
   (0x0060#16, .ri .load),
   (0x0061#16, .ri .loadv),
   (0x0062#16, .rr .store),
   (0x0063#16, .ri .storev),
   (0x0064#16, .r .clear),
   (0x0070#16, .rr .cmp),
   (0x0071#16, .ri .cmpv),
   (0x0090#16, .i .jmp),
   (0x0091#16, .i .jeq),
   (0x0092#16, .i .jne),
   (0x0093#16, .i .jmi),
   (0x0094#16, .i .jpl),
   (0x00a0#16, .ri .svio),
   (0x00a1#16, .ri .loadio),
   (0x00a2#16, .i .showio),
   (0x00a3#16, .op .clrio),
   (0x00a4#16, .op .resetio)]

/-- Rows of R93: ALU on 1 byte (0x01xx). -/
def rowsAlu1 : List (Opcode × Row) :=
  [(0x0100#16, .rr .add1),
   (0x0101#16, .rr .sub1),
   (0x0102#16, .rr .mul1),
   (0x0103#16, .rr .muls1),
   (0x0104#16, .rr .div1),
   (0x0110#16, .ri .addv1),
   (0x0111#16, .ri .subv1)]

/-- Rows of R93: ALU on 2 bytes (0x02xx). -/
def rowsAlu2 : List (Opcode × Row) :=
  [(0x0200#16, .rr .add2),
   (0x0201#16, .rr .sub2),
   (0x0202#16, .rr .mul2),
   (0x0203#16, .rr .muls2),
   (0x0204#16, .rr .div2),
   (0x0210#16, .ri .addv2),
   (0x0211#16, .ri .subv2)]

/-- Rows of R93: ALU on 4 bytes (0x03xx): these opcodes are `ADD4` .. `SUBV4`, never the 8-byte mnemonics (C1). -/
def rowsAlu4 : List (Opcode × Row) :=
  [(0x0300#16, .rr .add4),
   (0x0301#16, .rr .sub4),
   (0x0302#16, .rr .mul4),
   (0x0303#16, .rr .muls4),
   (0x0304#16, .rr .div4),
   (0x0310#16, .ri .addv4),
   (0x0311#16, .ri .subv4)]

/-- Rows of R93: moves (0x04xx). -/
def rowsMov : List (Opcode × Row) :=
  [(0x0400#16, .rr .mov1),
   (0x0401#16, .rr .mov2),
   (0x0402#16, .rr .mov4),
   (0x0403#16, .rr .mov8),
   (0x0410#16, .ri .movv1),
   (0x0411#16, .ri .movv2),
   (0x0412#16, .ri .movv4),
   (0x0413#16, .ri .movv8)]

/-- Rows of R93: sized loads (0x05xx). -/
def rowsLoad : List (Opcode × Row) :=
  [(0x0500#16, .ri .load1),
   (0x0501#16, .ri .load2),
   (0x0502#16, .ri .load4),
   (0x0503#16, .ri .load8),
   (0x0510#16, .rr .loadr1),
   (0x0511#16, .rr .loadr2),
   (0x0512#16, .rr .loadr4),
   (0x0513#16, .rr .loadr8)]

/-- Rows of R93: sized stores (0x06xx). -/
def rowsStore : List (Opcode × Row) :=
  [(0x0600#16, .ri .store1),
   (0x0601#16, .ri .store2),
   (0x0602#16, .ri .store4),
   (0x0603#16, .ri .store8),
   (0x0610#16, .rr .storer1),
   (0x0611#16, .rr .storer2),
   (0x0612#16, .rr .storer4),
   (0x0613#16, .rr .storer8)]

/-- Rows of R93: floating point (0x07xx). -/
def rowsFpu : List (Opcode × Row) :=
  [(0x0700#16, .rr .fadd4),
   (0x0701#16, .rr .fsub4),
   (0x0702#16, .rr .fmul4),
   (0x0703#16, .rr .fdiv4),
   (0x0710#16, .rr .fadd8),
   (0x0711#16, .rr .fsub8),
   (0x0712#16, .rr .fmul8),
   (0x0713#16, .rr .fdiv8),
   (0x0720#16, .r .fsqrt4),
   (0x0721#16, .r .fsqrt8),
   (0x0722#16, .r .fsin4),
   (0x0723#16, .r .fcos4),
   (0x0724#16, .r .fsin8),
   (0x0725#16, .r .fcos8)]

/-- Rows of R93: stack and sized compares (0x08xx). -/
def rowsStack : List (Opcode × Row) :=
  [(0x0800#16, .op .ret),
   (0x0810#16, .r .pop1),
   (0x0811#16, .r .pop2),
   (0x0812#16, .r .pop4),
   (0x0813#16, .r .pop8),
   (0x0820#16, .r .push1),
   (0x0821#16, .r .push2),
   (0x0822#16, .r .push4),
   (0x0823#16, .r .push8),
   (0x0830#16, .rr .cmp1),
   (0x0831#16, .rr .cmp2),
   (0x0832#16, .rr .cmp4),
   (0x0833#16, .rr .cmp8),
   (0x0840#16, .ri .cmpv1),
   (0x0841#16, .ri .cmpv2),
   (0x0842#16, .ri .cmpv4),
   (0x0843#16, .ri .cmpv8)]

/-- The 113 rows of R93, in opcode order. -/
def opcodeRows : List (Opcode × Row) :=
  rowsBase ++ rowsAlu1 ++ rowsAlu2 ++ rowsAlu4 ++ rowsMov ++ rowsLoad ++ rowsStore ++ rowsFpu ++ rowsStack

/-- The rows that a supplied `ALU8_OPCODES` adds, in the formats of R207 to R213; `none` adds none (R97, R214). -/
def alu8Rows : Option Alu8Opcodes → List (Opcode × Row)
  | none => []
  | some o =>
    [(o.add8, .rr .add8),
     (o.sub8, .rr .sub8),
     (o.mul8, .rr .mul8),
     (o.muls8, .rr .muls8),
     (o.div8, .rr .div8),
     (o.addv8, .ri .addv8),
     (o.subv8, .ri .subv8)]

/-- The row of an opcode. A row of R93 stands before a supplied one, so no configuration changes a word that R93 gives
a meaning. -/
def rowOf (alu8 : Option Alu8Opcodes) (op : Opcode) : Option Row := (opcodeRows ++ alu8Rows alu8).lookup op

/-- What D19 asks of the seven supplied values: disjoint from the 113 assigned opcodes, and an opcode selects one
instruction (R97), so no two are equal. -/
def Alu8Opcodes.wellFormed (o : Alu8Opcodes) : Bool :=
  decide o.opcodes.Nodup && o.opcodes.all (fun op => (opcodeRows.lookup op).isNone)

/-- What R6 asks of the parameters: `MEM_SIZE` a multiple of 8, at most 2^64; `ALU8_OPCODES` `none` or seven legal
values (D19). -/
def Params.wellFormed (p : Params) : Bool :=
  p.memSize % 8 == 0 && decide (p.memSize ≤ 2 ^ 64) && p.alu8Opcodes.all Alu8Opcodes.wellFormed

/-! ## Decoding (R92) -/

/-- A row whose zero field holds `zeros` gives its instruction when the field is all 0, or when
`STRICT_ZERO_FIELDS` is off (R95). -/
def checkZeros {k : Nat} (strict : Bool) (zeros : BitVec k) (i : Instr) : Except DecodeError Instr :=
  if strict && zeros != 0#k then .error .nonzeroZeroField else .ok i

/-- The instruction a row gives for the word w: the fields its format has (R82 to R86). -/
def Row.decode (row : Row) (strict : Bool) (w : Word) : Except DecodeError Instr :=
  match row with
  | .op make => checkZeros strict (zeroBitsOP w) make
  | .r make => checkZeros strict (zeroBitsR w) (make (rdHighOf w))
  | .rr make => checkZeros strict (zeroBitsRR w) (make (rdLowOf w) (rsOf w))
  | .ri make => .ok (make (rdHighOf w) (imm44Of w))
  | .i make => .ok (make (imm48Of w))

/-- R92: look the opcode up, check the zero field, extract the operands. `alu8` is `ALU8_OPCODES`, `strict` is
`STRICT_ZERO_FIELDS`. -/
def decode (alu8 : Option Alu8Opcodes) (strict : Bool) (w : Word) : Except DecodeError Instr :=
  match rowOf alu8 (opcodeOf w) with
  | none => .error .unassignedOpcode
  | some row => row.decode strict w

/-! ## Bytes (R53, R56) -/

/-- The number whose bytes, least significant first, are the list: `b_{n-1} ++ .. ++ b_0` of R53. -/
def natOfBytes : List Byte → Nat
  | [] => 0
  | b :: bs => b.toNat + 256 * natOfBytes bs

/-- The n low bytes of v, least significant first: byte i is `v[8i+7:8i]` of R54. -/
def bytesOfNat : Nat → Nat → List Byte
  | 0, _ => []
  | n + 1, v => BitVec.ofNat 8 v :: bytesOfNat n (v / 256)

/-- Bytes in address order against bytes least significant first: the same under `little`, reversed under `big`
(R53, R54). It is its own inverse. -/
def orderBytes (e : Endian) (bs : List Byte) : List Byte :=
  match e with
  | .little => bs
  | .big => bs.reverse

/-- The w-bit value of bytes given in address order (R53). -/
def valueOfBytes (w : Nat) (e : Endian) (bs : List Byte) : BitVec w :=
  BitVec.ofNat w (natOfBytes (orderBytes e bs))

/-- The n bytes of a value, in address order (R54). -/
def bytesOfValue {w : Nat} (e : Endian) (n : Nat) (v : BitVec w) : List Byte :=
  orderBytes e (bytesOfNat n v.toNat)

/-- The first instruction of a list of bytes in address order, and the bytes after it (R56, R80). -/
def decodeBytes (alu8 : Option Alu8Opcodes) (strict : Bool) (e : Endian) (bs : List Byte) :
    Except DecodeError (Instr × List Byte) :=
  if bs.length < 8 then .error .tooFewBytes
  else (decode alu8 strict (valueOfBytes 64 e (bs.take 8))).map (fun i => (i, bs.drop 8))

/-- The instruction the decoder reads from a table row's bits w, numbered as spec/opcode_table.json numbers them
(bit 0 the least significant bit of the 64-bit word), with the default byte order, zero-field check and `ALU8_OPCODES`
(log 28). -/
def decodeTableWord (nbits w : Nat) : Option Instr :=
  let word : Word := BitVec.ofNat 64 (w % 2 ^ nbits)
  match decodeBytes none true .little (bytesOfValue .little 8 word) with
  | .ok (i, _) => some i
  | .error _ => none

/-! ## Encoding, written from the figures of R82 to R86 -/

/-- Format OP (R82). -/
def encodeOP (op : Opcode) : Word := op ++ 0#48

/-- Format R (R83). -/
def encodeR (op : Opcode) (rd : RegId) : Word := op ++ rd ++ 0#44

/-- Format RR (R84). -/
def encodeRR (op : Opcode) (rd rs : RegId) : Word := op ++ 0#40 ++ rd ++ rs

/-- Format RI (R85). -/
def encodeRI (op : Opcode) (rd : RegId) (imm : Imm44) : Word := op ++ rd ++ imm

/-- Format I (R86). -/
def encodeI (op : Opcode) (imm : Imm48) : Word := op ++ imm

/-- The word of an instruction under an `ALU8_OPCODES` (R92, last sentence): with `none` the 8-byte ALU mnemonics spell
no word (R97, R214). -/
def encode (alu8 : Option Alu8Opcodes) : Instr → Option Word
  | .parar => some (encodeOP 0x0000#16)
  | .nop => some (encodeOP 0x0001#16)
  | .add rd rs => some (encodeRR 0x0010#16 rd rs)
  | .sub rd rs => some (encodeRR 0x0011#16 rd rs)
  | .muls rd rs => some (encodeRR 0x0012#16 rd rs)
  | .mul rd rs => some (encodeRR 0x0013#16 rd rs)
  | .div rd rs => some (encodeRR 0x0014#16 rd rs)
  | .addv rd imm => some (encodeRI 0x0020#16 rd imm)
  | .subv rd imm => some (encodeRI 0x0021#16 rd imm)
  | .inc rd => some (encodeR 0x0030#16 rd)
  | .dec rd => some (encodeR 0x0031#16 rd)
  | .not rd => some (encodeR 0x0040#16 rd)
  | .and rd rs => some (encodeRR 0x0041#16 rd rs)
  | .andv rd imm => some (encodeRI 0x0042#16 rd imm)
  | .or rd rs => some (encodeRR 0x0043#16 rd rs)
  | .orv rd imm => some (encodeRI 0x0044#16 rd imm)
  | .xor rd rs => some (encodeRR 0x0045#16 rd rs)
  | .xorv rd imm => some (encodeRI 0x0046#16 rd imm)
  | .shl rd => some (encodeR 0x0050#16 rd)
  | .shr rd => some (encodeR 0x0051#16 rd)
  | .load rd imm => some (encodeRI 0x0060#16 rd imm)
  | .loadv rd imm => some (encodeRI 0x0061#16 rd imm)
  | .store rd rs => some (encodeRR 0x0062#16 rd rs)
  | .storev rd imm => some (encodeRI 0x0063#16 rd imm)
  | .clear rd => some (encodeR 0x0064#16 rd)
  | .cmp rd rs => some (encodeRR 0x0070#16 rd rs)
  | .cmpv rd imm => some (encodeRI 0x0071#16 rd imm)
  | .jmp imm => some (encodeI 0x0090#16 imm)
  | .jeq imm => some (encodeI 0x0091#16 imm)
  | .jne imm => some (encodeI 0x0092#16 imm)
  | .jmi imm => some (encodeI 0x0093#16 imm)
  | .jpl imm => some (encodeI 0x0094#16 imm)
  | .svio rd imm => some (encodeRI 0x00a0#16 rd imm)
  | .loadio rd imm => some (encodeRI 0x00a1#16 rd imm)
  | .showio imm => some (encodeI 0x00a2#16 imm)
  | .clrio => some (encodeOP 0x00a3#16)
  | .resetio => some (encodeOP 0x00a4#16)
  | .add1 rd rs => some (encodeRR 0x0100#16 rd rs)
  | .sub1 rd rs => some (encodeRR 0x0101#16 rd rs)
  | .mul1 rd rs => some (encodeRR 0x0102#16 rd rs)
  | .muls1 rd rs => some (encodeRR 0x0103#16 rd rs)
  | .div1 rd rs => some (encodeRR 0x0104#16 rd rs)
  | .addv1 rd imm => some (encodeRI 0x0110#16 rd imm)
  | .subv1 rd imm => some (encodeRI 0x0111#16 rd imm)
  | .add2 rd rs => some (encodeRR 0x0200#16 rd rs)
  | .sub2 rd rs => some (encodeRR 0x0201#16 rd rs)
  | .mul2 rd rs => some (encodeRR 0x0202#16 rd rs)
  | .muls2 rd rs => some (encodeRR 0x0203#16 rd rs)
  | .div2 rd rs => some (encodeRR 0x0204#16 rd rs)
  | .addv2 rd imm => some (encodeRI 0x0210#16 rd imm)
  | .subv2 rd imm => some (encodeRI 0x0211#16 rd imm)
  | .add4 rd rs => some (encodeRR 0x0300#16 rd rs)
  | .sub4 rd rs => some (encodeRR 0x0301#16 rd rs)
  | .mul4 rd rs => some (encodeRR 0x0302#16 rd rs)
  | .muls4 rd rs => some (encodeRR 0x0303#16 rd rs)
  | .div4 rd rs => some (encodeRR 0x0304#16 rd rs)
  | .addv4 rd imm => some (encodeRI 0x0310#16 rd imm)
  | .subv4 rd imm => some (encodeRI 0x0311#16 rd imm)
  | .mov1 rd rs => some (encodeRR 0x0400#16 rd rs)
  | .mov2 rd rs => some (encodeRR 0x0401#16 rd rs)
  | .mov4 rd rs => some (encodeRR 0x0402#16 rd rs)
  | .mov8 rd rs => some (encodeRR 0x0403#16 rd rs)
  | .movv1 rd imm => some (encodeRI 0x0410#16 rd imm)
  | .movv2 rd imm => some (encodeRI 0x0411#16 rd imm)
  | .movv4 rd imm => some (encodeRI 0x0412#16 rd imm)
  | .movv8 rd imm => some (encodeRI 0x0413#16 rd imm)
  | .load1 rd imm => some (encodeRI 0x0500#16 rd imm)
  | .load2 rd imm => some (encodeRI 0x0501#16 rd imm)
  | .load4 rd imm => some (encodeRI 0x0502#16 rd imm)
  | .load8 rd imm => some (encodeRI 0x0503#16 rd imm)
  | .loadr1 rd rs => some (encodeRR 0x0510#16 rd rs)
  | .loadr2 rd rs => some (encodeRR 0x0511#16 rd rs)
  | .loadr4 rd rs => some (encodeRR 0x0512#16 rd rs)
  | .loadr8 rd rs => some (encodeRR 0x0513#16 rd rs)
  | .store1 rd imm => some (encodeRI 0x0600#16 rd imm)
  | .store2 rd imm => some (encodeRI 0x0601#16 rd imm)
  | .store4 rd imm => some (encodeRI 0x0602#16 rd imm)
  | .store8 rd imm => some (encodeRI 0x0603#16 rd imm)
  | .storer1 rd rs => some (encodeRR 0x0610#16 rd rs)
  | .storer2 rd rs => some (encodeRR 0x0611#16 rd rs)
  | .storer4 rd rs => some (encodeRR 0x0612#16 rd rs)
  | .storer8 rd rs => some (encodeRR 0x0613#16 rd rs)
  | .fadd4 rd rs => some (encodeRR 0x0700#16 rd rs)
  | .fsub4 rd rs => some (encodeRR 0x0701#16 rd rs)
  | .fmul4 rd rs => some (encodeRR 0x0702#16 rd rs)
  | .fdiv4 rd rs => some (encodeRR 0x0703#16 rd rs)
  | .fadd8 rd rs => some (encodeRR 0x0710#16 rd rs)
  | .fsub8 rd rs => some (encodeRR 0x0711#16 rd rs)
  | .fmul8 rd rs => some (encodeRR 0x0712#16 rd rs)
  | .fdiv8 rd rs => some (encodeRR 0x0713#16 rd rs)
  | .fsqrt4 rd => some (encodeR 0x0720#16 rd)
  | .fsqrt8 rd => some (encodeR 0x0721#16 rd)
  | .fsin4 rd => some (encodeR 0x0722#16 rd)
  | .fcos4 rd => some (encodeR 0x0723#16 rd)
  | .fsin8 rd => some (encodeR 0x0724#16 rd)
  | .fcos8 rd => some (encodeR 0x0725#16 rd)
  | .ret => some (encodeOP 0x0800#16)
  | .pop1 rd => some (encodeR 0x0810#16 rd)
  | .pop2 rd => some (encodeR 0x0811#16 rd)
  | .pop4 rd => some (encodeR 0x0812#16 rd)
  | .pop8 rd => some (encodeR 0x0813#16 rd)
  | .push1 rd => some (encodeR 0x0820#16 rd)
  | .push2 rd => some (encodeR 0x0821#16 rd)
  | .push4 rd => some (encodeR 0x0822#16 rd)
  | .push8 rd => some (encodeR 0x0823#16 rd)
  | .cmp1 rd rs => some (encodeRR 0x0830#16 rd rs)
  | .cmp2 rd rs => some (encodeRR 0x0831#16 rd rs)
  | .cmp4 rd rs => some (encodeRR 0x0832#16 rd rs)
  | .cmp8 rd rs => some (encodeRR 0x0833#16 rd rs)
  | .cmpv1 rd imm => some (encodeRI 0x0840#16 rd imm)
  | .cmpv2 rd imm => some (encodeRI 0x0841#16 rd imm)
  | .cmpv4 rd imm => some (encodeRI 0x0842#16 rd imm)
  | .cmpv8 rd imm => some (encodeRI 0x0843#16 rd imm)
  | .add8 rd rs => alu8.map (fun o => encodeRR o.add8 rd rs)
  | .sub8 rd rs => alu8.map (fun o => encodeRR o.sub8 rd rs)
  | .mul8 rd rs => alu8.map (fun o => encodeRR o.mul8 rd rs)
  | .muls8 rd rs => alu8.map (fun o => encodeRR o.muls8 rd rs)
  | .div8 rd rs => alu8.map (fun o => encodeRR o.div8 rd rs)
  | .addv8 rd imm => alu8.map (fun o => encodeRI o.addv8 rd imm)
  | .subv8 rd imm => alu8.map (fun o => encodeRI o.subv8 rd imm)

end Sys2Proof
end

