-- ==== Sys2Proof/Machine/Defaults.lean ====
section
/-! DEFINITION. The parameters State.reset stands for: the defaults of 00_scope.md rule R6. -/

namespace Sys2Proof.Machine

/-- The defaults of R6. `MEM_SIZE` and `SP_RESET` are open there and have no default: 0x1000 and 0x800 are the values
of the spec's own examples (R333, 95_test_vectors.md), DESIGN CHOICE, log 3. -/
def standardParams : Params where
  memSize := 0x1000
  resetPc := 0#64
  spReset := 0x800#64
  endian := .little
  immExt := .zero
  subwordWrite := .zeroExtend
  aluFlags := .result
  div64Signed := true
  divRound := .trunc
  strictZeroFields := true
  inputSet := []
  alu8Opcodes := none
  nanDraw := .quiet

end Sys2Proof.Machine
end

