-- ==== Sys2Proof/Machine/State.lean ====
section
/-! DEFINITION. The state of the machine as plain data (the tuple at the head of 10_state.md), its faults, and reset. -/

namespace Sys2Proof.Machine

/-- The two sub-causes of `FetchFault` (R301). -/
inductive FetchCause where
  | misaligned
  | outOfRange
  deriving DecidableEq, Repr

/-- The direction of a data access (R301). -/
inductive Access where
  | read
  | write
  deriving DecidableEq, Repr

/-- The four fault kinds with their info (R301). A meaning that raises one answers a NEXT state whose `run` is
`faulted` (R303, log 16); the fault outcome of `step` is raised by `stoppedStep` alone, at a state that already stopped in
that fault, since a faulted machine takes no further step (R300). SAFE: nothing is proved past the fault. -/
inductive Fault where
  /-- Raised by `fetchInstr` at step 1 of R26. Safe. -/
  | fetchFault (pc : Word) (cause : FetchCause)
  /-- Raised by `fetchInstr` at step 3 of R26: no row matches the word w (R94, R95). Safe. -/
  | illegalInstruction (pc w : Word)
  /-- Raised by `State.memRead` and `State.memWrite`: the n bytes at a are not inside `Memoria` (R52). Safe. -/
  | memoryFault (a : Word) (n : Nat) (dir : Access)
  /-- Raised by the integer divisions: the divisor is 0 at the operation's width (R132). Safe. -/
  | divideByZero (pc : Word)
  deriving DecidableEq, Repr

/-- Why an instruction has no meaning. -/
inductive Refusal where
  /-- Raised by an arm of `exec` whose instruction has no meaning yet; no arm of this model raises it. Safe. -/
  | notModelled (mnemonic : String)
  deriving DecidableEq, Repr

/-- The run state (R33). `halted` and `faulted` are left only by a new reset. -/
inductive RunState where
  | running
  | halted
  | faulted (f : Fault)
  deriving DecidableEq, Repr

/-- The I/O events of `trace` (R37, R177). -/
inductive Event where
  | out (c : IoCell) (v : Word)
  | input (c : IoCell) (v : Word)
  | show (c : IoCell) (v : Word)
  | clrIO
  | resetIO
  deriving DecidableEq, Repr

/-- `Memoria` (R35) as (address, byte) pairs in the canonical form of `Memory.wf`; an unlisted byte reads 0 (log 6). -/
abbrev Memory := List Host.Cell

/-- The `IO` space (R36, R175) as (cell number, value) pairs in the canonical form of `IoSpace.wf`; an unlisted cell
holds 0, its value after reset (R39). -/
abbrev IoSpace := List (Nat × Word)

/-- The whole state. The first nine fields are the tuple at the head of 10_state.md; `params` (log 5) and `draws` (log 7)
are the model's own. -/
structure State where
  /-- `R0` .. `R15` (R20). -/
  regs : Vector Word 16
  /-- The address of the instruction being executed (R24). -/
  pc : Word
  /-- The first free byte above the stack (R27). -/
  sp : Word
  /-- Flag Z (R28). -/
  z : Bool
  /-- Flag N (R28). -/
  n : Bool
  run : RunState
  mem : Memory
  io : IoSpace
  /-- The I/O events so far, oldest first (R37). -/
  trace : List Event
  /-- The parameters the host fixed before reset (R6, R330); no step changes them. -/
  params : Params
  /-- How many free values were drawn so far: the next draw is the free constants' value at this number. -/
  draws : Nat
  deriving DecidableEq, Repr

/-- Reset as R330 and R39 give it, for any parameters, any image, and any of the values R39 leaves unspecified. -/
def State.resetWith (p : Params) (image : Memory) (regs : Vector Word 16) (z n : Bool) (draws : Nat) : State where
  regs := regs
  pc := p.resetPc
  sp := p.spReset
  z := z
  n := n
  run := .running
  mem := image
  io := []
  trace := []
  params := p
  draws := draws

/-- The machine right after reset, with the standard parameters (log 3), no image, and 0 for each value that R39 leaves
unspecified: the registers (log 1), Z and N (log 2). Statements about what R39 allows are made over `ResetState`. -/
def State.reset : State :=
  State.resetWith standardParams [] (Vector.replicate 16 0#64) false false 0

end Sys2Proof.Machine
end

