-- ==== Sys2Proof/Machine/Memory.lean ====
section
/-! DEFINITION. Sparse data by key: a list of (key, value) pairs in one canonical form, keys strictly rising and no entry
equal to 0, which is what an unlisted key reads as. `Memoria` uses it at 8 bits, `IO` at 64. -/

namespace Sys2Proof.Machine

/-- What key k holds: its entry, or 0 when unlisted (memory: log 6; IO: R39). -/
def sparseRead {w : Nat} : List (Nat × BitVec w) → Nat → BitVec w
  | [], _ => 0#w
  | (j, u) :: rest, k => if j = k then u else sparseRead rest k

/-- The data without key k. -/
def sparseErase {w : Nat} (m : List (Nat × BitVec w)) (k : Nat) : List (Nat × BitVec w) :=
  m.filter (fun e => e.1 != k)

/-- The data with the entry (k, v) put before the first greater key. -/
def sparseInsert {w : Nat} (k : Nat) (v : BitVec w) : List (Nat × BitVec w) → List (Nat × BitVec w)
  | [] => [(k, v)]
  | (j, u) :: rest => if k < j then (k, v) :: (j, u) :: rest else (j, u) :: sparseInsert k v rest

/-- Key k now holds v; writing 0 removes the entry, so that equal contents are equal lists. -/
def sparseWrite {w : Nat} (m : List (Nat × BitVec w)) (k : Nat) (v : BitVec w) : List (Nat × BitVec w) :=
  if v = 0#w then sparseErase m k else sparseInsert k v (sparseErase m k)

/-- The canonical form: keys strictly rising, all below `bound`, no entry equal to what an unlisted key reads as. -/
def sparseWf {w : Nat} (bound : Nat) : List (Nat × BitVec w) → Bool
  | [] => true
  | (k, v) :: rest =>
    decide (k < bound) && v != 0#w && (rest.all fun e => decide (k < e.1)) && sparseWf bound rest

/-- The canonical form of `Memoria` when it has `memSize` bytes (R35). -/
def Memory.wf (memSize : Nat) (m : Memory) : Bool := sparseWf memSize m

/-- The canonical form of `IO`, which has 2^48 cells (R175). -/
def IoSpace.wf (io : IoSpace) : Bool := sparseWf (2 ^ 48) io

/-- The n bytes of `Memoria` from address a upward. -/
def readBytes (m : Memory) (a : Nat) : Nat → List Byte
  | 0 => []
  | n + 1 => sparseRead m a :: readBytes m (a + 1) n

/-- `Memoria` with the bytes stored from address a upward. -/
def writeBytes (m : Memory) (a : Nat) : List Byte → Memory
  | [] => m
  | b :: bs => writeBytes (sparseWrite m a b) (a + 1) bs

end Sys2Proof.Machine
end

