-- ==== Sys2Proof/Machine/Ops.lean ====
section
/-! DEFINITION. The named operations over registers, `pc`, `SP`, `Memoria` and `IO`: the primitives of R10. -/

namespace Sys2Proof.Machine

/-- What one step or one instruction answers. -/
abbrev Result := Host.Outcome State Fault Refusal

/-! ## Registers (R20, R22, R23) -/

/-- `x[i]`: the 64-bit value of `Ri` (R20). -/
def State.reg (s : State) (r : RegId) : Word := s.regs[r.toNat]'r.isLt

/-- `x[i] <- v`: all 64 bits (R10). -/
def State.setReg (s : State) (r : RegId) (v : Word) : State :=
  { s with regs := s.regs.set r.toNat v r.isLt }

/-- `lo_n(x[i])` at width w = 8n (R9, R23). -/
def State.lo (s : State) (w : Nat) (r : RegId) : BitVec w := (s.reg r).setWidth w

/-- One more free value was drawn (log 7). -/
def State.drawn (s : State) : State := { s with draws := s.draws + 1 }

/-- `u[63:w] ++ r`: the w bits of r below the upper bits of u (R22). -/
def withUpper {w : Nat} (u : Word) (r : BitVec w) : Word := (u >>> w) <<< w ||| r.setWidth 64

/-- `WriteSized(d, n, r)` at width w = 8n (R10, R22): all of `Rd` at n = 8, else bits 63:8n by `SUBWORD_WRITE`. -/
def State.writeSized {w : Nat} (s : State) (d : RegId) (r : BitVec w) : State :=
  if w = 64 then s.setReg d (r.setWidth 64)
  else
    match s.params.subwordWrite with
    | .zeroExtend => s.setReg d (r.setWidth 64)
    | .preserveUpper => s.setReg d (withUpper (s.reg d) r)
    | .signExtend => s.setReg d (r.signExtend 64)
    | .unspecified => (s.setReg d (withUpper (Config.freeUpper s.draws) r)).drawn

/-! ## `pc` and the run state -/

/-- Steps 4 and 6 of R26: `pc <- trunc_64(pc + 8)`, for an instruction that does not assign `pc`. -/
def State.advance (s : State) : State := { s with pc := s.pc + 8#64 }

/-- `pc <- t` (R110, R285). A bad target is found by the next fetch, not here. -/
def State.jumpTo (s : State) (t : Word) : State := { s with pc := t }

/-- `raise F(info)` (R10, R303), the whole of trap entry (R306): `run <- Faulted(F, info)` and nothing else changes; `pc`
keeps the address of the faulting instruction. There is no return from it (R307). -/
def State.raise (s : State) (f : Fault) : State := { s with run := .faulted f }

/-- `run <- Halted` (R111); `pc` keeps the address of the `PARAR`. -/
def State.halt (s : State) : State := { s with run := .halted }

/-! ## `Memoria` (R52 to R54) -/

/-- The access of n bytes at a is inside `Memoria`: `u(a) + n <= MEM_SIZE` in the unbounded integers (R52). -/
def State.inside (s : State) (a : Word) (n : Nat) : Bool := decide (a.toNat + n ≤ s.params.memSize)

/-- The byte of `Memoria` at address a. -/
def State.byteAt (s : State) (a : Nat) : Byte := sparseRead s.mem a

/-- The w-bit value of the bytes from a upward, assembled by `ENDIAN` (R53, R56), with no range check. -/
def State.valueAt (s : State) (w : Nat) (a : Word) : BitVec w :=
  valueOfBytes w s.params.endian (readBytes s.mem a.toNat (w / 8))

/-- `MemRead(a, n)` at width w = 8n (R53). -/
def State.memRead (s : State) (w : Nat) (a : Word) : Except Fault (BitVec w) :=
  if s.inside a (w / 8) then .ok (s.valueAt w a) else .error (.memoryFault a (w / 8) .read)

/-- The stores of `MemWrite` when the range is inside (R54). -/
def State.storeAt {w : Nat} (s : State) (a : Word) (v : BitVec w) : State :=
  { s with mem := writeBytes s.mem a.toNat (bytesOfValue s.params.endian (w / 8) v) }

/-- `MemWrite(a, n, v)` at width w = 8n (R54): whole or not at all. -/
def State.memWrite {w : Nat} (s : State) (a : Word) (v : BitVec w) : Except Fault State :=
  if s.inside a (w / 8) then .ok (s.storeAt a v) else .error (.memoryFault a (w / 8) .write)

/-- A load of width w (R235): `WriteSized(rd, n, MemRead(a, n))`. -/
def State.loadInto (s : State) (w : Nat) (rd : RegId) (a : Word) : State :=
  match s.memRead w a with
  | .ok v => (s.writeSized rd v).advance
  | .error f => s.raise f

/-- A store of width w (R235): `MemWrite(a, n, v)`. -/
def State.storeTo {w : Nat} (s : State) (a : Word) (v : BitVec w) : State :=
  match s.memWrite a v with
  | .ok t => t.advance
  | .error f => s.raise f

/-! ## The stack (R286) -/

/-- `SP <- v`. -/
def State.setSp (s : State) (v : Word) : State := { s with sp := v }

/-- `trunc_64(SP - n)`, n = w / 8: where a pop of width w reads (R286). -/
def State.popAddr (s : State) (w : Nat) : Word := s.sp - BitVec.ofNat 64 (w / 8)

/-- `POPn` (R286 to R290): `SP` is updated only after the read has succeeded. -/
def State.popInto (s : State) (w : Nat) (rd : RegId) : State :=
  match s.memRead w (s.popAddr w) with
  | .ok v => ((s.setSp (s.popAddr w)).writeSized rd v).advance
  | .error f => s.raise f

/-- `PUSHn` (R286, R291 to R294): store at `SP`, then add n. -/
def State.push {w : Nat} (s : State) (v : BitVec w) : State :=
  match s.memWrite s.sp v with
  | .ok t => (t.setSp (s.sp + BitVec.ofNat 64 (w / 8))).advance
  | .error f => s.raise f

/-- `RET` (R285): pop 8 bytes into `pc`. -/
def State.popPc (s : State) : State :=
  match s.memRead 64 (s.popAddr 64) with
  | .ok t => (s.setSp (s.popAddr 64)).jumpTo t
  | .error f => s.raise f

/-! ## The I/O space (R175 to R177) -/

/-- Cell number k is in `IO_INPUT_SET` (R176). -/
def isInput (p : Params) (k : Nat) : Bool :=
  p.inputSet.any fun r => decide (r.lo ≤ k) && decide (k ≤ r.hi)

/-- The value of cell c. -/
def State.ioCell (s : State) (c : IoCell) : Word := sparseRead s.io c.toNat

/-- `IoWrite(c, v)` (R176). -/
def State.ioWrite (s : State) (c : IoCell) (v : Word) : State :=
  { s with io := sparseWrite s.io c.toNat v }

/-- The value `IoRead(c)` gives (R176): the environment's answer for an input cell (free, log 10), else the cell. -/
def State.ioReadValue (s : State) (c : IoCell) : Word :=
  if isInput s.params c.toNat then Config.ioAnswer s.draws else s.ioCell c

/-- What `IoRead(c)` changes (R176): an input cell latches the answer. -/
def State.ioReadState (s : State) (c : IoCell) : State :=
  if isInput s.params c.toNat then (s.ioWrite c (Config.ioAnswer s.draws)).drawn else s

/-- `for every c in IO_INPUT_SET : IO[c] <- 0` (R181). -/
def State.clearInputs (s : State) : State :=
  { s with io := s.io.filter fun e => !isInput s.params e.1 }

/-- `for every cell c : IO[c] <- 0` (R182). -/
def State.clearIo (s : State) : State := { s with io := [] }

/-- `Emit(e)` (R177). -/
def State.emit (s : State) (e : Event) : State := { s with trace := s.trace ++ [e] }

end Sys2Proof.Machine
end

