-- ==== Sys2Proof/Machine/Flags.lean ====
section
/-! DEFINITION. The two flags (R28 to R31). -/

namespace Sys2Proof.Machine

/-- `SetZN(n, r)` at width w = 8n (R29): Z is "all bits 0", N is the sign bit at the operation width. -/
def State.setZN {w : Nat} (s : State) (r : BitVec w) : State :=
  { s with z := decide (r = 0#w), n := r.msb }

/-- `FlagsALU(n, r)` at width w = 8n (R30), by `ALU_FLAGS`; `unspecified` draws both flags (log 9). -/
def State.flagsALU {w : Nat} (s : State) (r : BitVec w) : State :=
  match s.params.aluFlags with
  | .result => s.setZN r
  | .unchanged => s
  | .unspecified => { s with z := Config.freeZ s.draws, n := Config.freeN s.draws, draws := s.draws + 1 }

end Sys2Proof.Machine
end

