-- ==== Sys2Proof/Machine/Operands.lean ====
section
/-! DEFINITION. Immediate operands (R88, R89). -/

namespace Sys2Proof.Machine

/-- `addr44 = zext_64(imm44)`: a direct address (R51, R88). -/
def addr44 (imm : Imm44) : Word := imm.setWidth 64

/-- `addr48 = zext_64(imm48)`: a jump target (R51, R88). -/
def addr48 (imm : Imm48) : Word := imm.setWidth 64

/-- `c <- addr44` as a cell number of `SVIO` and `LOADIO` (R175). -/
def cell44 (imm : Imm44) : IoCell := imm.setWidth 48

/-- `c <- addr48` as a cell number of `SHOWIO` (R175). -/
def cell48 (imm : Imm48) : IoCell := imm

/-- `immv(n)` at width w = 8n (R10, R89): the low w bits for n in 1, 2, 4; at n = 8 the field extended by `IMM_EXT`. -/
def immv (ext : ImmExt) (w : Nat) (imm : Imm44) : BitVec w :=
  if w = 64 then
    match ext with
    | .zero => imm.setWidth w
    | .sign => imm.signExtend w
  else imm.setWidth w

/-- `immv(n)` under the machine's `IMM_EXT`. -/
def State.imm (s : State) (w : Nat) (v : Imm44) : BitVec w := immv s.params.immExt w v

end Sys2Proof.Machine
end

