-- ==== Sys2Proof/Machine/Alu.lean ====
section
/-! DEFINITION. The integer laws at every width W (R130 to R132) and the shared shapes of the ALU instructions (R120,
R135, R166, R185). -/

namespace Sys2Proof.Machine

/-- `trunc_W(u(a) + u(b))` (R130). -/
def addLaw {w : Nat} (a b : BitVec w) : BitVec w := BitVec.ofNat w (a.toNat + b.toNat)

/-- `trunc_W(u(a) - u(b))` (R130). -/
def subLaw {w : Nat} (a b : BitVec w) : BitVec w := BitVec.ofInt w ((a.toNat : Int) - (b.toNat : Int))

/-- `trunc_W(u(a) * u(b))`, the unsigned product (R131). -/
def mulLaw {w : Nat} (a b : BitVec w) : BitVec w := BitVec.ofNat w (a.toNat * b.toNat)

/-- `trunc_W(s_W(a) * s_W(b))`, the signed product (R131). -/
def mulsLaw {w : Nat} (a b : BitVec w) : BitVec w := BitVec.ofInt w (a.toInt * b.toInt)

/-- The signed quotient of R132 (b), (c): rounded by `DIV_ROUND`, then `trunc_W`. -/
def divsLaw {w : Nat} (round : DivRound) (a b : BitVec w) : BitVec w :=
  match round with
  | .trunc => BitVec.ofInt w (Int.tdiv a.toInt b.toInt)
  | .floor => BitVec.ofInt w (Int.fdiv a.toInt b.toInt)

/-- The unsigned quotient `trunc_W(floor(u(a) / u(b)))` of `DIV64_SIGNED = false` (R132). -/
def divuLaw {w : Nat} (a b : BitVec w) : BitVec w := BitVec.ofNat w (a.toNat / b.toNat)

/-- `WriteSized(rd, n, r); FlagsALU(n, r)` and on to the next instruction (R120, R135, R185). -/
def State.aluResult {w : Nat} (s : State) (rd : RegId) (r : BitVec w) : State :=
  ((s.writeSized rd r).flagsALU r).advance

/-- A two-operand ALU instruction at width w; both operands are read before `Rd` is written (R120, R185). -/
def State.alu {w : Nat} (s : State) (f : BitVec w → BitVec w → BitVec w) (rd : RegId) (b : BitVec w) : State :=
  s.aluResult rd (f (s.lo w rd) b)

/-- A division at width w (R132): `DivideByZero(pc)` on a zero divisor, else the quotient q gives. -/
def State.divide {w : Nat} (s : State) (q : BitVec w → BitVec w → BitVec w) (rd : RegId) (b : BitVec w) : State :=
  if b = 0#w then s.raise (.divideByZero s.pc) else s.alu q rd b

/-- A compare at width w (R166): the flags of the difference `Rd - b`, nothing else; `ALU_FLAGS` plays no part. -/
def State.compare {w : Nat} (s : State) (rd : RegId) (b : BitVec w) : State :=
  (s.setZN (subLaw (s.lo w rd) b)).advance

end Sys2Proof.Machine
end

