-- ==== Sys2Proof/Machine/AluSized.lean ====
section
/-! DEFINITION. Arithmetic with specific sizes, 45_alu_sized.md: width W = 8n, result by `WriteSized`, flags by
`FlagsALU(n, r)` (R185). -/

namespace Sys2Proof.Machine

/-! ## 1 byte -/

/-- `ADD1 Rd, Rs` (R186). -/
def execAdd1 (rd rs : RegId) (s : State) : Result := .next (s.alu addLaw rd (s.lo 8 rs))

/-- `SUB1 Rd, Rs` (R187). -/
def execSub1 (rd rs : RegId) (s : State) : Result := .next (s.alu subLaw rd (s.lo 8 rs))

/-- `MUL1 Rd, Rs` (R188). -/
def execMul1 (rd rs : RegId) (s : State) : Result := .next (s.alu mulLaw rd (s.lo 8 rs))

/-- `MULS1 Rd, Rs` (R189). -/
def execMuls1 (rd rs : RegId) (s : State) : Result := .next (s.alu mulsLaw rd (s.lo 8 rs))

/-- `DIV1 Rd, Rs` (R190). -/
def execDiv1 (rd rs : RegId) (s : State) : Result := .next (s.divide (divsLaw s.params.divRound) rd (s.lo 8 rs))

/-- `ADDV1 Rd, v` (R191). -/
def execAddv1 (rd : RegId) (v : Imm44) (s : State) : Result := .next (s.alu addLaw rd (s.imm 8 v))

/-- `SUBV1 Rd, v` (R192). -/
def execSubv1 (rd : RegId) (v : Imm44) (s : State) : Result := .next (s.alu subLaw rd (s.imm 8 v))

/-! ## 2 bytes -/

/-- `ADD2 Rd, Rs` (R193). -/
def execAdd2 (rd rs : RegId) (s : State) : Result := .next (s.alu addLaw rd (s.lo 16 rs))

/-- `SUB2 Rd, Rs` (R194). -/
def execSub2 (rd rs : RegId) (s : State) : Result := .next (s.alu subLaw rd (s.lo 16 rs))

/-- `MUL2 Rd, Rs` (R195). -/
def execMul2 (rd rs : RegId) (s : State) : Result := .next (s.alu mulLaw rd (s.lo 16 rs))

/-- `MULS2 Rd, Rs` (R196). -/
def execMuls2 (rd rs : RegId) (s : State) : Result := .next (s.alu mulsLaw rd (s.lo 16 rs))

/-- `DIV2 Rd, Rs` (R197). -/
def execDiv2 (rd rs : RegId) (s : State) : Result := .next (s.divide (divsLaw s.params.divRound) rd (s.lo 16 rs))

/-- `ADDV2 Rd, v` (R198). -/
def execAddv2 (rd : RegId) (v : Imm44) (s : State) : Result := .next (s.alu addLaw rd (s.imm 16 v))

/-- `SUBV2 Rd, v` (R199). -/
def execSubv2 (rd : RegId) (v : Imm44) (s : State) : Result := .next (s.alu subLaw rd (s.imm 16 v))

/-! ## 4 bytes -/

/-- `ADD4 Rd, Rs` (R200). -/
def execAdd4 (rd rs : RegId) (s : State) : Result := .next (s.alu addLaw rd (s.lo 32 rs))

/-- `SUB4 Rd, Rs` (R201). -/
def execSub4 (rd rs : RegId) (s : State) : Result := .next (s.alu subLaw rd (s.lo 32 rs))

/-- `MUL4 Rd, Rs` (R202). -/
def execMul4 (rd rs : RegId) (s : State) : Result := .next (s.alu mulLaw rd (s.lo 32 rs))

/-- `MULS4 Rd, Rs` (R203). -/
def execMuls4 (rd rs : RegId) (s : State) : Result := .next (s.alu mulsLaw rd (s.lo 32 rs))

/-- `DIV4 Rd, Rs` (R204). -/
def execDiv4 (rd rs : RegId) (s : State) : Result := .next (s.divide (divsLaw s.params.divRound) rd (s.lo 32 rs))

/-- `ADDV4 Rd, v` (R205). -/
def execAddv4 (rd : RegId) (v : Imm44) (s : State) : Result := .next (s.alu addLaw rd (s.imm 32 v))

/-- `SUBV4 Rd, v` (R206). -/
def execSubv4 (rd : RegId) (v : Imm44) (s : State) : Result := .next (s.alu subLaw rd (s.imm 32 v))

/-! ## 8 bytes: no encoding unless `ALU8_OPCODES` supplies one (R97, R214, log 18) -/

/-- `ADD8 Rd, Rs` (R207). -/
def execAdd8 (rd rs : RegId) (s : State) : Result := .next (s.alu addLaw rd (s.lo 64 rs))

/-- `SUB8 Rd, Rs` (R208). -/
def execSub8 (rd rs : RegId) (s : State) : Result := .next (s.alu subLaw rd (s.lo 64 rs))

/-- `MUL8 Rd, Rs` (R209). -/
def execMul8 (rd rs : RegId) (s : State) : Result := .next (s.alu mulLaw rd (s.lo 64 rs))

/-- `MULS8 Rd, Rs` (R210). -/
def execMuls8 (rd rs : RegId) (s : State) : Result := .next (s.alu mulsLaw rd (s.lo 64 rs))

/-- `DIV8 Rd, Rs` (R211): always signed. -/
def execDiv8 (rd rs : RegId) (s : State) : Result := .next (s.divide (divsLaw s.params.divRound) rd (s.lo 64 rs))

/-- `ADDV8 Rd, v` (R212). -/
def execAddv8 (rd : RegId) (v : Imm44) (s : State) : Result := .next (s.alu addLaw rd (s.imm 64 v))

/-- `SUBV8 Rd, v` (R213). -/
def execSubv8 (rd : RegId) (v : Imm44) (s : State) : Result := .next (s.alu subLaw rd (s.imm 64 v))

end Sys2Proof.Machine
end

