-- ==== Sys2Proof/Machine/Arithmetic.lean ====
section
/-! DEFINITION. The unsized arithmetic instructions of 41_arithmetic.md: 8 bytes wide (R120). -/

namespace Sys2Proof.Machine

/-- `ADD Rd, Rs` (R121). -/
def execAdd (rd rs : RegId) (s : State) : Result := .next (s.alu addLaw rd (s.lo 64 rs))

/-- `SUB Rd, Rs` (R122). -/
def execSub (rd rs : RegId) (s : State) : Result := .next (s.alu subLaw rd (s.lo 64 rs))

/-- `MULS Rd, Rs` (R123): signed. -/
def execMuls (rd rs : RegId) (s : State) : Result := .next (s.alu mulsLaw rd (s.lo 64 rs))

/-- `MUL Rd, Rs` (R124): unsigned. -/
def execMul (rd rs : RegId) (s : State) : Result := .next (s.alu mulLaw rd (s.lo 64 rs))

/-- The quotient of the unsized `DIV`: signed or unsigned by `DIV64_SIGNED` (R132). -/
def div64Law (p : Params) (a b : BitVec 64) : BitVec 64 :=
  if p.div64Signed then divsLaw p.divRound a b else divuLaw a b

/-- `DIV Rd, Rs` (R125, R132). -/
def execDiv (rd rs : RegId) (s : State) : Result := .next (s.divide (div64Law s.params) rd (s.lo 64 rs))

/-- `ADDV Rd, v` (R126). -/
def execAddv (rd : RegId) (v : Imm44) (s : State) : Result := .next (s.alu addLaw rd (s.imm 64 v))

/-- `SUBV Rd, v` (R127). -/
def execSubv (rd : RegId) (v : Imm44) (s : State) : Result := .next (s.alu subLaw rd (s.imm 64 v))

/-- `INC Rd` (R128). -/
def execInc (rd : RegId) (s : State) : Result := .next (s.alu addLaw rd 1#64)

/-- `DEC Rd` (R129). -/
def execDec (rd : RegId) (s : State) : Result := .next (s.alu subLaw rd 1#64)

end Sys2Proof.Machine
end

