-- ==== Sys2Proof/Machine/ControlFlow.lean ====
section
/-! DEFINITION. The control flow instructions of 40_control_flow.md. -/

namespace Sys2Proof.Machine

/-- `PARAR` (R111): `run <- Halted`; `pc` is not advanced. -/
def execParar (s : State) : Result := .next s.halt

/-- `NOP` (R112). -/
def execNop (s : State) : Result := .next s.advance

/-- A jump to `zext_64(imm48)` when `cond` holds, else on to the next instruction (R110). -/
def State.jumpIf (s : State) (cond : Bool) (k : Imm48) : State :=
  if cond then s.jumpTo (addr48 k) else s.advance

/-- `JMP k` (R113). -/
def execJmp (k : Imm48) (s : State) : Result := .next (s.jumpIf true k)

/-- `JEQ k` (R114): taken when Z = 1. -/
def execJeq (k : Imm48) (s : State) : Result := .next (s.jumpIf s.z k)

/-- `JNE k` (R115): taken when Z = 0. -/
def execJne (k : Imm48) (s : State) : Result := .next (s.jumpIf (!s.z) k)

/-- `JMI k` (R116): taken when N = 1. -/
def execJmi (k : Imm48) (s : State) : Result := .next (s.jumpIf s.n k)

/-- `JPL k` (R117): taken when N = 0, whatever Z is (90_conflicts.md C3). -/
def execJpl (k : Imm48) (s : State) : Result := .next (s.jumpIf (!s.n) k)

end Sys2Proof.Machine
end

