-- ==== Sys2Proof/Machine/Fp.lean ====
section
/-! DEFINITION. The fixed functions of the record `FP` (R260 to R263): IEEE 754 binary32 and binary64 with one rounding,
to nearest with ties to even. Every finite datum is a whole number of units, one unit being the least subnormal, so the
exact result of an operation is a quotient or a square root of natural numbers, and is rounded once. -/

namespace Sys2Proof.Machine

/-- A binary interchange format (R260): a sign bit, `expBits` of biased exponent, `fracBits` of fraction. -/
structure FpFormat where
  expBits : Nat
  fracBits : Nat
  deriving DecidableEq, Repr

/-- The "float": 1 + 8 + 23 bits, bias 127 (R260). -/
def binary32 : FpFormat := ⟨8, 23⟩

/-- The "double": 1 + 11 + 52 bits, bias 1023 (R260). -/
def binary64 : FpFormat := ⟨11, 52⟩

/-- The exponent field of infinities and NaNs: all ones. -/
def fpExpMax (f : FpFormat) : Nat := 2 ^ f.expBits - 1

/-- One unit, the least subnormal, is 2^-K with K = bias + fracBits - 1: 149 for binary32, 1074 for binary64. -/
def fpUnitExp (f : FpFormat) : Nat := 2 ^ (f.expBits - 1) - 1 + f.fracBits - 1

/-- The sign bit alone. -/
def fpSign (f : FpFormat) (neg : Bool) : Nat := if neg then 2 ^ (f.expBits + f.fracBits) else 0

/-- `f32(v)`, `f64(v)` of R260: a NaN, an infinity, or a finite number of `mag` units with its sign (so +0 and -0 differ). -/
inductive FpDatum where
  | nan
  | inf (neg : Bool)
  | fin (neg : Bool) (mag : Nat)
  deriving DecidableEq, Repr

/-- The datum of a bit pattern (R260, R262): subnormals are ordinary numbers. -/
def fpDatum (f : FpFormat) (v : Nat) : FpDatum :=
  let neg := v.testBit (f.expBits + f.fracBits)
  let e := v / 2 ^ f.fracBits % 2 ^ f.expBits
  let frac := v % 2 ^ f.fracBits
  if e = fpExpMax f then (if frac = 0 then .inf neg else .nan)
  else if e = 0 then .fin neg frac
  else .fin neg ((2 ^ f.fracBits + frac) * 2 ^ (e - 1))

/-- The bit pattern of an infinity. -/
def fpInf (f : FpFormat) (neg : Bool) : Nat := fpSign f neg + fpExpMax f * 2 ^ f.fracBits

/-- The bit pattern of a rounded magnitude, in units: subnormal or zero below 2^fracBits, infinity when it exceeds the
largest finite number (R263), else normal. -/
def fpPack (f : FpFormat) (neg : Bool) (mag : Nat) : Nat :=
  if mag < 2 ^ f.fracBits then fpSign f neg + mag
  else
    let e := Nat.log2 mag - f.fracBits + 1
    if fpExpMax f ≤ e then fpInf f neg
    else fpSign f neg + e * 2 ^ f.fracBits + (mag / 2 ^ (e - 1) - 2 ^ f.fracBits)

/-- Rounding to nearest, ties to even (R261): from the floor q, and twice the remainder against the divisor. -/
def roundHalfEven (q twiceRem d : Nat) : Nat :=
  if twiceRem < d ∨ (twiceRem = d ∧ q % 2 = 0) then q else q + 1

/-- num / den rounded once to fracBits + 1 significant bits (fewer below the normal range), in units (R261). -/
def fpRoundQuot (f : FpFormat) (num den : Nat) : Nat :=
  let s := Nat.log2 (num / den) - f.fracBits
  let d := den * 2 ^ s
  roundHalfEven (num / d) (2 * (num % d)) d * 2 ^ s

/-- The integer square root of n < 4^k, bit pair by bit pair. -/
def isqrt : Nat → Nat → Nat
  | 0, _ => 0
  | k + 1, n =>
    let r := 2 * isqrt k (n / 4)
    if (r + 1) * (r + 1) ≤ n then r + 1 else r

/-- The square root of m rounded once, in units (R261): q is its floor in steps of 2^s, and the midpoint q + 1/2 is
compared with it by squares. -/
def fpRoundSqrt (f : FpFormat) (m : Nat) : Nat :=
  let s := Nat.log2 m / 2 - f.fracBits
  let q := isqrt (f.fracBits + 1) (m / 4 ^ s)
  roundHalfEven q (4 * m) ((2 * q + 1) * (2 * q + 1) * 4 ^ s) * 2 ^ s

/-- What a fixed function gives: a bit pattern, or a NaN whose bits are free (R262). -/
inductive FpOut where
  | nan
  | bits (v : Nat)
  deriving DecidableEq, Repr

/-- The signed number of units of a finite datum. -/
def fpInt (neg : Bool) (mag : Nat) : Int := if neg then -(mag : Int) else (mag : Int)

/-- An exact whole number x of units, rounded; an exact zero takes the sign `zeroNeg`. -/
def fpOfInt (f : FpFormat) (zeroNeg : Bool) (x : Int) : FpOut :=
  if x = 0 then .bits (fpPack f zeroNeg 0)
  else .bits (fpPack f (decide (x < 0)) (fpRoundQuot f x.natAbs 1))

/-- `FP.add_n` (R261, R263). An exact zero sum is +0 unless both operands are -0. Infinite operands: log 14. -/
def fpAdd (f : FpFormat) : FpDatum → FpDatum → FpOut
  | .nan, _ => .nan
  | _, .nan => .nan
  | .inf a, .inf b => if a = b then .bits (fpInf f a) else .nan
  | .inf a, .fin _ _ => .bits (fpInf f a)
  | .fin _ _, .inf b => .bits (fpInf f b)
  | .fin a m, .fin b n => fpOfInt f (a && b) (fpInt a m + fpInt b n)

/-- `FP.sub_n` (R261, R263). An exact zero difference is +0, as the table of R263 has it (log 15). -/
def fpSub (f : FpFormat) : FpDatum → FpDatum → FpOut
  | .nan, _ => .nan
  | _, .nan => .nan
  | .inf a, .inf b => if a = b then .nan else .bits (fpInf f a)
  | .inf a, .fin _ _ => .bits (fpInf f a)
  | .fin _ _, .inf b => .bits (fpInf f !b)
  | .fin a m, .fin b n => fpOfInt f false (fpInt a m - fpInt b n)

/-- `FP.mul_n` (R261, R263): the sign is the XOR of the signs, also for zeros and infinities (R267). -/
def fpMul (f : FpFormat) : FpDatum → FpDatum → FpOut
  | .nan, _ => .nan
  | _, .nan => .nan
  | .inf a, .inf b => .bits (fpInf f (a != b))
  | .inf a, .fin b n => if n = 0 then .nan else .bits (fpInf f (a != b))
  | .fin a m, .inf b => if m = 0 then .nan else .bits (fpInf f (a != b))
  | .fin a m, .fin b n => .bits (fpPack f (a != b) (fpRoundQuot f (m * n) (2 ^ fpUnitExp f)))

/-- `FP.div_n` (R261, R263). `infByZero` is the value R263 does not state, an infinity divided by a zero (log 13). DEDUCED:
a finite nonzero divisor of an infinity gives the infinity of the XOR of the signs (log 14), and of a zero the zero of that
sign (log 29): R263 has no row for either, and R267 gives the XOR for products only. -/
def fpDiv (f : FpFormat) (infByZero : Nat) : FpDatum → FpDatum → FpOut
  | .nan, _ => .nan
  | _, .nan => .nan
  | .inf _, .inf _ => .nan
  | .inf a, .fin b n => if n = 0 then .bits infByZero else .bits (fpInf f (a != b))
  | .fin a _, .inf b => .bits (fpPack f (a != b) 0)
  | .fin a m, .fin b n =>
    if n = 0 then (if m = 0 then .nan else .bits (fpInf f (a != b)))
    else .bits (fpPack f (a != b) (fpRoundQuot f (m * 2 ^ fpUnitExp f) n))

/-- `FP.sqrt_n` (R261, R263): of m units the root is sqrt(m * 2^K) units. -/
def fpSqrt (f : FpFormat) : FpDatum → FpOut
  | .nan => .nan
  | .inf neg => if neg then .nan else .bits (fpInf f false)
  | .fin neg m =>
    if m = 0 then .bits (fpPack f neg 0)
    else if neg then .nan
    else .bits (fpPack f false (fpRoundSqrt f (m * 2 ^ fpUnitExp f)))

/-- The fraction of a NaN drawn from the bits u: under `quiet` the quiet bit is 1 and the payload below it is u's; under
`any` it is u's whole fraction, a zero one (an infinity's) becoming the quiet bit (log 11). -/
def nanFraction (draw : NanDraw) (f : FpFormat) (u : Nat) : Nat :=
  match draw with
  | .quiet => 2 ^ (f.fracBits - 1) + u % 2 ^ (f.fracBits - 1)
  | .any => if u % 2 ^ f.fracBits = 0 then 2 ^ (f.fracBits - 1) else u % 2 ^ f.fracBits

/-- Some NaN pattern (R262): u gives the sign and the fraction, and every pattern of the draw arises from some u. -/
def nanOf (draw : NanDraw) (f : FpFormat) (w : Nat) (u : Nat) : BitVec w :=
  BitVec.ofNat w (fpInf f (u.testBit (f.expBits + f.fracBits)) + nanFraction draw f u)

/-- The datum in the low w bits of a register (R34, R260). -/
def State.fp (s : State) (f : FpFormat) (w : Nat) (r : RegId) : FpDatum := fpDatum f (s.lo w r).toNat

/-- Writes a floating-point result of width w and goes on (R264); a NaN result draws its bits (R262). No flag is written
and nothing faults (R263). -/
def State.fpWrite (s : State) (f : FpFormat) (w : Nat) (rd : RegId) (out : FpOut) : State :=
  match out with
  | .bits v => (s.writeSized rd (BitVec.ofNat w v)).advance
  | .nan => (s.drawn.writeSized rd (nanOf s.params.nanDraw f w (Config.freeNan s.draws).toNat)).advance

end Sys2Proof.Machine
end

