-- ==== Sys2Proof/Machine/Fpu.lean ====
section
/-! DEFINITION. The floating-point instructions of 48_fpu.md: operands in the general registers, `Rd` the left operand and
the destination (R264). -/

namespace Sys2Proof.Machine

/-- `FADD4 Rd, Rs` (R265). -/
def execFadd4 (rd rs : RegId) (s : State) : Result :=
  .next (s.fpWrite binary32 32 rd (fpAdd binary32 (s.fp binary32 32 rd) (s.fp binary32 32 rs)))

/-- `FSUB4 Rd, Rs` (R266). -/
def execFsub4 (rd rs : RegId) (s : State) : Result :=
  .next (s.fpWrite binary32 32 rd (fpSub binary32 (s.fp binary32 32 rd) (s.fp binary32 32 rs)))

/-- `FMUL4 Rd, Rs` (R267). -/
def execFmul4 (rd rs : RegId) (s : State) : Result :=
  .next (s.fpWrite binary32 32 rd (fpMul binary32 (s.fp binary32 32 rd) (s.fp binary32 32 rs)))

/-- `FDIV4 Rd, Rs` (R268): a zero divisor does not raise `DivideByZero`. -/
def execFdiv4 (rd rs : RegId) (s : State) : Result :=
  .next (s.fpWrite binary32 32 rd
    (fpDiv binary32 (Config.infDivZero4 (s.lo 32 rd) (s.lo 32 rs)).toNat (s.fp binary32 32 rd) (s.fp binary32 32 rs)))

/-- `FSQRT4 Rd` (R269). -/
def execFsqrt4 (rd : RegId) (s : State) : Result :=
  .next (s.fpWrite binary32 32 rd (fpSqrt binary32 (s.fp binary32 32 rd)))

/-- `FSIN4 Rd` (R270): whatever the configuration function gives (log 12). -/
def execFsin4 (rd : RegId) (s : State) : Result :=
  .next ((s.writeSized rd (Config.sin4 (s.lo 32 rd))).advance)

/-- `FCOS4 Rd` (R271): whatever the configuration function gives (log 12). -/
def execFcos4 (rd : RegId) (s : State) : Result :=
  .next ((s.writeSized rd (Config.cos4 (s.lo 32 rd))).advance)

/-- `FADD8 Rd, Rs` (R272). -/
def execFadd8 (rd rs : RegId) (s : State) : Result :=
  .next (s.fpWrite binary64 64 rd (fpAdd binary64 (s.fp binary64 64 rd) (s.fp binary64 64 rs)))

/-- `FSUB8 Rd, Rs` (R273). -/
def execFsub8 (rd rs : RegId) (s : State) : Result :=
  .next (s.fpWrite binary64 64 rd (fpSub binary64 (s.fp binary64 64 rd) (s.fp binary64 64 rs)))

/-- `FMUL8 Rd, Rs` (R274). -/
def execFmul8 (rd rs : RegId) (s : State) : Result :=
  .next (s.fpWrite binary64 64 rd (fpMul binary64 (s.fp binary64 64 rd) (s.fp binary64 64 rs)))

/-- `FDIV8 Rd, Rs` (R275): a zero divisor does not raise `DivideByZero`. -/
def execFdiv8 (rd rs : RegId) (s : State) : Result :=
  .next (s.fpWrite binary64 64 rd
    (fpDiv binary64 (Config.infDivZero8 (s.lo 64 rd) (s.lo 64 rs)).toNat (s.fp binary64 64 rd) (s.fp binary64 64 rs)))

/-- `FSQRT8 Rd` (R276). -/
def execFsqrt8 (rd : RegId) (s : State) : Result :=
  .next (s.fpWrite binary64 64 rd (fpSqrt binary64 (s.fp binary64 64 rd)))

/-- `FSIN8 Rd` (R277): whatever the configuration function gives (log 12). -/
def execFsin8 (rd : RegId) (s : State) : Result :=
  .next ((s.writeSized rd (Config.sin8 (s.lo 64 rd))).advance)

/-- `FCOS8 Rd` (R278): whatever the configuration function gives (log 12). -/
def execFcos8 (rd : RegId) (s : State) : Result :=
  .next ((s.writeSized rd (Config.cos8 (s.lo 64 rd))).advance)

end Sys2Proof.Machine
end

