-- ==== Sys2Proof/Machine/InputOutput.lean ====
section
/-! DEFINITION. The input/output instructions of 44_io.md. -/

namespace Sys2Proof.Machine

/-- `SVIO Rd, addr` (R178). -/
def execSvio (rd : RegId) (addr : Imm44) (s : State) : Result :=
  .next ((s.ioWrite (cell44 addr) (s.reg rd)).emit (.out (cell44 addr) (s.reg rd))).advance

/-- `LOADIO Rd, addr` (R179): it never blocks. -/
def execLoadio (rd : RegId) (addr : Imm44) (s : State) : Result :=
  .next (((s.ioReadState (cell44 addr)).setReg rd (s.ioReadValue (cell44 addr))).emit
    (.input (cell44 addr) (s.ioReadValue (cell44 addr)))).advance

/-- `SHOWIO addr` (R180): the event carries the cell's current content. -/
def execShowio (addr : Imm48) (s : State) : Result :=
  .next (s.emit (.show (cell48 addr) (s.ioCell (cell48 addr)))).advance

/-- `CLRIO` (R181). -/
def execClrio (s : State) : Result := .next (s.clearInputs.emit .clrIO).advance

/-- `RESETIO` (R182): `trace` is kept, nothing of the CPU is touched. -/
def execResetio (s : State) : Result := .next (s.clearIo.emit .resetIO).advance

end Sys2Proof.Machine
end

