-- ==== Sys2Proof/Machine/LoadStoreSized.lean ====
section
/-! DEFINITION. Sized loads and stores, 47_load_store_sized.md (R235): direct address `addr44`, or indirect by all 64 bits
of `Rs`. In a store `Rd` is the data (90_conflicts.md C4). -/

namespace Sys2Proof.Machine

/-- `LOAD1 Rd, addr` (R236). -/
def execLoad1 (rd : RegId) (addr : Imm44) (s : State) : Result := .next (s.loadInto 8 rd (addr44 addr))

/-- `LOAD2 Rd, addr` (R237). -/
def execLoad2 (rd : RegId) (addr : Imm44) (s : State) : Result := .next (s.loadInto 16 rd (addr44 addr))

/-- `LOAD4 Rd, addr` (R238). -/
def execLoad4 (rd : RegId) (addr : Imm44) (s : State) : Result := .next (s.loadInto 32 rd (addr44 addr))

/-- `LOAD8 Rd, addr` (R239). -/
def execLoad8 (rd : RegId) (addr : Imm44) (s : State) : Result := .next (s.loadInto 64 rd (addr44 addr))

/-- `LOADR1 Rd, Rs` (R240). -/
def execLoadr1 (rd rs : RegId) (s : State) : Result := .next (s.loadInto 8 rd (s.reg rs))

/-- `LOADR2 Rd, Rs` (R241). -/
def execLoadr2 (rd rs : RegId) (s : State) : Result := .next (s.loadInto 16 rd (s.reg rs))

/-- `LOADR4 Rd, Rs` (R242). -/
def execLoadr4 (rd rs : RegId) (s : State) : Result := .next (s.loadInto 32 rd (s.reg rs))

/-- `LOADR8 Rd, Rs` (R243). -/
def execLoadr8 (rd rs : RegId) (s : State) : Result := .next (s.loadInto 64 rd (s.reg rs))

/-- `STORE1 Rd, addr` (R244). -/
def execStore1 (rd : RegId) (addr : Imm44) (s : State) : Result := .next (s.storeTo (addr44 addr) (s.lo 8 rd))

/-- `STORE2 Rd, addr` (R245). -/
def execStore2 (rd : RegId) (addr : Imm44) (s : State) : Result := .next (s.storeTo (addr44 addr) (s.lo 16 rd))

/-- `STORE4 Rd, addr` (R246). -/
def execStore4 (rd : RegId) (addr : Imm44) (s : State) : Result := .next (s.storeTo (addr44 addr) (s.lo 32 rd))

/-- `STORE8 Rd, addr` (R247). -/
def execStore8 (rd : RegId) (addr : Imm44) (s : State) : Result := .next (s.storeTo (addr44 addr) (s.lo 64 rd))

/-- `STORER1 Rd, Rs` (R248). -/
def execStorer1 (rd rs : RegId) (s : State) : Result := .next (s.storeTo (s.reg rs) (s.lo 8 rd))

/-- `STORER2 Rd, Rs` (R249). -/
def execStorer2 (rd rs : RegId) (s : State) : Result := .next (s.storeTo (s.reg rs) (s.lo 16 rd))

/-- `STORER4 Rd, Rs` (R250). -/
def execStorer4 (rd rs : RegId) (s : State) : Result := .next (s.storeTo (s.reg rs) (s.lo 32 rd))

/-- `STORER8 Rd, Rs` (R251). -/
def execStorer8 (rd rs : RegId) (s : State) : Result := .next (s.storeTo (s.reg rs) (s.lo 64 rd))

end Sys2Proof.Machine
end

