-- ==== Sys2Proof/Machine/LogicBits.lean ====
section
/-! DEFINITION. The logic and bit instructions of 42_logic_bits.md: all 64 bits (R135). -/

namespace Sys2Proof.Machine

/-- `NOT Rd` (R136). -/
def execNot (rd : RegId) (s : State) : Result := .next (s.aluResult rd (s.reg rd ^^^ BitVec.allOnes 64))

/-- `AND Rd, Rs` (R137). -/
def execAnd (rd rs : RegId) (s : State) : Result := .next (s.alu (· &&& ·) rd (s.lo 64 rs))

/-- `ANDV Rd, v` (R138). -/
def execAndv (rd : RegId) (v : Imm44) (s : State) : Result := .next (s.alu (· &&& ·) rd (s.imm 64 v))

/-- `OR Rd, Rs` (R139). -/
def execOr (rd rs : RegId) (s : State) : Result := .next (s.alu (· ||| ·) rd (s.lo 64 rs))

/-- `ORV Rd, v` (R140). -/
def execOrv (rd : RegId) (v : Imm44) (s : State) : Result := .next (s.alu (· ||| ·) rd (s.imm 64 v))

/-- `XOR Rd, Rs` (R141). -/
def execXor (rd rs : RegId) (s : State) : Result := .next (s.alu (· ^^^ ·) rd (s.lo 64 rs))

/-- `XORV Rd, v` (R142). -/
def execXorv (rd : RegId) (v : Imm44) (s : State) : Result := .next (s.alu (· ^^^ ·) rd (s.imm 64 v))

/-- `SHL Rd` (R143): one position, `trunc_64(u(x[rd]) * 2)`; bit 63 is lost. -/
def execShl (rd : RegId) (s : State) : Result := .next (s.aluResult rd (s.reg rd <<< 1))

/-- `SHR Rd` (R144): one position, logical, `floor(u(x[rd]) / 2)`; bit 0 is lost. -/
def execShr (rd : RegId) (s : State) : Result := .next (s.aluResult rd (s.reg rd >>> 1))

end Sys2Proof.Machine
end

