-- ==== Sys2Proof/Machine/MemoryData.lean ====
section
/-! DEFINITION. The data instructions and the compares of 43_memory_data.md. -/

namespace Sys2Proof.Machine

/-! ## Data (R150 to R155): 8 bytes, no flag written -/

/-- `LOAD Rd, addr` (R151). -/
def execLoad (rd : RegId) (addr : Imm44) (s : State) : Result := .next (s.loadInto 64 rd (addr44 addr))

/-- `LOADV Rd, v` (R152). -/
def execLoadv (rd : RegId) (v : Imm44) (s : State) : Result := .next (s.setReg rd (s.imm 64 v)).advance

/-- `STORE Rd, Rs` (R153): `Rd` is the data, `Rs` the address. -/
def execStore (rd rs : RegId) (s : State) : Result := .next (s.storeTo (s.reg rs) (s.reg rd))

/-- `STOREV Rd, addr` (R154). -/
def execStorev (rd : RegId) (addr : Imm44) (s : State) : Result := .next (s.storeTo (addr44 addr) (s.reg rd))

/-- `CLEAR Rd` (R155): a data move, Z is not written. -/
def execClear (rd : RegId) (s : State) : Result := .next (s.setReg rd 0#64).advance

/-! ## Compares (R156 to R166) -/

/-- `CMP Rd, Rs` (R156). -/
def execCmp (rd rs : RegId) (s : State) : Result := .next (s.compare rd (s.lo 64 rs))

/-- `CMPV Rd, v` (R157). -/
def execCmpv (rd : RegId) (v : Imm44) (s : State) : Result := .next (s.compare rd (s.imm 64 v))

/-- `CMP1 Rd, Rs` (R158). -/
def execCmp1 (rd rs : RegId) (s : State) : Result := .next (s.compare rd (s.lo 8 rs))

/-- `CMP2 Rd, Rs` (R159). -/
def execCmp2 (rd rs : RegId) (s : State) : Result := .next (s.compare rd (s.lo 16 rs))

/-- `CMP4 Rd, Rs` (R160). -/
def execCmp4 (rd rs : RegId) (s : State) : Result := .next (s.compare rd (s.lo 32 rs))

/-- `CMP8 Rd, Rs` (R161): the function of `CMP` under its own opcode. -/
def execCmp8 (rd rs : RegId) (s : State) : Result := .next (s.compare rd (s.lo 64 rs))

/-- `CMPV1 Rd, v` (R162). -/
def execCmpv1 (rd : RegId) (v : Imm44) (s : State) : Result := .next (s.compare rd (s.imm 8 v))

/-- `CMPV2 Rd, v` (R163). -/
def execCmpv2 (rd : RegId) (v : Imm44) (s : State) : Result := .next (s.compare rd (s.imm 16 v))

/-- `CMPV4 Rd, v` (R164). -/
def execCmpv4 (rd : RegId) (v : Imm44) (s : State) : Result := .next (s.compare rd (s.imm 32 v))

/-- `CMPV8 Rd, v` (R165): the function of `CMPV` under its own opcode. -/
def execCmpv8 (rd : RegId) (v : Imm44) (s : State) : Result := .next (s.compare rd (s.imm 64 v))

end Sys2Proof.Machine
end

