-- ==== Sys2Proof/Machine/Mov.lean ====
section
/-! DEFINITION. Data transfer, 46_mov.md: the low 8n bits of `Rd` by `WriteSized`, no flag, no fault (R220). -/

namespace Sys2Proof.Machine

/-- `MOV1 Rd, Rs` (R221). -/
def execMov1 (rd rs : RegId) (s : State) : Result := .next ((s.writeSized rd (s.lo 8 rs)).advance)

/-- `MOV2 Rd, Rs` (R222). -/
def execMov2 (rd rs : RegId) (s : State) : Result := .next ((s.writeSized rd (s.lo 16 rs)).advance)

/-- `MOV4 Rd, Rs` (R223). -/
def execMov4 (rd rs : RegId) (s : State) : Result := .next ((s.writeSized rd (s.lo 32 rs)).advance)

/-- `MOV8 Rd, Rs` (R224). -/
def execMov8 (rd rs : RegId) (s : State) : Result := .next ((s.writeSized rd (s.lo 64 rs)).advance)

/-- `MOVV1 Rd, v` (R225). -/
def execMovv1 (rd : RegId) (v : Imm44) (s : State) : Result := .next ((s.writeSized rd (s.imm 8 v)).advance)

/-- `MOVV2 Rd, v` (R226). -/
def execMovv2 (rd : RegId) (v : Imm44) (s : State) : Result := .next ((s.writeSized rd (s.imm 16 v)).advance)

/-- `MOVV4 Rd, v` (R227). -/
def execMovv4 (rd : RegId) (v : Imm44) (s : State) : Result := .next ((s.writeSized rd (s.imm 32 v)).advance)

/-- `MOVV8 Rd, v` (R228). -/
def execMovv8 (rd : RegId) (v : Imm44) (s : State) : Result := .next ((s.writeSized rd (s.imm 64 v)).advance)

end Sys2Proof.Machine
end

