-- ==== Sys2Proof/Machine/Stack.lean ====
section
/-! DEFINITION. The stack instructions of 49_stack.md: the stack is the region of `Memoria` below `SP` and grows upward
(R286). -/

namespace Sys2Proof.Machine

/-- `RET` (R285): the return address is not checked here. -/
def execRet (s : State) : Result := .next s.popPc

/-- `POP1 Rd` (R287). -/
def execPop1 (rd : RegId) (s : State) : Result := .next (s.popInto 8 rd)

/-- `POP2 Rd` (R288). -/
def execPop2 (rd : RegId) (s : State) : Result := .next (s.popInto 16 rd)

/-- `POP4 Rd` (R289). -/
def execPop4 (rd : RegId) (s : State) : Result := .next (s.popInto 32 rd)

/-- `POP8 Rd` (R290). -/
def execPop8 (rd : RegId) (s : State) : Result := .next (s.popInto 64 rd)

/-- `PUSH1 Rd` (R291). -/
def execPush1 (rd : RegId) (s : State) : Result := .next (s.push (s.lo 8 rd))

/-- `PUSH2 Rd` (R292). -/
def execPush2 (rd : RegId) (s : State) : Result := .next (s.push (s.lo 16 rd))

/-- `PUSH4 Rd` (R293). -/
def execPush4 (rd : RegId) (s : State) : Result := .next (s.push (s.lo 32 rd))

/-- `PUSH8 Rd` (R294). -/
def execPush8 (rd : RegId) (s : State) : Result := .next (s.push (s.lo 64 rd))

end Sys2Proof.Machine
end

