-- ==== Sys2Proof/Machine/Dispatch.lean ====
section
/-! DEFINITION. What each instruction does: one arm per constructor, one meaning per arm (step 5 of R26). -/

namespace Sys2Proof.Machine

def exec (i : Instr) (s : State) : Host.Outcome State Fault Refusal :=
  match i with
  -- Control de Flujo
  | .parar => Sys2Proof.Machine.execParar s
  | .nop => Sys2Proof.Machine.execNop s
  -- Aritmética
  | .add rd rs => Sys2Proof.Machine.execAdd rd rs s
  | .sub rd rs => Sys2Proof.Machine.execSub rd rs s
  | .muls rd rs => Sys2Proof.Machine.execMuls rd rs s
  | .mul rd rs => Sys2Proof.Machine.execMul rd rs s
  | .div rd rs => Sys2Proof.Machine.execDiv rd rs s
  | .addv rd v => Sys2Proof.Machine.execAddv rd v s
  | .subv rd v => Sys2Proof.Machine.execSubv rd v s
  | .inc rd => Sys2Proof.Machine.execInc rd s
  | .dec rd => Sys2Proof.Machine.execDec rd s
  -- Lógicas y Bits
  | .not rd => Sys2Proof.Machine.execNot rd s
  | .and rd rs => Sys2Proof.Machine.execAnd rd rs s
  | .andv rd v => Sys2Proof.Machine.execAndv rd v s
  | .or rd rs => Sys2Proof.Machine.execOr rd rs s
  | .orv rd v => Sys2Proof.Machine.execOrv rd v s
  | .xor rd rs => Sys2Proof.Machine.execXor rd rs s
  | .xorv rd v => Sys2Proof.Machine.execXorv rd v s
  | .shl rd => Sys2Proof.Machine.execShl rd s
  | .shr rd => Sys2Proof.Machine.execShr rd s
  -- Memoria y Datos
  | .load rd addr => Sys2Proof.Machine.execLoad rd addr s
  | .loadv rd v => Sys2Proof.Machine.execLoadv rd v s
  | .store rd rs => Sys2Proof.Machine.execStore rd rs s
  | .storev rd addr => Sys2Proof.Machine.execStorev rd addr s
  | .clear rd => Sys2Proof.Machine.execClear rd s
  | .cmp rd rs => Sys2Proof.Machine.execCmp rd rs s
  | .cmpv rd v => Sys2Proof.Machine.execCmpv rd v s
  -- Control de Flujo
  | .jmp k => Sys2Proof.Machine.execJmp k s
  | .jeq k => Sys2Proof.Machine.execJeq k s
  | .jne k => Sys2Proof.Machine.execJne k s
  | .jmi k => Sys2Proof.Machine.execJmi k s
  | .jpl k => Sys2Proof.Machine.execJpl k s
  -- Entrada/Salida
  | .svio rd addr => Sys2Proof.Machine.execSvio rd addr s
  | .loadio rd addr => Sys2Proof.Machine.execLoadio rd addr s
  | .showio addr => Sys2Proof.Machine.execShowio addr s
  | .clrio => Sys2Proof.Machine.execClrio s
  | .resetio => Sys2Proof.Machine.execResetio s
  -- Operaciones de 1 Byte
  | .add1 rd rs => Sys2Proof.Machine.execAdd1 rd rs s
  | .sub1 rd rs => Sys2Proof.Machine.execSub1 rd rs s
  | .mul1 rd rs => Sys2Proof.Machine.execMul1 rd rs s
  | .muls1 rd rs => Sys2Proof.Machine.execMuls1 rd rs s
  | .div1 rd rs => Sys2Proof.Machine.execDiv1 rd rs s
  | .addv1 rd v => Sys2Proof.Machine.execAddv1 rd v s
  | .subv1 rd v => Sys2Proof.Machine.execSubv1 rd v s
  -- Operaciones de 2 Bytes
  | .add2 rd rs => Sys2Proof.Machine.execAdd2 rd rs s
  | .sub2 rd rs => Sys2Proof.Machine.execSub2 rd rs s
  | .mul2 rd rs => Sys2Proof.Machine.execMul2 rd rs s
  | .muls2 rd rs => Sys2Proof.Machine.execMuls2 rd rs s
  | .div2 rd rs => Sys2Proof.Machine.execDiv2 rd rs s
  | .addv2 rd v => Sys2Proof.Machine.execAddv2 rd v s
  | .subv2 rd v => Sys2Proof.Machine.execSubv2 rd v s
  -- Operaciones de 4 Bytes
  | .add4 rd rs => Sys2Proof.Machine.execAdd4 rd rs s
  | .sub4 rd rs => Sys2Proof.Machine.execSub4 rd rs s
  | .mul4 rd rs => Sys2Proof.Machine.execMul4 rd rs s
  | .muls4 rd rs => Sys2Proof.Machine.execMuls4 rd rs s
  | .div4 rd rs => Sys2Proof.Machine.execDiv4 rd rs s
  | .addv4 rd v => Sys2Proof.Machine.execAddv4 rd v s
  | .subv4 rd v => Sys2Proof.Machine.execSubv4 rd v s
  -- Transferencia de Datos (MOV)
  | .mov1 rd rs => Sys2Proof.Machine.execMov1 rd rs s
  | .mov2 rd rs => Sys2Proof.Machine.execMov2 rd rs s
  | .mov4 rd rs => Sys2Proof.Machine.execMov4 rd rs s
  | .mov8 rd rs => Sys2Proof.Machine.execMov8 rd rs s
  | .movv1 rd v => Sys2Proof.Machine.execMovv1 rd v s
  | .movv2 rd v => Sys2Proof.Machine.execMovv2 rd v s
  | .movv4 rd v => Sys2Proof.Machine.execMovv4 rd v s
  | .movv8 rd v => Sys2Proof.Machine.execMovv8 rd v s
  -- Carga de Memoria (LOAD)
  | .load1 rd addr => Sys2Proof.Machine.execLoad1 rd addr s
  | .load2 rd addr => Sys2Proof.Machine.execLoad2 rd addr s
  | .load4 rd addr => Sys2Proof.Machine.execLoad4 rd addr s
  | .load8 rd addr => Sys2Proof.Machine.execLoad8 rd addr s
  | .loadr1 rd rs => Sys2Proof.Machine.execLoadr1 rd rs s
  | .loadr2 rd rs => Sys2Proof.Machine.execLoadr2 rd rs s
  | .loadr4 rd rs => Sys2Proof.Machine.execLoadr4 rd rs s
  | .loadr8 rd rs => Sys2Proof.Machine.execLoadr8 rd rs s
  -- Almacenamiento en Memoria (STORE)
  | .store1 rd addr => Sys2Proof.Machine.execStore1 rd addr s
  | .store2 rd addr => Sys2Proof.Machine.execStore2 rd addr s
  | .store4 rd addr => Sys2Proof.Machine.execStore4 rd addr s
  | .store8 rd addr => Sys2Proof.Machine.execStore8 rd addr s
  | .storer1 rd rs => Sys2Proof.Machine.execStorer1 rd rs s
  | .storer2 rd rs => Sys2Proof.Machine.execStorer2 rd rs s
  | .storer4 rd rs => Sys2Proof.Machine.execStorer4 rd rs s
  | .storer8 rd rs => Sys2Proof.Machine.execStorer8 rd rs s
  -- Operaciones de 4 Bytes (Float)
  | .fadd4 rd rs => Sys2Proof.Machine.execFadd4 rd rs s
  | .fsub4 rd rs => Sys2Proof.Machine.execFsub4 rd rs s
  | .fmul4 rd rs => Sys2Proof.Machine.execFmul4 rd rs s
  | .fdiv4 rd rs => Sys2Proof.Machine.execFdiv4 rd rs s
  -- Operaciones de 8 Bytes (Double)
  | .fadd8 rd rs => Sys2Proof.Machine.execFadd8 rd rs s
  | .fsub8 rd rs => Sys2Proof.Machine.execFsub8 rd rs s
  | .fmul8 rd rs => Sys2Proof.Machine.execFmul8 rd rs s
  | .fdiv8 rd rs => Sys2Proof.Machine.execFdiv8 rd rs s
  -- Operaciones de 4 Bytes (Float)
  | .fsqrt4 rd => Sys2Proof.Machine.execFsqrt4 rd s
  -- Operaciones de 8 Bytes (Double)
  | .fsqrt8 rd => Sys2Proof.Machine.execFsqrt8 rd s
  -- Operaciones de 4 Bytes (Float)
  | .fsin4 rd => Sys2Proof.Machine.execFsin4 rd s
  | .fcos4 rd => Sys2Proof.Machine.execFcos4 rd s
  -- Operaciones de 8 Bytes (Double)
  | .fsin8 rd => Sys2Proof.Machine.execFsin8 rd s
  | .fcos8 rd => Sys2Proof.Machine.execFcos8 rd s
  -- Control de Subrutinas
  | .ret => Sys2Proof.Machine.execRet s
  -- Operaciones de Pila por Tamaño
  | .pop1 rd => Sys2Proof.Machine.execPop1 rd s
  | .pop2 rd => Sys2Proof.Machine.execPop2 rd s
  | .pop4 rd => Sys2Proof.Machine.execPop4 rd s
  | .pop8 rd => Sys2Proof.Machine.execPop8 rd s
  | .push1 rd => Sys2Proof.Machine.execPush1 rd s
  | .push2 rd => Sys2Proof.Machine.execPush2 rd s
  | .push4 rd => Sys2Proof.Machine.execPush4 rd s
  | .push8 rd => Sys2Proof.Machine.execPush8 rd s
  -- Memoria y Datos
  | .cmp1 rd rs => Sys2Proof.Machine.execCmp1 rd rs s
  | .cmp2 rd rs => Sys2Proof.Machine.execCmp2 rd rs s
  | .cmp4 rd rs => Sys2Proof.Machine.execCmp4 rd rs s
  | .cmp8 rd rs => Sys2Proof.Machine.execCmp8 rd rs s
  | .cmpv1 rd v => Sys2Proof.Machine.execCmpv1 rd v s
  | .cmpv2 rd v => Sys2Proof.Machine.execCmpv2 rd v s
  | .cmpv4 rd v => Sys2Proof.Machine.execCmpv4 rd v s
  | .cmpv8 rd v => Sys2Proof.Machine.execCmpv8 rd v s
  -- Operaciones de 8 Bytes
  | .add8 rd rs => Sys2Proof.Machine.execAdd8 rd rs s
  | .sub8 rd rs => Sys2Proof.Machine.execSub8 rd rs s
  | .mul8 rd rs => Sys2Proof.Machine.execMul8 rd rs s
  | .muls8 rd rs => Sys2Proof.Machine.execMuls8 rd rs s
  | .div8 rd rs => Sys2Proof.Machine.execDiv8 rd rs s
  | .addv8 rd v => Sys2Proof.Machine.execAddv8 rd v s
  | .subv8 rd v => Sys2Proof.Machine.execSubv8 rd v s

end Sys2Proof.Machine
end

