-- ==== Sys2Proof/Machine/Fetch.lean ====
section
/-! DEFINITION. Fetching and decoding (steps 1 to 3 of R26), and what a stopped machine does. -/

namespace Sys2Proof.Machine

/-- The 64-bit word of the 8 bytes at `pc` (step 2 of R26, R56). -/
def State.fetchWord (s : State) : Word := s.valueAt 64 s.pc

/-- The instruction a word spells under the machine's `ALU8_OPCODES` and `STRICT_ZERO_FIELDS` (step 3 of R26, R92). -/
def State.decodeWord (s : State) (w : Word) : Except DecodeError Instr :=
  decode s.params.alu8Opcodes s.params.strictZeroFields w

/-- Steps 1 to 3 of R26 in the priority of R304: a misaligned `pc`, then a fetch outside `Memoria`, then an illegal word. -/
def fetchInstr (s : State) : Except Fault Instr :=
  if s.pc.toNat % 8 ≠ 0 then .error (.fetchFault s.pc .misaligned)
  else if !s.inside s.pc 8 then .error (.fetchFault s.pc .outOfRange)
  else
    match s.decodeWord s.fetchWord with
    | .ok i => .ok i
    | .error _ => .error (.illegalInstruction s.pc s.fetchWord)

/-- A machine that is not running takes no step and its state never changes again (R26, R33). Halted, it keeps its state
(log 17); faulted, it has no successor and answers the fault it stopped in (R300, log 16). -/
def stoppedStep (s : State) : Result :=
  match s.run with
  | .faulted f => .fault f
  | _ => .next s

/-- `s` with the 8 bytes of an instruction word stored where the next fetch reads, in the order of `ENDIAN` (R56, R336). -/
def State.placeWord (s : State) (w : Word) : State := s.storeAt s.pc w

end Sys2Proof.Machine
end

