-- ==== Sys2Proof/Machine/Step.lean ====
section
/-! DEFINITION. One step of the instruction cycle (R26). -/

namespace Sys2Proof.Machine

/-- R26: while running, fetch, decode and execute one instruction; a fault of the fetch or the decoding is raised like any
other (R303). Steps 4 and 6 (`pc <- pc + 8` unless assigned) are part of each meaning. -/
def step (s : State) : Host.Outcome State Fault Refusal :=
  if s.run = .running then
    match fetchInstr s with
    | .ok i => exec i s
    | .error f => .next (s.raise f)
  else stoppedStep s

/-- The host's load of one instruction, whose bits are w, where the next fetch reads (log 20). -/
def State.withFetchWord (s : State) (nbits w : Nat) : State :=
  s.placeWord (BitVec.ofNat 64 (w % 2 ^ nbits))

end Sys2Proof.Machine
end

