-- ==== Sys2Proof/Safety.lean ====
section
/-! DEFINITION. What statements about the machine are made of: the classes of instructions the rules name, frames, the shapes
in which instructions complete or trap, the invariants, and what a run may end in. -/

namespace Sys2Proof

/-! ## Classes of instructions -/

/-- The register an instruction writes (R21): `Rd` when its description has `Rd` left of `=`, else none. -/
def Instr.destination : Instr → Option RegId
  | .add rd _ | .sub rd _ | .muls rd _ | .mul rd _ | .div rd _ | .addv rd _ | .subv rd _ | .inc rd | .dec rd
  | .not rd | .and rd _ | .andv rd _ | .or rd _ | .orv rd _ | .xor rd _ | .xorv rd _ | .shl rd | .shr rd
  | .load rd _ | .loadv rd _ | .clear rd | .loadio rd _ | .add1 rd _ | .sub1 rd _ | .mul1 rd _ | .muls1 rd _
  | .div1 rd _ | .addv1 rd _ | .subv1 rd _ | .add2 rd _ | .sub2 rd _ | .mul2 rd _ | .muls2 rd _ | .div2 rd _
  | .addv2 rd _ | .subv2 rd _ | .add4 rd _ | .sub4 rd _ | .mul4 rd _ | .muls4 rd _ | .div4 rd _ | .addv4 rd _
  | .subv4 rd _ | .mov1 rd _ | .mov2 rd _ | .mov4 rd _ | .mov8 rd _ | .movv1 rd _ | .movv2 rd _ | .movv4 rd _
  | .movv8 rd _ | .load1 rd _ | .load2 rd _ | .load4 rd _ | .load8 rd _ | .loadr1 rd _ | .loadr2 rd _
  | .loadr4 rd _ | .loadr8 rd _ | .fadd4 rd _ | .fsub4 rd _ | .fmul4 rd _ | .fdiv4 rd _ | .fadd8 rd _ | .fsub8 rd _
  | .fmul8 rd _ | .fdiv8 rd _ | .fsqrt4 rd | .fsqrt8 rd | .fsin4 rd | .fcos4 rd | .fsin8 rd | .fcos8 rd | .pop1 rd
  | .pop2 rd | .pop4 rd | .pop8 rd | .add8 rd _ | .sub8 rd _ | .mul8 rd _ | .muls8 rd _ | .div8 rd _ | .addv8 rd _
  | .subv8 rd _ => some rd
  | .parar | .nop | .ret | .svio .. | .showio .. | .clrio | .resetio | .jmp .. | .jeq .. | .jne .. | .jmi ..
  | .jpl .. | .store .. | .storev .. | .store1 .. | .store2 .. | .store4 .. | .store8 .. | .storer1 ..
  | .storer2 .. | .storer4 .. | .storer8 .. | .push1 .. | .push2 .. | .push4 .. | .push8 .. | .cmp .. | .cmpv ..
  | .cmp1 .. | .cmp2 .. | .cmp4 .. | .cmp8 .. | .cmpv1 .. | .cmpv2 .. | .cmpv4 .. | .cmpv8 .. => none

/-- The instructions that write Z and N: the compares (R29) and those of R30. All others leave them (R31). -/
def Instr.writesFlags : Instr → Bool
  | .add .. | .sub .. | .muls .. | .mul .. | .div .. | .addv .. | .subv .. | .inc .. | .dec .. | .not .. | .and ..
  | .andv .. | .or .. | .orv .. | .xor .. | .xorv .. | .shl .. | .shr .. | .cmp .. | .cmpv .. | .add1 .. | .sub1 ..
  | .mul1 .. | .muls1 .. | .div1 .. | .addv1 .. | .subv1 .. | .add2 .. | .sub2 .. | .mul2 .. | .muls2 .. | .div2 ..
  | .addv2 .. | .subv2 .. | .add4 .. | .sub4 .. | .mul4 .. | .muls4 .. | .div4 .. | .addv4 .. | .subv4 ..
  | .cmp1 .. | .cmp2 .. | .cmp4 .. | .cmp8 .. | .cmpv1 .. | .cmpv2 .. | .cmpv4 .. | .cmpv8 .. | .add8 .. | .sub8 ..
  | .mul8 .. | .muls8 .. | .div8 .. | .addv8 .. | .subv8 .. => true
  | .parar | .nop | .load .. | .loadv .. | .store .. | .storev .. | .clear .. | .jmp .. | .jeq .. | .jne ..
  | .jmi .. | .jpl .. | .svio .. | .loadio .. | .showio .. | .clrio | .resetio | .mov1 .. | .mov2 .. | .mov4 ..
  | .mov8 .. | .movv1 .. | .movv2 .. | .movv4 .. | .movv8 .. | .load1 .. | .load2 .. | .load4 .. | .load8 ..
  | .loadr1 .. | .loadr2 .. | .loadr4 .. | .loadr8 .. | .store1 .. | .store2 .. | .store4 .. | .store8 ..
  | .storer1 .. | .storer2 .. | .storer4 .. | .storer8 .. | .fadd4 .. | .fsub4 .. | .fmul4 .. | .fdiv4 ..
  | .fadd8 .. | .fsub8 .. | .fmul8 .. | .fdiv8 .. | .fsqrt4 .. | .fsqrt8 .. | .fsin4 .. | .fcos4 .. | .fsin8 ..
  | .fcos8 .. | .ret | .pop1 .. | .pop2 .. | .pop4 .. | .pop8 .. | .push1 .. | .push2 .. | .push4 .. | .push8 .. => false

/-- The five input/output instructions, the only ones that reach `IO` and `trace` (R36, R37). -/
def Instr.isIo : Instr → Bool
  | .svio .. | .loadio .. | .showio .. | .clrio | .resetio => true
  | .parar | .nop | .add .. | .sub .. | .muls .. | .mul .. | .div .. | .addv .. | .subv .. | .inc .. | .dec ..
  | .not .. | .and .. | .andv .. | .or .. | .orv .. | .xor .. | .xorv .. | .shl .. | .shr .. | .load .. | .loadv ..
  | .store .. | .storev .. | .clear .. | .cmp .. | .cmpv .. | .jmp .. | .jeq .. | .jne .. | .jmi .. | .jpl ..
  | .add1 .. | .sub1 .. | .mul1 .. | .muls1 .. | .div1 .. | .addv1 .. | .subv1 .. | .add2 .. | .sub2 .. | .mul2 ..
  | .muls2 .. | .div2 .. | .addv2 .. | .subv2 .. | .add4 .. | .sub4 .. | .mul4 .. | .muls4 .. | .div4 ..
  | .addv4 .. | .subv4 .. | .mov1 .. | .mov2 .. | .mov4 .. | .mov8 .. | .movv1 .. | .movv2 .. | .movv4 ..
  | .movv8 .. | .load1 .. | .load2 .. | .load4 .. | .load8 .. | .loadr1 .. | .loadr2 .. | .loadr4 .. | .loadr8 ..
  | .store1 .. | .store2 .. | .store4 .. | .store8 .. | .storer1 .. | .storer2 .. | .storer4 .. | .storer8 ..
  | .fadd4 .. | .fsub4 .. | .fmul4 .. | .fdiv4 .. | .fadd8 .. | .fsub8 .. | .fmul8 .. | .fdiv8 .. | .fsqrt4 ..
  | .fsqrt8 .. | .fsin4 .. | .fcos4 .. | .fsin8 .. | .fcos8 .. | .ret | .pop1 .. | .pop2 .. | .pop4 .. | .pop8 ..
  | .push1 .. | .push2 .. | .push4 .. | .push8 .. | .cmp1 .. | .cmp2 .. | .cmp4 .. | .cmp8 .. | .cmpv1 ..
  | .cmpv2 .. | .cmpv4 .. | .cmpv8 .. | .add8 .. | .sub8 .. | .mul8 .. | .muls8 .. | .div8 .. | .addv8 ..
  | .subv8 .. => false

/-- The instructions that may assign `pc` (R24): the five jumps and `RET`. -/
def Instr.assignsPc : Instr → Bool
  | .jmp .. | .jeq .. | .jne .. | .jmi .. | .jpl .. | .ret => true
  | .parar | .nop | .add .. | .sub .. | .muls .. | .mul .. | .div .. | .addv .. | .subv .. | .inc .. | .dec ..
  | .not .. | .and .. | .andv .. | .or .. | .orv .. | .xor .. | .xorv .. | .shl .. | .shr .. | .load .. | .loadv ..
  | .store .. | .storev .. | .clear .. | .cmp .. | .cmpv .. | .svio .. | .loadio .. | .showio .. | .clrio
  | .resetio | .add1 .. | .sub1 .. | .mul1 .. | .muls1 .. | .div1 .. | .addv1 .. | .subv1 .. | .add2 .. | .sub2 ..
  | .mul2 .. | .muls2 .. | .div2 .. | .addv2 .. | .subv2 .. | .add4 .. | .sub4 .. | .mul4 .. | .muls4 .. | .div4 ..
  | .addv4 .. | .subv4 .. | .mov1 .. | .mov2 .. | .mov4 .. | .mov8 .. | .movv1 .. | .movv2 .. | .movv4 ..
  | .movv8 .. | .load1 .. | .load2 .. | .load4 .. | .load8 .. | .loadr1 .. | .loadr2 .. | .loadr4 .. | .loadr8 ..
  | .store1 .. | .store2 .. | .store4 .. | .store8 .. | .storer1 .. | .storer2 .. | .storer4 .. | .storer8 ..
  | .fadd4 .. | .fsub4 .. | .fmul4 .. | .fdiv4 .. | .fadd8 .. | .fsub8 .. | .fmul8 .. | .fdiv8 .. | .fsqrt4 ..
  | .fsqrt8 .. | .fsin4 .. | .fcos4 .. | .fsin8 .. | .fcos8 .. | .pop1 .. | .pop2 .. | .pop4 .. | .pop8 ..
  | .push1 .. | .push2 .. | .push4 .. | .push8 .. | .cmp1 .. | .cmp2 .. | .cmp4 .. | .cmp8 .. | .cmpv1 ..
  | .cmpv2 .. | .cmpv4 .. | .cmpv8 .. | .add8 .. | .sub8 .. | .mul8 .. | .muls8 .. | .div8 .. | .addv8 ..
  | .subv8 .. => false

/-- What an instruction that completes adds to `SP` (R27): n for `PUSHn`, -n for `POPn`, -8 for `RET`, else nothing. -/
def Instr.spStep : Instr → Word
  | .push1 .. => 1#64
  | .push2 .. => 2#64
  | .push4 .. => 4#64
  | .push8 .. => 8#64
  | .pop1 .. => -1#64
  | .pop2 .. => -2#64
  | .pop4 .. => -4#64
  | .pop8 .. => -8#64
  | .ret => -8#64
  | .parar | .nop | .add .. | .sub .. | .muls .. | .mul .. | .div .. | .addv .. | .subv .. | .inc .. | .dec ..
  | .not .. | .and .. | .andv .. | .or .. | .orv .. | .xor .. | .xorv .. | .shl .. | .shr .. | .load .. | .loadv ..
  | .store .. | .storev .. | .clear .. | .cmp .. | .cmpv .. | .jmp .. | .jeq .. | .jne .. | .jmi .. | .jpl ..
  | .svio .. | .loadio .. | .showio .. | .clrio | .resetio | .add1 .. | .sub1 .. | .mul1 .. | .muls1 .. | .div1 ..
  | .addv1 .. | .subv1 .. | .add2 .. | .sub2 .. | .mul2 .. | .muls2 .. | .div2 .. | .addv2 .. | .subv2 ..
  | .add4 .. | .sub4 .. | .mul4 .. | .muls4 .. | .div4 .. | .addv4 .. | .subv4 .. | .mov1 .. | .mov2 .. | .mov4 ..
  | .mov8 .. | .movv1 .. | .movv2 .. | .movv4 .. | .movv8 .. | .load1 .. | .load2 .. | .load4 .. | .load8 ..
  | .loadr1 .. | .loadr2 .. | .loadr4 .. | .loadr8 .. | .store1 .. | .store2 .. | .store4 .. | .store8 ..
  | .storer1 .. | .storer2 .. | .storer4 .. | .storer8 .. | .fadd4 .. | .fsub4 .. | .fmul4 .. | .fdiv4 ..
  | .fadd8 .. | .fsub8 .. | .fmul8 .. | .fdiv8 .. | .fsqrt4 .. | .fsqrt8 .. | .fsin4 .. | .fcos4 .. | .fsin8 ..
  | .fcos8 .. | .cmp1 .. | .cmp2 .. | .cmp4 .. | .cmp8 .. | .cmpv1 .. | .cmpv2 .. | .cmpv4 .. | .cmpv8 ..
  | .add8 .. | .sub8 .. | .mul8 .. | .muls8 .. | .div8 .. | .addv8 .. | .subv8 .. => 0#64

end Sys2Proof

namespace Sys2Proof.Machine

/-- The address and size of the one read of `Memoria` an instruction makes (R51, R58), if it makes one. -/
def readAccess (s : State) : Instr → Option (Word × Nat)
  | .load _ addr => some (addr44 addr, 8)
  | .load1 _ addr => some (addr44 addr, 1)
  | .load2 _ addr => some (addr44 addr, 2)
  | .load4 _ addr => some (addr44 addr, 4)
  | .load8 _ addr => some (addr44 addr, 8)
  | .loadr1 _ rs => some (s.reg rs, 1)
  | .loadr2 _ rs => some (s.reg rs, 2)
  | .loadr4 _ rs => some (s.reg rs, 4)
  | .loadr8 _ rs => some (s.reg rs, 8)
  | .pop1 _ => some (s.popAddr 8, 1)
  | .pop2 _ => some (s.popAddr 16, 2)
  | .pop4 _ => some (s.popAddr 32, 4)
  | .pop8 _ => some (s.popAddr 64, 8)
  | .ret => some (s.popAddr 64, 8)
  | .parar | .nop | .add .. | .sub .. | .muls .. | .mul .. | .div .. | .addv .. | .subv .. | .inc .. | .dec ..
  | .not .. | .and .. | .andv .. | .or .. | .orv .. | .xor .. | .xorv .. | .shl .. | .shr .. | .loadv ..
  | .store .. | .storev .. | .clear .. | .cmp .. | .cmpv .. | .jmp .. | .jeq .. | .jne .. | .jmi .. | .jpl ..
  | .svio .. | .loadio .. | .showio .. | .clrio | .resetio | .add1 .. | .sub1 .. | .mul1 .. | .muls1 .. | .div1 ..
  | .addv1 .. | .subv1 .. | .add2 .. | .sub2 .. | .mul2 .. | .muls2 .. | .div2 .. | .addv2 .. | .subv2 ..
  | .add4 .. | .sub4 .. | .mul4 .. | .muls4 .. | .div4 .. | .addv4 .. | .subv4 .. | .mov1 .. | .mov2 .. | .mov4 ..
  | .mov8 .. | .movv1 .. | .movv2 .. | .movv4 .. | .movv8 .. | .store1 .. | .store2 .. | .store4 .. | .store8 ..
  | .storer1 .. | .storer2 .. | .storer4 .. | .storer8 .. | .fadd4 .. | .fsub4 .. | .fmul4 .. | .fdiv4 ..
  | .fadd8 .. | .fsub8 .. | .fmul8 .. | .fdiv8 .. | .fsqrt4 .. | .fsqrt8 .. | .fsin4 .. | .fcos4 .. | .fsin8 ..
  | .fcos8 .. | .push1 .. | .push2 .. | .push4 .. | .push8 .. | .cmp1 .. | .cmp2 .. | .cmp4 .. | .cmp8 ..
  | .cmpv1 .. | .cmpv2 .. | .cmpv4 .. | .cmpv8 .. | .add8 .. | .sub8 .. | .mul8 .. | .muls8 .. | .div8 ..
  | .addv8 .. | .subv8 .. => none

/-- The address and size of the one write to `Memoria` an instruction makes (R51, R58), if it makes one. -/
def writeAccess (s : State) : Instr → Option (Word × Nat)
  | .store _ rs => some (s.reg rs, 8)
  | .storev _ addr => some (addr44 addr, 8)
  | .store1 _ addr => some (addr44 addr, 1)
  | .store2 _ addr => some (addr44 addr, 2)
  | .store4 _ addr => some (addr44 addr, 4)
  | .store8 _ addr => some (addr44 addr, 8)
  | .storer1 _ rs => some (s.reg rs, 1)
  | .storer2 _ rs => some (s.reg rs, 2)
  | .storer4 _ rs => some (s.reg rs, 4)
  | .storer8 _ rs => some (s.reg rs, 8)
  | .push1 _ => some (s.sp, 1)
  | .push2 _ => some (s.sp, 2)
  | .push4 _ => some (s.sp, 4)
  | .push8 _ => some (s.sp, 8)
  | .parar | .nop | .add .. | .sub .. | .muls .. | .mul .. | .div .. | .addv .. | .subv .. | .inc .. | .dec ..
  | .not .. | .and .. | .andv .. | .or .. | .orv .. | .xor .. | .xorv .. | .shl .. | .shr .. | .load .. | .loadv ..
  | .clear .. | .cmp .. | .cmpv .. | .jmp .. | .jeq .. | .jne .. | .jmi .. | .jpl .. | .svio .. | .loadio ..
  | .showio .. | .clrio | .resetio | .add1 .. | .sub1 .. | .mul1 .. | .muls1 .. | .div1 .. | .addv1 .. | .subv1 ..
  | .add2 .. | .sub2 .. | .mul2 .. | .muls2 .. | .div2 .. | .addv2 .. | .subv2 .. | .add4 .. | .sub4 .. | .mul4 ..
  | .muls4 .. | .div4 .. | .addv4 .. | .subv4 .. | .mov1 .. | .mov2 .. | .mov4 .. | .mov8 .. | .movv1 ..
  | .movv2 .. | .movv4 .. | .movv8 .. | .load1 .. | .load2 .. | .load4 .. | .load8 .. | .loadr1 .. | .loadr2 ..
  | .loadr4 .. | .loadr8 .. | .fadd4 .. | .fsub4 .. | .fmul4 .. | .fdiv4 .. | .fadd8 .. | .fsub8 .. | .fmul8 ..
  | .fdiv8 .. | .fsqrt4 .. | .fsqrt8 .. | .fsin4 .. | .fcos4 .. | .fsin8 .. | .fcos8 .. | .ret | .pop1 ..
  | .pop2 .. | .pop4 .. | .pop8 .. | .cmp1 .. | .cmp2 .. | .cmp4 .. | .cmp8 .. | .cmpv1 .. | .cmpv2 .. | .cmpv4 ..
  | .cmpv8 .. | .add8 .. | .sub8 .. | .mul8 .. | .muls8 .. | .div8 .. | .addv8 .. | .subv8 .. => none

/-- An integer division whose divisor is 0 at the operation's width (R132 (a)). -/
def zeroDivisor (s : State) : Instr → Bool
  | .div _ rs => decide (s.lo 64 rs = 0#64)
  | .div1 _ rs => decide (s.lo 8 rs = 0#8)
  | .div2 _ rs => decide (s.lo 16 rs = 0#16)
  | .div4 _ rs => decide (s.lo 32 rs = 0#32)
  | .div8 _ rs => decide (s.lo 64 rs = 0#64)
  | .parar | .nop | .add .. | .sub .. | .muls .. | .mul .. | .addv .. | .subv .. | .inc .. | .dec .. | .not ..
  | .and .. | .andv .. | .or .. | .orv .. | .xor .. | .xorv .. | .shl .. | .shr .. | .load .. | .loadv ..
  | .store .. | .storev .. | .clear .. | .cmp .. | .cmpv .. | .jmp .. | .jeq .. | .jne .. | .jmi .. | .jpl ..
  | .svio .. | .loadio .. | .showio .. | .clrio | .resetio | .add1 .. | .sub1 .. | .mul1 .. | .muls1 .. | .addv1 ..
  | .subv1 .. | .add2 .. | .sub2 .. | .mul2 .. | .muls2 .. | .addv2 .. | .subv2 .. | .add4 .. | .sub4 .. | .mul4 ..
  | .muls4 .. | .addv4 .. | .subv4 .. | .mov1 .. | .mov2 .. | .mov4 .. | .mov8 .. | .movv1 .. | .movv2 ..
  | .movv4 .. | .movv8 .. | .load1 .. | .load2 .. | .load4 .. | .load8 .. | .loadr1 .. | .loadr2 .. | .loadr4 ..
  | .loadr8 .. | .store1 .. | .store2 .. | .store4 .. | .store8 .. | .storer1 .. | .storer2 .. | .storer4 ..
  | .storer8 .. | .fadd4 .. | .fsub4 .. | .fmul4 .. | .fdiv4 .. | .fadd8 .. | .fsub8 .. | .fmul8 .. | .fdiv8 ..
  | .fsqrt4 .. | .fsqrt8 .. | .fsin4 .. | .fcos4 .. | .fsin8 .. | .fcos8 .. | .ret | .pop1 .. | .pop2 .. | .pop4 ..
  | .pop8 .. | .push1 .. | .push2 .. | .push4 .. | .push8 .. | .cmp1 .. | .cmp2 .. | .cmp4 .. | .cmp8 ..
  | .cmpv1 .. | .cmpv2 .. | .cmpv4 .. | .cmpv8 .. | .add8 .. | .sub8 .. | .mul8 .. | .muls8 .. | .addv8 ..
  | .subv8 .. => false

/-! ## Notation of the rules (R7, R8) -/

/-- `trunc_w(k)` of an integer of any sign (R8). -/
def truncTo (w : Nat) (k : Int) : BitVec w := BitVec.ofInt w k

/-- `u(v)`, the unsigned reading (R8), as an integer. -/
def uval {w : Nat} (v : BitVec w) : Int := (v.toNat : Int)

/-- `s_w(v)`, the signed reading in two's complement (R8): `u(v)`, less 2^w when bit w - 1 is 1. -/
def sval {w : Nat} (v : BitVec w) : Int := if v.getLsbD (w - 1) then uval v - 2 ^ w else uval v

/-- The word of format OP denotes i (R82), strict or not, whatever `ALU8_OPCODES` supplies. -/
def SpelledOP (op : Opcode) (i : Instr) : Prop := ∀ alu8 strict, decode alu8 strict (op ++ 0#48) = .ok i

/-- The bits a row's format draws as 0 (R82 to R86): 47:0 in OP, 43:0 in R, 47:8 in RR, none in RI and I. -/
def zeroFieldMask : Row → Word
  | .op _ => 0x0000FFFFFFFFFFFF#64
  | .r _ => 0x00000FFFFFFFFFFF#64
  | .rr _ => 0x0000FFFFFFFFFF00#64
  | .ri _ => 0#64
  | .i _ => 0#64

/-- Two words have the same operands in the fields of a row's format (R82 to R86). -/
def SameOperands (row : Row) (v w : Word) : Prop :=
  match row with
  | .op _ => True
  | .r _ => rdHighOf v = rdHighOf w
  | .rr _ => rdLowOf v = rdLowOf w ∧ rsOf v = rsOf w
  | .ri _ => rdHighOf v = rdHighOf w ∧ imm44Of v = imm44Of w
  | .i _ => imm48Of v = imm48Of w

/-- The words of format R denote what `make` gives for their register (R83). -/
def SpelledR (op : Opcode) (make : RegId → Instr) : Prop :=
  ∀ alu8 strict rd, decode alu8 strict (op ++ rd ++ 0#44) = .ok (make rd)

/-- The words of format RR denote what `make` gives for their registers (R84). -/
def SpelledRR (op : Opcode) (make : RegId → RegId → Instr) : Prop :=
  ∀ alu8 strict rd rs, decode alu8 strict (op ++ 0#40 ++ rd ++ rs) = .ok (make rd rs)

/-- The words of format RI denote what `make` gives for their register and immediate (R85). -/
def SpelledRI (op : Opcode) (make : RegId → Imm44 → Instr) : Prop :=
  ∀ alu8 strict rd v, decode alu8 strict (op ++ rd ++ v) = .ok (make rd v)

/-- The words of format I denote what `make` gives for their immediate (R86). -/
def SpelledI (op : Opcode) (make : Imm48 → Instr) : Prop :=
  ∀ alu8 strict k, decode alu8 strict (op ++ k) = .ok (make k)

/-- The 113 opcodes of R93, by the groups of R91. -/
def assignedOpcodes : List Nat :=
  [0x0000, 0x0001] ++ List.range' 0x0010 5 ++ [0x0020, 0x0021, 0x0030, 0x0031] ++ List.range' 0x0040 7 ++
  [0x0050, 0x0051] ++ List.range' 0x0060 5 ++ [0x0070, 0x0071] ++ List.range' 0x0090 5 ++ List.range' 0x00a0 5 ++
  List.range' 0x0100 5 ++ [0x0110, 0x0111] ++ List.range' 0x0200 5 ++ [0x0210, 0x0211] ++
  List.range' 0x0300 5 ++ [0x0310, 0x0311] ++ List.range' 0x0400 4 ++ List.range' 0x0410 4 ++
  List.range' 0x0500 4 ++ List.range' 0x0510 4 ++ List.range' 0x0600 4 ++ List.range' 0x0610 4 ++
  List.range' 0x0700 4 ++ List.range' 0x0710 4 ++ List.range' 0x0720 6 ++ [0x0800] ++
  List.range' 0x0810 4 ++ List.range' 0x0820 4 ++ List.range' 0x0830 4 ++ List.range' 0x0840 4

/-! ## Frames -/

/-- No general register changed. -/
def RegsKept (s t : State) : Prop := ∀ i, t.reg i = s.reg i

/-- No general register but d changed. -/
def OtherRegsKept (d : RegId) (s t : State) : Prop := ∀ i, i ≠ d → t.reg i = s.reg i

/-- Z and N are unchanged. -/
def FlagsKept (s t : State) : Prop := t.z = s.z ∧ t.n = s.n

/-- Every byte of `Memoria` reads as before. -/
def BytesKept (s t : State) : Prop := ∀ k, t.byteAt k = s.byteAt k

/-- Every byte of `Memoria` outside the n bytes from a reads as before. -/
def BytesKeptOutside (a : Word) (n : Nat) (s t : State) : Prop :=
  ∀ k, (k < a.toNat ∨ a.toNat + n ≤ k) → t.byteAt k = s.byteAt k

/-- Every I/O cell and the trace are unchanged. -/
def IoKept (s t : State) : Prop := (∀ c, t.ioCell c = s.ioCell c) ∧ t.trace = s.trace

/-- The run state and the parameters are unchanged. -/
def ControlKept (s t : State) : Prop := t.run = s.run ∧ t.params = s.params

/-! ## Effects -/

/-- `WriteSized(d, n, r)` as R22 states it, bit by bit: the low w bits are r under every `SUBWORD_WRITE`; below 64 bits the
others are 0, kept, copies of the sign, or anything. -/
def RegWritten {w : Nat} (s t : State) (d : RegId) (r : BitVec w) : Prop :=
  (t.reg d).setWidth w = r ∧
  ∀ b, w ≤ b → b < 64 →
    match s.params.subwordWrite with
    | .zeroExtend => (t.reg d).getLsbD b = false
    | .preserveUpper => (t.reg d).getLsbD b = (s.reg d).getLsbD b
    | .signExtend => (t.reg d).getLsbD b = r.getLsbD (w - 1)
    | .unspecified => True

/-- `SetZN(n, r)` (R29): Z = 1 exactly when every bit of r is 0, N is bit w - 1 of r. -/
def FlagsOf {w : Nat} (t : State) (r : BitVec w) : Prop :=
  (t.z = true ↔ ∀ b, b < w → r.getLsbD b = false) ∧ t.n = r.getLsbD (w - 1)

/-- `FlagsALU(n, r)` (R30), under the three values of `ALU_FLAGS`. -/
def FlagsByAlu {w : Nat} (s t : State) (r : BitVec w) : Prop :=
  match s.params.aluFlags with
  | .result => FlagsOf t r
  | .unchanged => FlagsKept s t
  | .unspecified => True

/-- The w / 8 bytes of `Memoria` from address a upward are those of v, in the order of `ENDIAN` (R53, R54). -/
def BytesAt {w : Nat} (s : State) (a : Word) (v : BitVec w) : Prop :=
  ∀ i, i < w / 8 → s.byteAt (a.toNat + i) =
    match s.params.endian with
    | .little => v.extractLsb' (8 * i) 8
    | .big => v.extractLsb' (8 * (w / 8 - 1 - i)) 8

/-- The n bytes at a are inside `Memoria` (R52), the sum taken in the unbounded integers. -/
def InMemory (s : State) (a : Word) (n : Nat) : Prop := a.toNat + n ≤ s.params.memSize

/-- `immv(8)` (R89): the 44-bit field widened by `IMM_EXT`. -/
def DataImm8 (s : State) (v : Imm44) : Word :=
  match s.params.immExt with
  | .zero => v.setWidth 64
  | .sign => v.signExtend 64

/-- The quotient of R132 (b): sign(sa) * sign(sb) * floor(|sa| / |sb|), or the floor of the exact quotient. -/
def roundedQuotient (round : DivRound) (sa sb : Int) : Int :=
  match round with
  | .trunc => sa.sign * sb.sign * ((sa.natAbs / sb.natAbs : Nat) : Int)
  | .floor => ⌊(sa : ℚ) / (sb : ℚ)⌋

/-! ## What a completed instruction leaves, whole: its effect and its frame -/

/-- An arithmetic, logic or shift instruction with the w-bit result r in register d. -/
def AluEffect {w : Nat} (s t : State) (d : RegId) (r : BitVec w) : Prop :=
  RegWritten s t d r ∧ FlagsByAlu s t r ∧ t.pc = s.pc + 8#64 ∧
    OtherRegsKept d s t ∧ t.sp = s.sp ∧ BytesKept s t ∧ IoKept s t ∧ ControlKept s t

/-- A data transfer of the w-bit value r into register d: no flag is written. -/
def MoveEffect {w : Nat} (s t : State) (d : RegId) (r : BitVec w) : Prop :=
  RegWritten s t d r ∧ FlagsKept s t ∧ t.pc = s.pc + 8#64 ∧
    OtherRegsKept d s t ∧ t.sp = s.sp ∧ BytesKept s t ∧ IoKept s t ∧ ControlKept s t

/-- A compare with the w-bit difference r: the flags of r and nothing else. -/
def CompareEffect {w : Nat} (s t : State) (r : BitVec w) : Prop :=
  FlagsOf t r ∧ t.pc = s.pc + 8#64 ∧ RegsKept s t ∧ t.sp = s.sp ∧ BytesKept s t ∧ IoKept s t ∧ ControlKept s t

/-- A store of the w-bit value v at address a: its bytes and nothing else. -/
def StoreEffect {w : Nat} (s t : State) (a : Word) (v : BitVec w) : Prop :=
  BytesAt t a v ∧ BytesKeptOutside a (w / 8) s t ∧ t.pc = s.pc + 8#64 ∧
    RegsKept s t ∧ FlagsKept s t ∧ t.sp = s.sp ∧ IoKept s t ∧ ControlKept s t

/-- A push of the w-bit value v: its bytes at `SP`, then `SP` grows by its size. -/
def PushEffect {w : Nat} (s t : State) (v : BitVec w) : Prop :=
  BytesAt t s.sp v ∧ BytesKeptOutside s.sp (w / 8) s t ∧ t.sp = s.sp + BitVec.ofNat 64 (w / 8) ∧
    t.pc = s.pc + 8#64 ∧ RegsKept s t ∧ FlagsKept s t ∧ IoKept s t ∧ ControlKept s t

/-- A pop of the w-bit value v into register d: `SP` shrinks by its size. -/
def PopEffect {w : Nat} (s t : State) (d : RegId) (v : BitVec w) : Prop :=
  RegWritten s t d v ∧ t.sp = s.sp - BitVec.ofNat 64 (w / 8) ∧ t.pc = s.pc + 8#64 ∧
    OtherRegsKept d s t ∧ FlagsKept s t ∧ BytesKept s t ∧ IoKept s t ∧ ControlKept s t

/-! ## Completion and traps: exec answers a next state, and which -/

/-- i completes at s with the effect `effect`. -/
def Completes (i : Instr) (s : State) (effect : State → Prop) : Prop := ∃ t, exec i s = .next t ∧ effect t

/-- i completes as an arithmetic, logic or shift instruction. -/
def AluCompletes {w : Nat} (i : Instr) (s : State) (d : RegId) (r : BitVec w) : Prop :=
  Completes i s fun t => AluEffect s t d r

/-- i completes as a data transfer. -/
def MoveCompletes {w : Nat} (i : Instr) (s : State) (d : RegId) (r : BitVec w) : Prop :=
  Completes i s fun t => MoveEffect s t d r

/-- i completes as a compare. -/
def CompareCompletes {w : Nat} (i : Instr) (s : State) (r : BitVec w) : Prop :=
  Completes i s fun t => CompareEffect s t r

/-- i completes and nothing changed but `pc`, which is p. -/
def OnlyPc (i : Instr) (s : State) (p : Word) : Prop := exec i s = .next { s with pc := p }

/-- `raise F(info)` (R303): the run state alone changed. -/
def TakesFault (i : Instr) (s : State) (f : Fault) : Prop := exec i s = .next { s with run := .faulted f }

/-- i reads w bits of `Memoria` at a into register d: it completes when the access is inside, else takes `MemoryFault`. -/
def LoadsFrom (i : Instr) (s : State) (w : Nat) (d : RegId) (a : Word) : Prop :=
  (InMemory s a (w / 8) → Completes i s fun t => ∃ v : BitVec w, BytesAt s a v ∧ MoveEffect s t d v) ∧
  (¬InMemory s a (w / 8) → TakesFault i s (.memoryFault a (w / 8) .read))

/-- i stores the w-bit value v at a: it completes when the access is inside, else takes `MemoryFault`. -/
def StoresTo {w : Nat} (i : Instr) (s : State) (a : Word) (v : BitVec w) : Prop :=
  (InMemory s a (w / 8) → Completes i s fun t => StoreEffect s t a v) ∧
  (¬InMemory s a (w / 8) → TakesFault i s (.memoryFault a (w / 8) .write))

/-- i pushes the w-bit value v: it completes when the bytes at `SP` are inside, else takes `MemoryFault`. -/
def Pushes {w : Nat} (i : Instr) (s : State) (v : BitVec w) : Prop :=
  (InMemory s s.sp (w / 8) → Completes i s fun t => PushEffect s t v) ∧
  (¬InMemory s s.sp (w / 8) → TakesFault i s (.memoryFault s.sp (w / 8) .write))

/-- i pops w bits into register d: it completes when the bytes below `SP` are inside, else takes `MemoryFault`. -/
def Pops (i : Instr) (s : State) (w : Nat) (d : RegId) : Prop :=
  (InMemory s (s.popAddr w) (w / 8) →
    Completes i s fun t => ∃ v : BitVec w, BytesAt s (s.popAddr w) v ∧ PopEffect s t d v) ∧
  (¬InMemory s (s.popAddr w) (w / 8) →
    TakesFault i s (.memoryFault (s.popAddr w) (w / 8) .read))

/-- i divides a by b, w-bit numbers read as signed, into register d: it completes when b is not 0, else takes
`DivideByZero` (R132). -/
def DividesSigned {w : Nat} (i : Instr) (s : State) (d : RegId) (a b : BitVec w) : Prop :=
  (b ≠ 0#w → AluCompletes i s d (truncTo w (roundedQuotient s.params.divRound (sval a) (sval b)))) ∧
  (b = 0#w → TakesFault i s (.divideByZero s.pc))

/-- The corner cases of R132 for the signed division i of a by b: (c), the list of sign combinations, and under
`DIV_ROUND = floor` the inexact mixed-sign ones. -/
def DivisionCorners {w : Nat} (i : Instr) (s : State) (d : RegId) (a b : BitVec w) : Prop :=
  (sval a = -2 ^ (w - 1) → sval b = -1 → AluCompletes i s d a) ∧
  (sval b = 1 → AluCompletes i s d a) ∧
  (sval b = -1 → AluCompletes i s d (truncTo w (-sval a))) ∧
  (sval a = 0 → sval b ≠ 0 → AluCompletes i s d 0#w) ∧
  (sval a = 7 → sval b = 2 → AluCompletes i s d 3#w) ∧
  (sval a = -7 → sval b = -2 → AluCompletes i s d 3#w) ∧
  ((sval a = -7 ∧ sval b = 2 ∨ sval a = 7 ∧ sval b = -2) →
    AluCompletes i s d (match s.params.divRound with
      | .trunc => truncTo w (-3)
      | .floor => truncTo w (-4)))

/-- What R166 says the flags of a compare of a with b tell: Z is equality, and N is the signed order exactly when the true
difference fits, the unsigned order when the difference of the unsigned readings is below 2^(w-1). -/
def CompareOrders {w : Nat} (i : Instr) (s : State) (a b : BitVec w) : Prop :=
  ∃ t, exec i s = .next t ∧ (t.z = true ↔ a = b) ∧ (a = b → t.n = false) ∧
    ((t.n = true ↔ sval a < sval b) ↔ (-(2 ^ (w - 1)) ≤ sval a - sval b ∧ sval a - sval b < 2 ^ (w - 1))) ∧
    (|uval a - uval b| < 2 ^ (w - 1) → (t.n = true ↔ uval a < uval b))

/-- An input/output instruction completes: the cells, the one event it appends, and nothing else but `pc`. -/
def IoEffect (s t : State) (cells : IoCell → Word) (e : Event) : Prop :=
  (∀ c, t.ioCell c = cells c) ∧ t.trace = s.trace ++ [e] ∧ t.pc = s.pc + 8#64 ∧ FlagsKept s t ∧ t.sp = s.sp ∧
    BytesKept s t ∧ ControlKept s t

/-! ## Floating point (R260 to R263) -/

/-- A NaN pattern (R262): exponent field all ones, fraction not zero. -/
def IsNan (f : FpFormat) (v : Nat) : Prop :=
  v / 2 ^ f.fracBits % 2 ^ f.expBits = fpExpMax f ∧ v % 2 ^ f.fracBits ≠ 0

/-- i completes as a floating-point instruction of width w with the outcome `out` in register d: the pattern it gives, or
some NaN. No flag is written. -/
def FpCompletes (f : FpFormat) (w : Nat) (i : Instr) (s : State) (d : RegId) (out : FpOut) : Prop :=
  Completes i s fun t => ∃ r : BitVec w, MoveEffect s t d r ∧
    match out with
    | .bits v => r.toNat = v
    | .nan => IsNan f r.toNat

/-- A magnitude, in units, that fits fracBits + 1 significant bits. -/
def Representable (f : FpFormat) (m : Nat) : Prop := ∃ q e, q < 2 ^ (f.fracBits + 1) ∧ m = q * 2 ^ e

/-- Such a magnitude whose significand is even: q even, where q is normalised or the exponent is the least. -/
def EvenSignificand (f : FpFormat) (m : Nat) : Prop :=
  ∃ q e, q < 2 ^ (f.fracBits + 1) ∧ (2 ^ f.fracBits ≤ q ∨ e = 0) ∧ q % 2 = 0 ∧ m = q * 2 ^ e

/-- m is x rounded to nearest, ties to even (R261): no representable magnitude is nearer to x, and when another is as near,
m's significand is even. -/
def NearestEven (f : FpFormat) (x : ℝ) (m : Nat) : Prop :=
  Representable f m ∧
  ∀ m', Representable f m' → |x - m| ≤ |x - m'| ∧ (|x - m| = |x - m'| → m' ≠ m → EvenSignificand f m)

/-- The largest finite magnitude of a format, in units. -/
def fpMaxFinite (f : FpFormat) : Nat := (2 ^ (f.fracBits + 1) - 1) * 2 ^ (fpExpMax f - 2)

/-- The binary32 or the binary64 format (R260). -/
def IsFormat (f : FpFormat) : Prop := f = binary32 ∨ f = binary64

/-- The value of a bit pattern, written from R260: NaN and infinity by the exponent field of all ones, else
sign × significand × 2^exponent, in units of the least subnormal. -/
def DatumOf (f : FpFormat) (v : Nat) : FpDatum → Prop
  | .nan => IsNan f v
  | .inf neg => v / 2 ^ f.fracBits % 2 ^ f.expBits = fpExpMax f ∧ v % 2 ^ f.fracBits = 0 ∧
      neg = v.testBit (f.expBits + f.fracBits)
  | .fin neg mag => v / 2 ^ f.fracBits % 2 ^ f.expBits ≠ fpExpMax f ∧ neg = v.testBit (f.expBits + f.fracBits) ∧
      (v / 2 ^ f.fracBits % 2 ^ f.expBits = 0 → mag = v % 2 ^ f.fracBits) ∧
      (v / 2 ^ f.fracBits % 2 ^ f.expBits ≠ 0 →
        mag = (2 ^ f.fracBits + v % 2 ^ f.fracBits) * 2 ^ (v / 2 ^ f.fracBits % 2 ^ f.expBits - 1))

/-- A fixed function gave a pattern of the format that reads as d. -/
def OutReads (f : FpFormat) (out : FpOut) (d : FpDatum) : Prop :=
  ∃ v, out = .bits v ∧ v < 2 ^ (1 + f.expBits + f.fracBits) ∧ DatumOf f v d

/-! ## Invariants and runs -/

/-- `Memoria` and `IO` keep their canonical form, so that equal contents are equal states (R35, R175). -/
def StateInv (s : State) : Prop := Memory.wf s.params.memSize s.mem = true ∧ IoSpace.wf s.io = true

/-- The information a faulted state records is about that state (R301, R303). -/
def FaultRecorded (s : State) : Prop :=
  match s.run with
  | .running => True
  | .halted => True
  | .faulted (.fetchFault p .misaligned) => p = s.pc ∧ p.toNat % 8 ≠ 0
  | .faulted (.fetchFault p .outOfRange) => p = s.pc ∧ p.toNat % 8 = 0 ∧ s.params.memSize < p.toNat + 8
  | .faulted (.illegalInstruction p w) =>
    p = s.pc ∧ w = s.fetchWord ∧ ∀ i, s.decodeWord w ≠ .ok i
  | .faulted (.memoryFault a n _) => n ∈ [1, 2, 4, 8] ∧ s.params.memSize < a.toNat + n
  | .faulted (.divideByZero p) => p = s.pc

/-- A state as reset leaves it (R330, R39): every value R39 leaves unspecified is free, and so are the parameters and the
image. -/
def ResetState (s : State) : Prop :=
  s.pc = s.params.resetPc ∧ s.sp = s.params.spReset ∧ s.run = .running ∧ (∀ c, s.ioCell c = 0#64) ∧ s.trace = []

/-- A state the next step of which fetches i (steps 1 to 3 of R26). -/
def Fetches (s : State) (i : Instr) : Prop :=
  s.run = .running ∧ s.pc.toNat % 8 = 0 ∧ s.pc.toNat + 8 ≤ s.params.memSize ∧
    s.decodeWord s.fetchWord = .ok i

/-- The normal end of a run from s (R337 (a)). -/
def Halts (s : State) : Prop := ∃ k t, Sys2Proof.core.run k s = .next t ∧ t.run = .halted

/-- The failed end of a run from s (R337 (b)). -/
def Fails (s : State) : Prop := ∃ k t f, Sys2Proof.core.run k s = .next t ∧ t.run = .faulted f

end Sys2Proof.Machine
end

