-- ==== Sys2Proof/Certificates/Slice0/Obligations.lean ====
section
/-! DEFINITION. The statements for the provers. Each title of OBLIGATIONS.json says what its statement states; the docstrings
name the rules. -/

section

open Sys2Proof Sys2Proof.Machine

/-- R92, last sentence: encoding is the inverse of decoding. With none the well-formed instructions are the 113 rows
of R93 with any operands; with seven legal values of D19 the 8-byte mnemonics join them (R97). -/
def Obligations.DecodeOfEncodeIsTheInstruction : Prop :=
  ∀ (alu8 : Option Alu8Opcodes) (i : Instr), alu8.all Alu8Opcodes.wellFormed = true → i.wellFormedIn alu8 = true →
    ∃ w, encode alu8 i = some w ∧ ∀ strict, decode alu8 strict w = .ok i

/-- R92: w decodes to the unique row with w & mask == match, and every other bit is an operand bit. -/
def Obligations.StrictDecodeAcceptsOnlyEncodedWords : Prop :=
  ∀ (alu8 : Option Alu8Opcodes) (w : Word) (i : Instr), decode alu8 true w = .ok i → encode alu8 i = some w

/-- R95: a word with an assigned opcode and a 1 in a bit its format draws as 0 is illegal under the default, ignored
under the alternative; R92 and R82 to R86: every other bit is opcode or operand, and none of them is changed. -/
def Obligations.NonStrictDecodeIgnoresOnlyZeroFields : Prop :=
  ∀ (alu8 : Option Alu8Opcodes) (w : Word) (i : Instr), decode alu8 false w = .ok i →
    ∃ row w0, rowOf alu8 (opcodeOf w) = some row ∧ encode alu8 i = some w0 ∧ w0 = w &&& ~~~zeroFieldMask row ∧
      opcodeOf w0 = opcodeOf w ∧ SameOperands row w0 w ∧ decode alu8 true w0 = .ok i ∧
      (w = w0 → decode alu8 true w = .ok i) ∧ (w ≠ w0 → decode alu8 true w = .error .nonzeroZeroField)

/-- R93 and R94 for the default, R97 and D19 for seven supplied opcodes that are legal (Alu8Opcodes.wellFormed, log
18); the assigned opcodes are listed by the groups of R91, independently of the decoder's table. -/
def Obligations.ExactlyTheAssignedOpcodesDecode : Prop :=
  assignedOpcodes.length = 113 ∧ assignedOpcodes.Nodup ∧
  (∀ w : Word,
    ((∃ i, decode none false w = .ok i) ↔ (opcodeOf w).toNat ∈ assignedOpcodes) ∧
    ((opcodeOf w).toNat ∉ assignedOpcodes → ∀ strict, decode none strict w = .error .unassignedOpcode)) ∧
  ∀ (o : Alu8Opcodes) (w : Word), o.wellFormed = true →
    ((∃ i, decode (some o) false w = .ok i) ↔ (opcodeOf w).toNat ∈ assignedOpcodes ∨ opcodeOf w ∈ o.opcodes) ∧
    ((opcodeOf w).toNat ∉ assignedOpcodes → opcodeOf w ∉ o.opcodes →
      ∀ strict, decode (some o) strict w = .error .unassignedOpcode)

/-- R97, R214, 90_conflicts.md C1 and D19 (seven values disjoint from the 113 assigned). That the seven differ from
one another is an inference from "an opcode selects one instruction" (R97, log 18). -/
def Obligations.EightByteAluIsEncodedOnlyWhereSupplied : Prop :=
  (∀ strict (w : Word) (i : Instr), decode none strict w = .ok i → i.wellFormed = true) ∧
  (∀ rd rs v, Instr.wellFormed (.add8 rd rs) = false ∧ Instr.wellFormed (.sub8 rd rs) = false ∧
    Instr.wellFormed (.mul8 rd rs) = false ∧ Instr.wellFormed (.muls8 rd rs) = false ∧
    Instr.wellFormed (.div8 rd rs) = false ∧ Instr.wellFormed (.addv8 rd v) = false ∧
    Instr.wellFormed (.subv8 rd v) = false) ∧
  (∀ i : Instr, i.wellFormed = false → encode none i = none) ∧
  SpelledRR 0x0300#16 .add4 ∧ SpelledRR 0x0301#16 .sub4 ∧ SpelledRR 0x0302#16 .mul4 ∧ SpelledRR 0x0303#16 .muls4 ∧
  SpelledRR 0x0304#16 .div4 ∧ SpelledRI 0x0310#16 .addv4 ∧ SpelledRI 0x0311#16 .subv4 ∧
  ∀ o : Alu8Opcodes,
    (o.wellFormed = true ↔ o.opcodes.Nodup ∧ ∀ op ∈ o.opcodes, op.toNat ∉ assignedOpcodes) ∧
    (o.wellFormed = true → ∀ strict rd rs v,
      decode (some o) strict (o.add8 ++ 0#40 ++ rd ++ rs) = .ok (.add8 rd rs) ∧
      decode (some o) strict (o.sub8 ++ 0#40 ++ rd ++ rs) = .ok (.sub8 rd rs) ∧
      decode (some o) strict (o.mul8 ++ 0#40 ++ rd ++ rs) = .ok (.mul8 rd rs) ∧
      decode (some o) strict (o.muls8 ++ 0#40 ++ rd ++ rs) = .ok (.muls8 rd rs) ∧
      decode (some o) strict (o.div8 ++ 0#40 ++ rd ++ rs) = .ok (.div8 rd rs) ∧
      decode (some o) strict (o.addv8 ++ rd ++ v) = .ok (.addv8 rd v) ∧
      decode (some o) strict (o.subv8 ++ rd ++ v) = .ok (.subv8 rd v))

/-- The words are those of the examples of files 40 to 49. -/
def Obligations.SampleWordsDecode : Prop :=
  decode none true 0x0000000000000000#64 = .ok .parar ∧ decode none true 0x0800000000000000#64 = .ok .ret ∧
  decode none true 0x0030100000000000#64 = .ok (.inc 1#4) ∧ decode none true 0x0010000000000012#64 = .ok (.add 1#4 2#4) ∧
  decode none true 0x0062000000000012#64 = .ok (.store 1#4 2#4) ∧
  decode none true 0x00611123456789AB#64 = .ok (.loadv 1#4 0x123456789AB#44) ∧
  decode none true 0x0090000000000040#64 = .ok (.jmp 0x40#48) ∧ decode none true 0x00A2000000000010#64 = .ok (.showio 0x10#48) ∧
  decode none true 0x04121123456789AB#64 = .ok (.movv4 1#4 0x123456789AB#44) ∧
  decode none true 0x0710000000000012#64 = .ok (.fadd8 1#4 2#4) ∧
  decode none true 0x0843100000000064#64 = .ok (.cmpv8 1#4 0x64#44) ∧
  decode none true 0xFFFFFFFFFFFFFFFF#64 = .error .unassignedOpcode ∧
  decode none true 0x0010000000000112#64 = .error .nonzeroZeroField

/-- R56 whole. -/
def Obligations.FetchAssemblesTheWordByEndian : Prop :=
  ∀ s : State,
    (∀ i, i < 8 → s.byteAt (s.pc.toNat + i) =
      match s.params.endian with
      | .little => s.fetchWord.extractLsb' (8 * i) 8
      | .big => s.fetchWord.extractLsb' (8 * (7 - i)) 8) ∧
    (InMemory s s.pc 8 → s.memRead 64 s.pc = .ok s.fetchWord) ∧
    (s.run = .running → s.pc.toNat % 8 = 0 → ¬InMemory s s.pc 8 →
      step s = .next { s with run := .faulted (.fetchFault s.pc .outOfRange) })

/-- R53 whole; InMemory is the range test of R52. -/
def Obligations.MemReadAssemblesBytes : Prop :=
  ∀ (s : State) (a : Word) (w : Nat), w ∈ [8, 16, 32, 64] →
    (¬InMemory s a (w / 8) → s.memRead w a = .error (.memoryFault a (w / 8) .read)) ∧
    (InMemory s a (w / 8) → ∃ v : BitVec w, s.memRead w a = .ok v ∧
      ∀ i, i < w / 8 → v.extractLsb' (8 * i) 8 =
        match s.params.endian with
        | .little => s.byteAt (a.toNat + i)
        | .big => s.byteAt (a.toNat + (w / 8 - 1 - i)))

/-- R54 up to its last sentence, which is about the stores and stands in StoresWriteExactlyTheirBytes. -/
def Obligations.MemWriteStoresBytes : Prop :=
  ∀ (s : State) (a : Word) (w : Nat) (v : BitVec w), w ∈ [8, 16, 32, 64] →
    (¬InMemory s a (w / 8) → s.memWrite a v = .error (.memoryFault a (w / 8) .write)) ∧
    (InMemory s a (w / 8) → ∃ t, s.memWrite a v = .ok t ∧ BytesAt t a v ∧ BytesKeptOutside a (w / 8) s t ∧
      t.pc = s.pc ∧ RegsKept s t ∧ FlagsKept s t ∧ t.sp = s.sp ∧ IoKept s t ∧ ControlKept s t)

/-- R55: what a mixed-width access sees follows from R53 and R54. -/
def Obligations.MixedWidthReadAfterWrite : Prop :=
  ∀ (s t : State) (a b : Word) (v : Word), s.memWrite a v = .ok t →
    t.memRead 64 a = .ok v ∧
    t.memRead 8 a = .ok (match s.params.endian with | .little => v.extractLsb' 0 8 | .big => v.extractLsb' 56 8) ∧
    (a.toNat + 4 < 2 ^ 64 → t.memRead 32 (a + 4#64) =
      .ok (match s.params.endian with | .little => v.extractLsb' 32 32 | .big => v.extractLsb' 0 32)) ∧
    ((b.toNat + 8 ≤ a.toNat ∨ a.toNat + 8 ≤ b.toNat) → t.memRead 64 b = s.memRead 64 b)

/-- R26, steps 1 to 5. -/
def Obligations.StepRunsTheDecodedInstruction : Prop :=
  ∀ (s : State) (i : Instr), Fetches s i → step s = exec i s

/-- R304 (1) to (3), R301; the execute-time faults are in ExecuteFaultsAreExactlyThese. -/
def Obligations.FetchFaultsInPriorityOrder : Prop :=
  ∀ s : State, s.run = .running →
    (s.pc.toNat % 8 ≠ 0 → step s = .next { s with run := .faulted (.fetchFault s.pc .misaligned) }) ∧
    (s.pc.toNat % 8 = 0 → ¬InMemory s s.pc 8 →
      step s = .next { s with run := .faulted (.fetchFault s.pc .outOfRange) }) ∧
    (s.pc.toNat % 8 = 0 → InMemory s s.pc 8 → (∀ i, s.decodeWord s.fetchWord ≠ .ok i) →
      step s = .next { s with run := .faulted (.illegalInstruction s.pc s.fetchWord) })

/-- R96 whole, the opcode 0xFFFF being unassigned: a configuration of D19 could supply it in ALU8_OPCODES. -/
def Obligations.ZeroWordHaltsAndOnesWordIsIllegal : Prop :=
  (∀ alu8 strict, decode alu8 strict 0x0000000000000000#64 = .ok .parar) ∧ opcodeOf 0xFFFFFFFFFFFFFFFF#64 = 0xFFFF#16 ∧
  ∀ s : State, s.run = .running → s.pc.toNat % 8 = 0 → InMemory s s.pc 8 →
    (s.fetchWord = 0x0000000000000000#64 → step s = .next { s with run := .halted }) ∧
    (s.fetchWord = 0xFFFFFFFFFFFFFFFF#64 → 0xFFFF#16 ∉ suppliedOpcodes s.params.alu8Opcodes →
      step s = .next { s with run := .faulted (.illegalInstruction s.pc 0xFFFFFFFFFFFFFFFF#64) })

/-- R33: Halted and Faulted are absorbing. That a halted step answers the same state and a faulted step the host's
fault outcome is the model's choice (log 16, log 17). -/
def Obligations.StoppedMachineStaysStopped : Prop :=
  ∀ (s : State) (k : Nat),
    (s.run = .halted → Sys2Proof.core.run k s = .next s) ∧
    (∀ f, s.run = .faulted f → Sys2Proof.core.run (k + 1) s = .fault f)

/-- R25, and steps 4 and 6 of R26. -/
def Obligations.NextInstructionIsEightBytesOn : Prop :=
  ∀ (i : Instr) (s t : State), exec i s = .next t → s.run = .running →
    (t.run = .running → i.assignsPc = false → t.pc = s.pc + 8#64) ∧ (t.run ≠ .running → t.pc = s.pc)

/-- R336, the host loads the image; the bytes are laid out as R56 reads them. -/
def Obligations.PlacedWordIsTheNextInstruction : Prop :=
  ∀ (s : State) (w : Word) (i : Instr), s.run = .running → s.pc.toNat % 8 = 0 → InMemory s s.pc 8 →
    s.decodeWord w = .ok i → step (s.placeWord w) = exec i (s.placeWord w)

/-- R66: a store to bytes that are later fetched is seen by that fetch. -/
def Obligations.StoredInstructionIsFetched : Prop :=
  ∀ (s : State) (rd rs : RegId) (i : Instr), s.run = .running → s.reg rs = s.pc + 8#64 → (s.reg rs).toNat % 8 = 0 →
    InMemory s (s.reg rs) 8 → s.decodeWord (s.reg rd) = .ok i →
    ∃ t, exec (.storer8 rd rs) s = .next t ∧ step t = exec i t

/-- R39; the chosen values of log 1, 2, 3 and 6 play no part in it. -/
def Obligations.ResetMeetsTheInvariants : Prop :=
  StateInv State.reset ∧ FaultRecorded State.reset ∧ ResetState State.reset

/-- R39 whole: what it leaves unspecified is universally quantified. -/
def Obligations.ResetGivesTheValuesOfR39 : Prop :=
  ∀ (p : Params) (image : Memory) (regs : Vector Word 16) (z n : Bool) (k : Nat),
    ∃ s, s = State.resetWith p image regs z n k ∧ s.params = p ∧ s.pc = p.resetPc ∧ s.sp = p.spReset ∧
      s.run = .running ∧ (∀ c, s.ioCell c = 0#64) ∧ s.trace = [] ∧ (∀ a, s.byteAt a = sparseRead image a) ∧
      (∀ r : RegId, s.reg r = regs[r.toNat]) ∧ s.z = z ∧ s.n = n

/-- R35 and R175: Memoria is MEM_SIZE bytes, IO is 2^48 cells; the canonical form is the model's. -/
def Obligations.StepKeepsCanonicalMemoryAndIo : Prop :=
  ∀ s t : State, StateInv s → step s = .next t → StateInv t

/-- R301, R303: pc keeps the address of the faulting instruction and the info is the cause's. -/
def Obligations.StepKeepsTheFaultRecord : Prop :=
  ∀ s t : State, FaultRecorded s → step s = .next t → FaultRecorded t

/-- R55: ENDIAN cannot be switched at run time; R336: fixed for the whole run. -/
def Obligations.ParametersNeverChange : Prop :=
  ∀ s t : State, step s = .next t → t.params = s.params

/-- R36, R37, R177. -/
def Obligations.OnlyIoInstructionsReachIo : Prop :=
  (∀ (i : Instr) (s t : State), exec i s = .next t →
    (i.isIo = true → ∃ e, t.trace = s.trace ++ [e]) ∧ (i.isIo = false → IoKept s t)) ∧
  ∀ s t : State, step s = .next t → ∃ es, t.trace = s.trace ++ es ∧ es.length ≤ 1

/-- R31 whole; Instr.writesFlags is the list of R29 and R30. -/
def Obligations.OnlyListedInstructionsWriteFlags : Prop :=
  ∀ (i : Instr) (s t : State), exec i s = .next t → i.writesFlags = false → FlagsKept s t

/-- R27: only PUSHn, POPn and RET change SP. -/
def Obligations.OnlyStackInstructionsMoveSp : Prop :=
  ∀ (i : Instr) (s t : State), exec i s = .next t → s.run = .running →
    (t.run = .running → t.sp = s.sp + i.spStep) ∧ (t.run ≠ .running → t.sp = s.sp)

/-- R51 and R58 give the address and the size; R54: no other byte changes. -/
def Obligations.OnlyStoresChangeMemory : Prop :=
  ∀ (i : Instr) (s t : State), exec i s = .next t →
    (writeAccess s i = none → BytesKept s t) ∧ (∀ a n, writeAccess s i = some (a, n) → BytesKeptOutside a n s t)

/-- R21: which instructions read Rd and which write it. -/
def Obligations.OnlyTheDestinationRegisterChanges : Prop :=
  ∀ (i : Instr) (s t : State), exec i s = .next t → ∀ r, i.destination ≠ some r → t.reg r = s.reg r

/-- R303 whole. -/
def Obligations.FaultsArePrecise : Prop :=
  ∀ (s t : State) (f : Fault), s.run = .running → step s = .next t → t.run = .faulted f →
    t = { s with run := .faulted f }

/-- R302, the whole table, with the conditions of R301. -/
def Obligations.ExecuteFaultsAreExactlyThese : Prop :=
  ∀ (i : Instr) (s t : State) (f : Fault), exec i s = .next t → s.run = .running →
    (t.run = .faulted f ↔
      (∃ a n, readAccess s i = some (a, n) ∧ ¬InMemory s a n ∧ f = .memoryFault a n .read) ∨
      (∃ a n, writeAccess s i = some (a, n) ∧ ¬InMemory s a n ∧ f = .memoryFault a n .write) ∨
      (zeroDivisor s i = true ∧ f = .divideByZero s.pc))

/-- R314: PARAR is the only way the processor stops by its own action. -/
def Obligations.OnlyPararHalts : Prop :=
  (∀ (i : Instr) (s t : State), exec i s = .next t → s.run = .running → (t.run = .halted ↔ i = .parar)) ∧
  ∀ s t : State, s.run = .running → step s = .next t → t.run = .halted →
    fetchInstr s = .ok .parar ∧ t = { s with run := .halted }

/-- R10: the primitives are total; R303: a fault is a change of state. That it is a next state is log 16. -/
def Obligations.EveryInstructionHasANextState : Prop :=
  (∀ (i : Instr) (s : State), ∃ t, exec i s = .next t) ∧ ∀ s : State, s.run = .running → ∃ t, step s = .next t

/-- R111 and R112. The clause about the step of a halted machine is no rule of the spec: it is the model's convention
of log 17 (DESIGN CHOICE), under R33, by which a halted machine takes no step. -/
def Obligations.PararHaltsAndNopAdvances : Prop :=
  SpelledOP 0x0000#16 .parar ∧ (0x0000#16 ++ 0#48 : Word) = 0x0000000000000000#64 ∧
  SpelledOP 0x0001#16 .nop ∧ (0x0001#16 ++ 0#48 : Word) = 0x0001000000000000#64 ∧
  ∀ s : State, exec .parar s = .next { s with run := .halted } ∧
    step { s with run := .halted } = .next { s with run := .halted } ∧ OnlyPc .nop s (s.pc + 8#64)

/-- R113 to R117; OnlyPc: no flag, register, SP, memory, I/O or run state changes. -/
def Obligations.JumpsAssignPcByTheirFlag : Prop :=
  SpelledI 0x0090#16 .jmp ∧ SpelledI 0x0091#16 .jeq ∧ SpelledI 0x0092#16 .jne ∧ SpelledI 0x0093#16 .jmi ∧
  SpelledI 0x0094#16 .jpl ∧
  ∀ (s : State) (k : Imm48),
    OnlyPc (.jmp k) s (k.setWidth 64) ∧
    (s.z = true → OnlyPc (.jeq k) s (k.setWidth 64)) ∧ (s.z = false → OnlyPc (.jeq k) s (s.pc + 8#64)) ∧
    (s.z = false → OnlyPc (.jne k) s (k.setWidth 64)) ∧ (s.z = true → OnlyPc (.jne k) s (s.pc + 8#64)) ∧
    (s.n = true → OnlyPc (.jmi k) s (k.setWidth 64)) ∧ (s.n = false → OnlyPc (.jmi k) s (s.pc + 8#64)) ∧
    (s.n = false → OnlyPc (.jpl k) s (k.setWidth 64)) ∧ (s.n = true → OnlyPc (.jpl k) s (s.pc + 8#64))

/-- R110; the self-loop is R113's corner case and R337 (c). -/
def Obligations.BadJumpTargetFaultsAtTheNextFetch : Prop :=
  (∀ (s : State) (k : Imm48), s.run = .running → ∃ t, exec (.jmp k) s = .next t ∧ t.pc = k.setWidth 64 ∧
    (k.toNat % 8 ≠ 0 → step t = .next { t with run := .faulted (.fetchFault (k.setWidth 64) .misaligned) }) ∧
    (k.toNat % 8 = 0 → s.params.memSize < k.toNat + 8 →
      step t = .next { t with run := .faulted (.fetchFault (k.setWidth 64) .outOfRange) })) ∧
  ∀ (s : State) (k : Imm48) (m : Nat), Fetches s (.jmp k) → s.pc = k.setWidth 64 →
    Sys2Proof.core.run m s = .next s

/-- R121, R122, R126 to R129: opcode, format, result, flags, no fault. -/
def Obligations.UnsizedAddAndSubtract : Prop :=
  SpelledRR 0x0010#16 .add ∧ SpelledRR 0x0011#16 .sub ∧ SpelledRI 0x0020#16 .addv ∧ SpelledRI 0x0021#16 .subv ∧
  SpelledR 0x0030#16 .inc ∧ SpelledR 0x0031#16 .dec ∧
  ∀ (s : State) (rd rs : RegId) (v : Imm44),
    AluCompletes (.add rd rs) s rd (truncTo 64 (uval (s.reg rd) + uval (s.reg rs))) ∧
    AluCompletes (.sub rd rs) s rd (truncTo 64 (uval (s.reg rd) - uval (s.reg rs))) ∧
    AluCompletes (.addv rd v) s rd (truncTo 64 (uval (s.reg rd) + uval (DataImm8 s v))) ∧
    AluCompletes (.subv rd v) s rd (truncTo 64 (uval (s.reg rd) - uval (DataImm8 s v))) ∧
    AluCompletes (.inc rd) s rd (truncTo 64 (uval (s.reg rd) + 1)) ∧
    AluCompletes (.dec rd) s rd (truncTo 64 (uval (s.reg rd) - 1))

/-- R123, R124, R188, R189, R195, R196, R202, R203, R209, R210. -/
def Obligations.MultiplyKeepsTheLowBits : Prop :=
  SpelledRR 0x0012#16 .muls ∧ SpelledRR 0x0013#16 .mul ∧ SpelledRR 0x0102#16 .mul1 ∧ SpelledRR 0x0103#16 .muls1 ∧
  SpelledRR 0x0202#16 .mul2 ∧ SpelledRR 0x0203#16 .muls2 ∧ SpelledRR 0x0302#16 .mul4 ∧ SpelledRR 0x0303#16 .muls4 ∧
  ∀ (s : State) (rd rs : RegId),
    (encode none (.mul8 rd rs) = none ∧ encode none (.muls8 rd rs) = none) ∧
    AluCompletes (.mul rd rs) s rd (truncTo 64 (uval (s.reg rd) * uval (s.reg rs))) ∧
    AluCompletes (.muls rd rs) s rd (truncTo 64 (sval (s.reg rd) * sval (s.reg rs))) ∧
    AluCompletes (.mul1 rd rs) s rd (truncTo 8 (uval (s.lo 8 rd) * uval (s.lo 8 rs))) ∧
    AluCompletes (.muls1 rd rs) s rd (truncTo 8 (sval (s.lo 8 rd) * sval (s.lo 8 rs))) ∧
    AluCompletes (.mul2 rd rs) s rd (truncTo 16 (uval (s.lo 16 rd) * uval (s.lo 16 rs))) ∧
    AluCompletes (.muls2 rd rs) s rd (truncTo 16 (sval (s.lo 16 rd) * sval (s.lo 16 rs))) ∧
    AluCompletes (.mul4 rd rs) s rd (truncTo 32 (uval (s.lo 32 rd) * uval (s.lo 32 rs))) ∧
    AluCompletes (.muls4 rd rs) s rd (truncTo 32 (sval (s.lo 32 rd) * sval (s.lo 32 rs))) ∧
    AluCompletes (.mul8 rd rs) s rd (truncTo 64 (uval (s.reg rd) * uval (s.reg rs))) ∧
    AluCompletes (.muls8 rd rs) s rd (truncTo 64 (sval (s.reg rd) * sval (s.reg rs)))

/-- R125, R190, R197, R204, R211 with the law R132. -/
def Obligations.DivisionQuotientOrDivideByZero : Prop :=
  SpelledRR 0x0014#16 .div ∧ SpelledRR 0x0104#16 .div1 ∧ SpelledRR 0x0204#16 .div2 ∧ SpelledRR 0x0304#16 .div4 ∧
  ∀ (s : State) (rd rs : RegId),
    encode none (.div8 rd rs) = none ∧
    (s.params.div64Signed = true → DividesSigned (.div rd rs) s rd (s.reg rd) (s.reg rs)) ∧
    (s.params.div64Signed = false → s.reg rs ≠ 0#64 →
      AluCompletes (.div rd rs) s rd (truncTo 64 (uval (s.reg rd) / uval (s.reg rs)))) ∧
    (s.params.div64Signed = false → s.reg rs = 0#64 → TakesFault (.div rd rs) s (.divideByZero s.pc)) ∧
    DividesSigned (.div1 rd rs) s rd (s.lo 8 rd) (s.lo 8 rs) ∧
    DividesSigned (.div2 rd rs) s rd (s.lo 16 rd) (s.lo 16 rs) ∧
    DividesSigned (.div4 rd rs) s rd (s.lo 32 rd) (s.lo 32 rs) ∧
    DividesSigned (.div8 rd rs) s rd (s.reg rd) (s.reg rs)

/-- R186, R187, R191 to R194, R198 to R201, R205, R206. -/
def Obligations.SizedAddAndSubtract : Prop :=
  SpelledRR 0x0100#16 .add1 ∧ SpelledRR 0x0101#16 .sub1 ∧ SpelledRI 0x0110#16 .addv1 ∧ SpelledRI 0x0111#16 .subv1 ∧
  SpelledRR 0x0200#16 .add2 ∧ SpelledRR 0x0201#16 .sub2 ∧ SpelledRI 0x0210#16 .addv2 ∧ SpelledRI 0x0211#16 .subv2 ∧
  SpelledRR 0x0300#16 .add4 ∧ SpelledRR 0x0301#16 .sub4 ∧ SpelledRI 0x0310#16 .addv4 ∧ SpelledRI 0x0311#16 .subv4 ∧
  ∀ (s : State) (rd rs : RegId) (v : Imm44),
    AluCompletes (.add1 rd rs) s rd (truncTo 8 (uval (s.lo 8 rd) + uval (s.lo 8 rs))) ∧
    AluCompletes (.sub1 rd rs) s rd (truncTo 8 (uval (s.lo 8 rd) - uval (s.lo 8 rs))) ∧
    AluCompletes (.addv1 rd v) s rd (truncTo 8 (uval (s.lo 8 rd) + uval (v.extractLsb' 0 8))) ∧
    AluCompletes (.subv1 rd v) s rd (truncTo 8 (uval (s.lo 8 rd) - uval (v.extractLsb' 0 8))) ∧
    AluCompletes (.add2 rd rs) s rd (truncTo 16 (uval (s.lo 16 rd) + uval (s.lo 16 rs))) ∧
    AluCompletes (.sub2 rd rs) s rd (truncTo 16 (uval (s.lo 16 rd) - uval (s.lo 16 rs))) ∧
    AluCompletes (.addv2 rd v) s rd (truncTo 16 (uval (s.lo 16 rd) + uval (v.extractLsb' 0 16))) ∧
    AluCompletes (.subv2 rd v) s rd (truncTo 16 (uval (s.lo 16 rd) - uval (v.extractLsb' 0 16))) ∧
    AluCompletes (.add4 rd rs) s rd (truncTo 32 (uval (s.lo 32 rd) + uval (s.lo 32 rs))) ∧
    AluCompletes (.sub4 rd rs) s rd (truncTo 32 (uval (s.lo 32 rd) - uval (s.lo 32 rs))) ∧
    AluCompletes (.addv4 rd v) s rd (truncTo 32 (uval (s.lo 32 rd) + uval (v.extractLsb' 0 32))) ∧
    AluCompletes (.subv4 rd v) s rd (truncTo 32 (uval (s.lo 32 rd) - uval (v.extractLsb' 0 32)))

/-- R207, R208, R212, R213. -/
def Obligations.EightByteAddAndSubtract : Prop :=
  ∀ (s : State) (rd rs : RegId) (v : Imm44),
    (∀ strict (w : Word), decode none strict w ≠ .ok (.add8 rd rs) ∧ decode none strict w ≠ .ok (.sub8 rd rs) ∧
      decode none strict w ≠ .ok (.addv8 rd v) ∧ decode none strict w ≠ .ok (.subv8 rd v)) ∧
    (encode none (.add8 rd rs) = none ∧ encode none (.sub8 rd rs) = none ∧ encode none (.addv8 rd v) = none ∧
      encode none (.subv8 rd v) = none) ∧
    AluCompletes (.add8 rd rs) s rd (truncTo 64 (uval (s.reg rd) + uval (s.reg rs))) ∧
    AluCompletes (.sub8 rd rs) s rd (truncTo 64 (uval (s.reg rd) - uval (s.reg rs))) ∧
    AluCompletes (.addv8 rd v) s rd (truncTo 64 (uval (s.reg rd) + uval (DataImm8 s v))) ∧
    AluCompletes (.subv8 rd v) s rd (truncTo 64 (uval (s.reg rd) - uval (DataImm8 s v)))

/-- R131 whole; the results themselves are in MultiplyKeepsTheLowBits. -/
def Obligations.SignedAndUnsignedMultiplyAgree : Prop :=
  (∀ (w : Nat) (a b : BitVec w), 0 < w → truncTo w (uval a * uval b) = truncTo w (sval a * sval b)) ∧
  ∀ (s : State) (rd rs : RegId),
    (∃ t, exec (.mul rd rs) s = .next t ∧ RegWritten s t rd (truncTo 64 (uval (s.reg rd) * uval (s.reg rs)))) ∧
    exec (.mul rd rs) s = exec (.muls rd rs) s ∧ exec (.mul1 rd rs) s = exec (.muls1 rd rs) s ∧
    exec (.mul2 rd rs) s = exec (.muls2 rd rs) s ∧ exec (.mul4 rd rs) s = exec (.muls4 rd rs) s ∧
    exec (.mul8 rd rs) s = exec (.muls8 rd rs) s

/-- R132 (c) and its list of sign combinations; the general law is DivisionQuotientOrDivideByZero. -/
def Obligations.DivisionCornerCases : Prop :=
  ∀ (s : State) (rd rs : RegId),
    DivisionCorners (.div1 rd rs) s rd (s.lo 8 rd) (s.lo 8 rs) ∧
    DivisionCorners (.div2 rd rs) s rd (s.lo 16 rd) (s.lo 16 rs) ∧
    DivisionCorners (.div4 rd rs) s rd (s.lo 32 rd) (s.lo 32 rs) ∧
    DivisionCorners (.div8 rd rs) s rd (s.reg rd) (s.reg rs) ∧
    (s.params.div64Signed = true → DivisionCorners (.div rd rs) s rd (s.reg rd) (s.reg rs)) ∧
    (s.params.div64Signed = false →
      (s.reg rs = 1#64 → AluCompletes (.div rd rs) s rd (s.reg rd)) ∧
      (s.reg rd = 0#64 → s.reg rs ≠ 0#64 → AluCompletes (.div rd rs) s rd 0#64) ∧
      (0 ≤ sval (s.reg rd) → 0 < sval (s.reg rs) →
        AluCompletes (.div rd rs) s rd (truncTo 64 (roundedQuotient .trunc (sval (s.reg rd)) (sval (s.reg rs))))))

/-- R136 to R144. -/
def Obligations.LogicAndShifts : Prop :=
  SpelledR 0x0040#16 .not ∧ SpelledRR 0x0041#16 .and ∧ SpelledRI 0x0042#16 .andv ∧ SpelledRR 0x0043#16 .or ∧
  SpelledRI 0x0044#16 .orv ∧ SpelledRR 0x0045#16 .xor ∧ SpelledRI 0x0046#16 .xorv ∧ SpelledR 0x0050#16 .shl ∧
  SpelledR 0x0051#16 .shr ∧
  ∀ (s : State) (rd rs : RegId) (v : Imm44),
    AluCompletes (.not rd) s rd (s.reg rd ^^^ 0xFFFFFFFFFFFFFFFF#64) ∧
    AluCompletes (.and rd rs) s rd (s.reg rd &&& s.reg rs) ∧
    AluCompletes (.andv rd v) s rd (s.reg rd &&& DataImm8 s v) ∧
    AluCompletes (.or rd rs) s rd (s.reg rd ||| s.reg rs) ∧
    AluCompletes (.orv rd v) s rd (s.reg rd ||| DataImm8 s v) ∧
    AluCompletes (.xor rd rs) s rd (s.reg rd ^^^ s.reg rs) ∧
    AluCompletes (.xorv rd v) s rd (s.reg rd ^^^ DataImm8 s v) ∧
    AluCompletes (.shl rd) s rd (truncTo 64 (uval (s.reg rd) * 2)) ∧
    AluCompletes (.shr rd) s rd (truncTo 64 (uval (s.reg rd) / 2))

/-- R135 and R89. -/
def Obligations.ImmediateUpperBitsUnderZeroExtension : Prop :=
  (∀ (s t : State) (rd : RegId) (v : Imm44) (b : Nat), s.params.immExt = .zero → 44 ≤ b →
    (exec (.andv rd v) s = .next t → (t.reg rd).getLsbD b = false) ∧
    (exec (.orv rd v) s = .next t → (t.reg rd).getLsbD b = (s.reg rd).getLsbD b) ∧
    (exec (.xorv rd v) s = .next t → (t.reg rd).getLsbD b = (s.reg rd).getLsbD b)) ∧
  ∀ v : Imm44, v.getLsbD 43 = false → immv .zero 64 v = immv .sign 64 v

/-- R152, R155, R221 to R228. -/
def Obligations.ImmediateLoadsClearAndMoves : Prop :=
  SpelledRI 0x0061#16 .loadv ∧ SpelledR 0x0064#16 .clear ∧ SpelledRR 0x0400#16 .mov1 ∧ SpelledRR 0x0401#16 .mov2 ∧
  SpelledRR 0x0402#16 .mov4 ∧ SpelledRR 0x0403#16 .mov8 ∧ SpelledRI 0x0410#16 .movv1 ∧ SpelledRI 0x0411#16 .movv2 ∧
  SpelledRI 0x0412#16 .movv4 ∧ SpelledRI 0x0413#16 .movv8 ∧
  ∀ (s : State) (rd rs : RegId) (v : Imm44),
    MoveCompletes (.loadv rd v) s rd (DataImm8 s v) ∧ MoveCompletes (.clear rd) s rd 0#64 ∧
    MoveCompletes (.mov1 rd rs) s rd ((s.reg rs).extractLsb' 0 8) ∧
    MoveCompletes (.mov2 rd rs) s rd ((s.reg rs).extractLsb' 0 16) ∧
    MoveCompletes (.mov4 rd rs) s rd ((s.reg rs).extractLsb' 0 32) ∧ MoveCompletes (.mov8 rd rs) s rd (s.reg rs) ∧
    MoveCompletes (.movv1 rd v) s rd (v.extractLsb' 0 8) ∧ MoveCompletes (.movv2 rd v) s rd (v.extractLsb' 0 16) ∧
    MoveCompletes (.movv4 rd v) s rd (v.extractLsb' 0 32) ∧ MoveCompletes (.movv8 rd v) s rd (DataImm8 s v)

/-- R151, R236 to R243. -/
def Obligations.LoadsReadTheirBytesOrFault : Prop :=
  SpelledRI 0x0060#16 .load ∧ SpelledRI 0x0500#16 .load1 ∧ SpelledRI 0x0501#16 .load2 ∧ SpelledRI 0x0502#16 .load4 ∧
  SpelledRI 0x0503#16 .load8 ∧ SpelledRR 0x0510#16 .loadr1 ∧ SpelledRR 0x0511#16 .loadr2 ∧
  SpelledRR 0x0512#16 .loadr4 ∧ SpelledRR 0x0513#16 .loadr8 ∧
  ∀ (s : State) (rd rs : RegId) (addr : Imm44),
    LoadsFrom (.load rd addr) s 64 rd (addr44 addr) ∧ LoadsFrom (.load1 rd addr) s 8 rd (addr44 addr) ∧
    LoadsFrom (.load2 rd addr) s 16 rd (addr44 addr) ∧ LoadsFrom (.load4 rd addr) s 32 rd (addr44 addr) ∧
    LoadsFrom (.load8 rd addr) s 64 rd (addr44 addr) ∧ LoadsFrom (.loadr1 rd rs) s 8 rd (s.reg rs) ∧
    LoadsFrom (.loadr2 rd rs) s 16 rd (s.reg rs) ∧ LoadsFrom (.loadr4 rd rs) s 32 rd (s.reg rs) ∧
    LoadsFrom (.loadr8 rd rs) s 64 rd (s.reg rs)

/-- R153, R154, R244 to R251. -/
def Obligations.StoresWriteExactlyTheirBytes : Prop :=
  SpelledRR 0x0062#16 .store ∧ SpelledRI 0x0063#16 .storev ∧ SpelledRI 0x0600#16 .store1 ∧
  SpelledRI 0x0601#16 .store2 ∧ SpelledRI 0x0602#16 .store4 ∧ SpelledRI 0x0603#16 .store8 ∧
  SpelledRR 0x0610#16 .storer1 ∧ SpelledRR 0x0611#16 .storer2 ∧ SpelledRR 0x0612#16 .storer4 ∧
  SpelledRR 0x0613#16 .storer8 ∧
  ∀ (s : State) (rd rs : RegId) (addr : Imm44),
    StoresTo (.store rd rs) s (s.reg rs) (s.reg rd) ∧ StoresTo (.storev rd addr) s (addr44 addr) (s.reg rd) ∧
    StoresTo (.store1 rd addr) s (addr44 addr) ((s.reg rd).extractLsb' 0 8) ∧
    StoresTo (.store2 rd addr) s (addr44 addr) ((s.reg rd).extractLsb' 0 16) ∧
    StoresTo (.store4 rd addr) s (addr44 addr) ((s.reg rd).extractLsb' 0 32) ∧
    StoresTo (.store8 rd addr) s (addr44 addr) (s.reg rd) ∧
    StoresTo (.storer1 rd rs) s (s.reg rs) ((s.reg rd).extractLsb' 0 8) ∧
    StoresTo (.storer2 rd rs) s (s.reg rs) ((s.reg rd).extractLsb' 0 16) ∧
    StoresTo (.storer4 rd rs) s (s.reg rs) ((s.reg rd).extractLsb' 0 32) ∧
    StoresTo (.storer8 rd rs) s (s.reg rs) (s.reg rd)

/-- R156 to R165; the flags do not depend on ALU_FLAGS (R29). -/
def Obligations.ComparesSetFlagsOfTheDifference : Prop :=
  SpelledRR 0x0070#16 .cmp ∧ SpelledRI 0x0071#16 .cmpv ∧ SpelledRR 0x0830#16 .cmp1 ∧ SpelledRR 0x0831#16 .cmp2 ∧
  SpelledRR 0x0832#16 .cmp4 ∧ SpelledRR 0x0833#16 .cmp8 ∧ SpelledRI 0x0840#16 .cmpv1 ∧ SpelledRI 0x0841#16 .cmpv2 ∧
  SpelledRI 0x0842#16 .cmpv4 ∧ SpelledRI 0x0843#16 .cmpv8 ∧
  ∀ (s : State) (rd rs : RegId) (v : Imm44),
    CompareCompletes (.cmp rd rs) s (truncTo 64 (uval (s.reg rd) - uval (s.reg rs))) ∧
    CompareCompletes (.cmpv rd v) s (truncTo 64 (uval (s.reg rd) - uval (DataImm8 s v))) ∧
    CompareCompletes (.cmp1 rd rs) s (truncTo 8 (uval (s.lo 8 rd) - uval (s.lo 8 rs))) ∧
    CompareCompletes (.cmp2 rd rs) s (truncTo 16 (uval (s.lo 16 rd) - uval (s.lo 16 rs))) ∧
    CompareCompletes (.cmp4 rd rs) s (truncTo 32 (uval (s.lo 32 rd) - uval (s.lo 32 rs))) ∧
    CompareCompletes (.cmp8 rd rs) s (truncTo 64 (uval (s.reg rd) - uval (s.reg rs))) ∧
    CompareCompletes (.cmpv1 rd v) s (truncTo 8 (uval (s.lo 8 rd) - uval (v.extractLsb' 0 8))) ∧
    CompareCompletes (.cmpv2 rd v) s (truncTo 16 (uval (s.lo 16 rd) - uval (v.extractLsb' 0 16))) ∧
    CompareCompletes (.cmpv4 rd v) s (truncTo 32 (uval (s.lo 32 rd) - uval (v.extractLsb' 0 32))) ∧
    CompareCompletes (.cmpv8 rd v) s (truncTo 64 (uval (s.reg rd) - uval (DataImm8 s v)))

/-- R166. Its "only when" about the unsigned order is not stated: at u(a) - u(b) = -2^(W-1) N still tells it. -/
def Obligations.CompareFlagsTellEqualityAndOrder : Prop :=
  ∀ (s : State) (rd rs : RegId) (v : Imm44),
    CompareOrders (.cmp rd rs) s (s.reg rd) (s.reg rs) ∧ CompareOrders (.cmp1 rd rs) s (s.lo 8 rd) (s.lo 8 rs) ∧
    CompareOrders (.cmp2 rd rs) s (s.lo 16 rd) (s.lo 16 rs) ∧ CompareOrders (.cmp4 rd rs) s (s.lo 32 rd) (s.lo 32 rs) ∧
    CompareOrders (.cmp8 rd rs) s (s.reg rd) (s.reg rs) ∧ CompareOrders (.cmpv rd v) s (s.reg rd) (DataImm8 s v) ∧
    CompareOrders (.cmpv1 rd v) s (s.lo 8 rd) (v.extractLsb' 0 8) ∧
    CompareOrders (.cmpv2 rd v) s (s.lo 16 rd) (v.extractLsb' 0 16) ∧
    CompareOrders (.cmpv4 rd v) s (s.lo 32 rd) (v.extractLsb' 0 32) ∧
    CompareOrders (.cmpv8 rd v) s (s.reg rd) (DataImm8 s v)

/-- R114: after a compare Z = 1 exactly when the operands are equal; R334: the flags are seen by the jump that
follows. -/
def Obligations.JumpAfterCompareTestsEquality : Prop :=
  ∀ (s : State) (rd rs : RegId) (k : Imm48),
    (∃ t, exec (.cmp rd rs) s = .next t ∧ RegsKept s t ∧
      OnlyPc (.jeq k) t (if s.reg rd = s.reg rs then k.setWidth 64 else s.pc + 16#64) ∧
      OnlyPc (.jne k) t (if s.reg rd = s.reg rs then s.pc + 16#64 else k.setWidth 64)) ∧
    (∃ t, exec (.cmp1 rd rs) s = .next t ∧ RegsKept s t ∧
      OnlyPc (.jeq k) t (if s.lo 8 rd = s.lo 8 rs then k.setWidth 64 else s.pc + 16#64) ∧
      OnlyPc (.jne k) t (if s.lo 8 rd = s.lo 8 rs then s.pc + 16#64 else k.setWidth 64)) ∧
    (∃ t, exec (.cmp2 rd rs) s = .next t ∧ RegsKept s t ∧
      OnlyPc (.jeq k) t (if s.lo 16 rd = s.lo 16 rs then k.setWidth 64 else s.pc + 16#64) ∧
      OnlyPc (.jne k) t (if s.lo 16 rd = s.lo 16 rs then s.pc + 16#64 else k.setWidth 64)) ∧
    (∃ t, exec (.cmp4 rd rs) s = .next t ∧ RegsKept s t ∧
      OnlyPc (.jeq k) t (if s.lo 32 rd = s.lo 32 rs then k.setWidth 64 else s.pc + 16#64) ∧
      OnlyPc (.jne k) t (if s.lo 32 rd = s.lo 32 rs then s.pc + 16#64 else k.setWidth 64))

/-- R178 to R182. Nothing is said of the environment's value v but that it is in Rd, the cell and the event. -/
def Obligations.InputOutputInstructions : Prop :=
  SpelledRI 0x00A0#16 .svio ∧ SpelledRI 0x00A1#16 .loadio ∧ SpelledI 0x00A2#16 .showio ∧ SpelledOP 0x00A3#16 .clrio ∧
  SpelledOP 0x00A4#16 .resetio ∧
  ∀ (s : State) (rd : RegId) (addr : Imm44) (k : Imm48),
    (Completes (.svio rd addr) s fun t => RegsKept s t ∧
      IoEffect s t (fun c => if c.toNat = addr.toNat then s.reg rd else s.ioCell c)
        (.out (addr.setWidth 48) (s.reg rd))) ∧
    (Completes (.loadio rd addr) s fun t => ∃ v : Word, t.reg rd = v ∧ OtherRegsKept rd s t ∧
      (isInput s.params addr.toNat = false → v = s.ioCell (addr.setWidth 48)) ∧
      IoEffect s t (fun c => if c.toNat = addr.toNat then v else s.ioCell c) (.input (addr.setWidth 48) v)) ∧
    (Completes (.showio k) s fun t => RegsKept s t ∧ IoEffect s t s.ioCell (.show k (s.ioCell k))) ∧
    (Completes .clrio s fun t => RegsKept s t ∧
      IoEffect s t (fun c => if isInput s.params c.toNat = true then 0#64 else s.ioCell c) .clrIO) ∧
    (Completes .resetio s fun t => RegsKept s t ∧ IoEffect s t (fun _ => 0#64) .resetIO)

/-- R264 to R269, R272 to R276, over the functions that FixedFunctionsRoundOnce and FloatSpecialCases state. Model
choices: the sign and payload of a NaN (log 11), infinity by zero (log 13). -/
def Obligations.FloatInstructionsApplyTheFixedFunctions : Prop :=
  SpelledRR 0x0700#16 .fadd4 ∧ SpelledRR 0x0701#16 .fsub4 ∧ SpelledRR 0x0702#16 .fmul4 ∧ SpelledRR 0x0703#16 .fdiv4 ∧
  SpelledRR 0x0710#16 .fadd8 ∧ SpelledRR 0x0711#16 .fsub8 ∧ SpelledRR 0x0712#16 .fmul8 ∧ SpelledRR 0x0713#16 .fdiv8 ∧
  SpelledR 0x0720#16 .fsqrt4 ∧ SpelledR 0x0721#16 .fsqrt8 ∧
  ∀ (s : State) (rd rs : RegId),
    FpCompletes binary32 32 (.fadd4 rd rs) s rd (fpAdd binary32 (s.fp binary32 32 rd) (s.fp binary32 32 rs)) ∧
    FpCompletes binary32 32 (.fsub4 rd rs) s rd (fpSub binary32 (s.fp binary32 32 rd) (s.fp binary32 32 rs)) ∧
    FpCompletes binary32 32 (.fmul4 rd rs) s rd (fpMul binary32 (s.fp binary32 32 rd) (s.fp binary32 32 rs)) ∧
    FpCompletes binary32 32 (.fdiv4 rd rs) s rd
      (fpDiv binary32 (Config.infDivZero4 (s.lo 32 rd) (s.lo 32 rs)).toNat (s.fp binary32 32 rd) (s.fp binary32 32 rs)) ∧
    FpCompletes binary32 32 (.fsqrt4 rd) s rd (fpSqrt binary32 (s.fp binary32 32 rd)) ∧
    FpCompletes binary64 64 (.fadd8 rd rs) s rd (fpAdd binary64 (s.fp binary64 64 rd) (s.fp binary64 64 rs)) ∧
    FpCompletes binary64 64 (.fsub8 rd rs) s rd (fpSub binary64 (s.fp binary64 64 rd) (s.fp binary64 64 rs)) ∧
    FpCompletes binary64 64 (.fmul8 rd rs) s rd (fpMul binary64 (s.fp binary64 64 rd) (s.fp binary64 64 rs)) ∧
    FpCompletes binary64 64 (.fdiv8 rd rs) s rd
      (fpDiv binary64 (Config.infDivZero8 (s.lo 64 rd) (s.lo 64 rs)).toNat (s.fp binary64 64 rd) (s.fp binary64 64 rs)) ∧
    FpCompletes binary64 64 (.fsqrt8 rd) s rd (fpSqrt binary64 (s.fp binary64 64 rd))

/-- R261: the exact mathematical result, rounded once with round-to-nearest, ties-to-even. No rule gives the sign of
a zero dividend's quotient: the division clause with m = 0 is the model's reading there (log 29). -/
def Obligations.FixedFunctionsRoundOnce : Prop :=
  ∀ f : FpFormat, IsFormat f →
    (∀ a m b n, fpInt a m + fpInt b n ≠ 0 → ∃ r,
      fpAdd f (.fin a m) (.fin b n) = .bits (fpPack f (decide (fpInt a m + fpInt b n < 0)) r) ∧
      NearestEven f |((fpInt a m + fpInt b n : Int) : ℝ)| r) ∧
    (∀ a m b n, fpInt a m - fpInt b n ≠ 0 → ∃ r,
      fpSub f (.fin a m) (.fin b n) = .bits (fpPack f (decide (fpInt a m - fpInt b n < 0)) r) ∧
      NearestEven f |((fpInt a m - fpInt b n : Int) : ℝ)| r) ∧
    (∀ a m b n, ∃ r, fpMul f (.fin a m) (.fin b n) = .bits (fpPack f (a != b) r) ∧
      NearestEven f ((m : ℝ) * n / 2 ^ fpUnitExp f) r) ∧
    (∀ z a m b n, n ≠ 0 → ∃ r, fpDiv f z (.fin a m) (.fin b n) = .bits (fpPack f (a != b) r) ∧
      NearestEven f ((m : ℝ) * 2 ^ fpUnitExp f / n) r) ∧
    (∀ m, m ≠ 0 → ∃ r, fpSqrt f (.fin false m) = .bits (fpPack f false r) ∧
      NearestEven f (Real.sqrt ((m : ℝ) * 2 ^ fpUnitExp f)) r)

/-- R260; the overflow row of R263; gradual underflow: subnormal magnitudes pack exactly. -/
def Obligations.PackingIsExactOrInfinite : Prop :=
  ∀ f : FpFormat, IsFormat f →
    (∀ v, v < 2 ^ (1 + f.expBits + f.fracBits) → DatumOf f v (fpDatum f v)) ∧
    (∀ neg m, Representable f m → fpPack f neg m < 2 ^ (1 + f.expBits + f.fracBits) ∧
      (m ≤ fpMaxFinite f → fpDatum f (fpPack f neg m) = .fin neg m) ∧
      (fpMaxFinite f < m → fpDatum f (fpPack f neg m) = .inf neg)) ∧
    (∀ v neg m, v < 2 ^ (1 + f.expBits + f.fracBits) → fpDatum f v = .fin neg m →
      Representable f m ∧ m ≤ fpMaxFinite f ∧ fpPack f neg m = v)

/-- R263, its rows but the last two (which are FixedFunctionsRoundOnce and PackingIsExactOrInfinite), R261 for the
root of +0, and R267 for the sign of a product. The model's own readings among the clauses: every other infinite
operand (log 14), an infinity by a zero (log 13), (-0) - (+0) in the clause of exact zero differences (log 15), and
the sign of a zero dividend's quotient (log 29). -/
def Obligations.FloatSpecialCases : Prop :=
  ∀ f : FpFormat, IsFormat f →
    (∀ d z, fpAdd f .nan d = .nan ∧ fpAdd f d .nan = .nan ∧ fpSub f .nan d = .nan ∧ fpSub f d .nan = .nan ∧
      fpMul f .nan d = .nan ∧ fpMul f d .nan = .nan ∧ fpDiv f z .nan d = .nan ∧ fpDiv f z d .nan = .nan ∧
      fpSqrt f .nan = .nan) ∧
    (∀ a b, a ≠ b → fpAdd f (.inf a) (.inf b) = .nan) ∧ (∀ a, fpSub f (.inf a) (.inf a) = .nan) ∧
    (∀ a b, fpMul f (.fin a 0) (.inf b) = .nan ∧ fpMul f (.inf a) (.fin b 0) = .nan) ∧
    (∀ z a b, fpDiv f z (.fin a 0) (.fin b 0) = .nan ∧ fpDiv f z (.inf a) (.inf b) = .nan) ∧
    (∀ z a m b, m ≠ 0 → OutReads f (fpDiv f z (.fin a m) (.fin b 0)) (.inf (a != b))) ∧
    (∀ z a m b, OutReads f (fpDiv f z (.fin a m) (.inf b)) (.fin (a != b) 0)) ∧
    (∀ m, m ≠ 0 → fpSqrt f (.fin true m) = .nan) ∧ fpSqrt f (.inf true) = .nan ∧
    OutReads f (fpSqrt f (.fin true 0)) (.fin true 0) ∧ OutReads f (fpSqrt f (.fin false 0)) (.fin false 0) ∧
    OutReads f (fpSqrt f (.inf false)) (.inf false) ∧
    (∀ a m b n, fpInt a m + fpInt b n = 0 → ¬(m = 0 ∧ n = 0 ∧ a = b) →
      OutReads f (fpAdd f (.fin a m) (.fin b n)) (.fin false 0)) ∧
    (∀ a m b n, fpInt a m - fpInt b n = 0 → OutReads f (fpSub f (.fin a m) (.fin b n)) (.fin false 0)) ∧
    (∀ a, OutReads f (fpAdd f (.fin a 0) (.fin a 0)) (.fin a 0)) ∧
    (∀ a m b n, ∃ v, fpMul f (.fin a m) (.fin b n) = .bits v ∧ v.testBit (f.expBits + f.fracBits) = (a != b)) ∧
    (∀ z a m b n, n ≠ 0 → ∃ v, fpDiv f z (.fin a m) (.fin b n) = .bits v ∧
      v.testBit (f.expBits + f.fracBits) = (a != b)) ∧
    (∀ z a b n, n ≠ 0 → OutReads f (fpDiv f z (.fin a 0) (.fin b n)) (.fin (a != b) 0)) ∧
    (∀ a, OutReads f (fpAdd f (.inf a) (.inf a)) (.inf a) ∧ OutReads f (fpSub f (.inf a) (.inf !a)) (.inf a)) ∧
    (∀ a b m, OutReads f (fpAdd f (.inf a) (.fin b m)) (.inf a) ∧ OutReads f (fpAdd f (.fin b m) (.inf a)) (.inf a) ∧
      OutReads f (fpSub f (.inf a) (.fin b m)) (.inf a) ∧ OutReads f (fpSub f (.fin b m) (.inf a)) (.inf !a)) ∧
    (∀ a b, OutReads f (fpMul f (.inf a) (.inf b)) (.inf (a != b))) ∧
    (∀ z a b m, m ≠ 0 → OutReads f (fpMul f (.inf a) (.fin b m)) (.inf (a != b)) ∧
      OutReads f (fpMul f (.fin b m) (.inf a)) (.inf (b != a)) ∧
      OutReads f (fpDiv f z (.inf a) (.fin b m)) (.inf (a != b))) ∧
    (∀ z a b, fpDiv f z (.inf a) (.fin b 0) = .bits z)

/-- R270, R271, R277, R278; the four functions are opaque constants (log 12). -/
def Obligations.SineAndCosineAreTheConfigurationFunctions : Prop :=
  SpelledR 0x0722#16 .fsin4 ∧ SpelledR 0x0723#16 .fcos4 ∧ SpelledR 0x0724#16 .fsin8 ∧ SpelledR 0x0725#16 .fcos8 ∧
  ∀ (s : State) (rd : RegId),
    MoveCompletes (.fsin4 rd) s rd (Config.sin4 ((s.reg rd).extractLsb' 0 32)) ∧
    MoveCompletes (.fcos4 rd) s rd (Config.cos4 ((s.reg rd).extractLsb' 0 32)) ∧
    MoveCompletes (.fsin8 rd) s rd (Config.sin8 (s.reg rd)) ∧ MoveCompletes (.fcos8 rd) s rd (Config.cos8 (s.reg rd))

/-- R291 to R294. What a pop after it gives back is PushThenPopRestores. -/
def Obligations.PushesStoreAtSp : Prop :=
  SpelledR 0x0820#16 .push1 ∧ SpelledR 0x0821#16 .push2 ∧ SpelledR 0x0822#16 .push4 ∧ SpelledR 0x0823#16 .push8 ∧
  ∀ (s : State) (rd : RegId),
    Pushes (.push1 rd) s ((s.reg rd).extractLsb' 0 8) ∧ Pushes (.push2 rd) s ((s.reg rd).extractLsb' 0 16) ∧
    Pushes (.push4 rd) s ((s.reg rd).extractLsb' 0 32) ∧ Pushes (.push8 rd) s (s.reg rd)

/-- R287 to R290. -/
def Obligations.PopsReadBelowSp : Prop :=
  SpelledR 0x0810#16 .pop1 ∧ SpelledR 0x0811#16 .pop2 ∧ SpelledR 0x0812#16 .pop4 ∧ SpelledR 0x0813#16 .pop8 ∧
  ∀ (s : State) (rd : RegId),
    Pops (.pop1 rd) s 8 rd ∧ Pops (.pop2 rd) s 16 rd ∧ Pops (.pop4 rd) s 32 rd ∧ Pops (.pop8 rd) s 64 rd

/-- R285 whole. -/
def Obligations.RetPopsThePc : Prop :=
  SpelledOP 0x0800#16 .ret ∧ (0x0800#16 ++ 0#48 : Word) = 0x0800000000000000#64 ∧
  ∀ s : State,
    (InMemory s (s.popAddr 64) 8 → ∃ a v : Word, a = truncTo 64 (uval s.sp - 8) ∧ BytesAt s a v ∧
      exec .ret s = .next { s with pc := v, sp := a } ∧
      (s.run = .running → v.toNat % 8 ≠ 0 → step { s with pc := v, sp := a } =
        .next { s with pc := v, sp := a, run := .faulted (.fetchFault v .misaligned) }) ∧
      (s.run = .running → v.toNat % 8 = 0 → s.params.memSize < v.toNat + 8 → step { s with pc := v, sp := a } =
        .next { s with pc := v, sp := a, run := .faulted (.fetchFault v .outOfRange) })) ∧
    (¬InMemory s (s.popAddr 64) 8 → TakesFault .ret s (.memoryFault (truncTo 64 (uval s.sp - 8)) 8 .read))

/-- R286, R294 (its corner case), R295 (the machine's only indirect jump), R61. -/
def Obligations.PushThenPopRestores : Prop :=
  ∀ (s : State) (ra rb rc : RegId),
    (InMemory s s.sp 1 → ∃ t u, exec (.push1 ra) s = .next t ∧ exec (.pop1 rb) t = .next u ∧
      u.lo 8 rb = s.lo 8 ra ∧ u.sp = s.sp) ∧
    (InMemory s s.sp 2 → ∃ t u, exec (.push2 ra) s = .next t ∧ exec (.pop2 rb) t = .next u ∧
      u.lo 16 rb = s.lo 16 ra ∧ u.sp = s.sp) ∧
    (InMemory s s.sp 4 → ∃ t u, exec (.push4 ra) s = .next t ∧ exec (.pop4 rb) t = .next u ∧
      u.lo 32 rb = s.lo 32 ra ∧ u.sp = s.sp) ∧
    (InMemory s s.sp 8 → ∃ t u, exec (.push8 ra) s = .next t ∧ exec (.pop8 rb) t = .next u ∧
      u.reg rb = s.reg ra ∧ u.sp = s.sp) ∧
    (InMemory s s.sp 8 → ∃ t u, exec (.push8 ra) s = .next t ∧ exec .ret t = .next u ∧
      u.pc = s.reg ra ∧ u.sp = s.sp) ∧
    (InMemory s s.sp 8 → s.reg rc = s.sp → ∃ t u, exec (.push8 ra) s = .next t ∧ exec (.loadr8 rb rc) t = .next u ∧
      u.reg rb = s.reg ra)

/-- R98 whole. -/
def Obligations.FunctionalDuplicates : Prop :=
  ∀ (s : State) (rd rs : RegId) (v : Imm44) (alu8 : Option Alu8Opcodes),
    (exec (.cmp rd rs) s = exec (.cmp8 rd rs) s ∧
      encode alu8 (.cmp rd rs) ≠ encode alu8 (.cmp8 rd rs)) ∧
    (exec (.cmpv rd v) s = exec (.cmpv8 rd v) s ∧
      encode alu8 (.cmpv rd v) ≠ encode alu8 (.cmpv8 rd v)) ∧
    (exec (.load rd v) s = exec (.load8 rd v) s ∧
      encode alu8 (.load rd v) ≠ encode alu8 (.load8 rd v)) ∧
    (exec (.storev rd v) s = exec (.store8 rd v) s ∧
      encode alu8 (.storev rd v) ≠ encode alu8 (.store8 rd v)) ∧
    (exec (.store rd rs) s = exec (.storer8 rd rs) s ∧
      encode alu8 (.store rd rs) ≠ encode alu8 (.storer8 rd rs)) ∧
    (exec (.loadv rd v) s = exec (.movv8 rd v) s ∧
      encode alu8 (.loadv rd v) ≠ encode alu8 (.movv8 rd v)) ∧
    (exec (.muls rd rs) s = exec (.mul rd rs) s ∧
      encode alu8 (.muls rd rs) ≠ encode alu8 (.mul rd rs)) ∧
    SpelledRR 0x0070#16 .cmp ∧ SpelledRR 0x0833#16 .cmp8 ∧ SpelledRI 0x0071#16 .cmpv ∧ SpelledRI 0x0843#16 .cmpv8 ∧
    SpelledRI 0x0060#16 .load ∧ SpelledRI 0x0503#16 .load8 ∧ SpelledRI 0x0063#16 .storev ∧ SpelledRI 0x0603#16 .store8 ∧
    SpelledRR 0x0062#16 .store ∧ SpelledRR 0x0613#16 .storer8 ∧ SpelledRI 0x0061#16 .loadv ∧
    SpelledRI 0x0413#16 .movv8 ∧ SpelledRR 0x0012#16 .muls ∧ SpelledRR 0x0013#16 .mul

end
end

