-- ==== Sys2Proof/Laws/State.lean ====
section
/-! SUPPORT. One lemma per field of State per update, true by rfl, so that no proof unfolds a record update; then what the
three conditional updates (`writeSized`, `flagsALU`, `ioReadState`) leave alone. -/

namespace Sys2Proof.Machine

/-! ## `State.setReg` -/

@[simp] theorem State.setReg_regs (s : State) (r : RegId) (v : Word) : (s.setReg r v).regs = s.regs.set r.toNat v r.isLt := rfl
@[simp] theorem State.setReg_pc (s : State) (r : RegId) (v : Word) : (s.setReg r v).pc = s.pc := rfl
@[simp] theorem State.setReg_sp (s : State) (r : RegId) (v : Word) : (s.setReg r v).sp = s.sp := rfl
@[simp] theorem State.setReg_z (s : State) (r : RegId) (v : Word) : (s.setReg r v).z = s.z := rfl
@[simp] theorem State.setReg_n (s : State) (r : RegId) (v : Word) : (s.setReg r v).n = s.n := rfl
@[simp] theorem State.setReg_run (s : State) (r : RegId) (v : Word) : (s.setReg r v).run = s.run := rfl
@[simp] theorem State.setReg_mem (s : State) (r : RegId) (v : Word) : (s.setReg r v).mem = s.mem := rfl
@[simp] theorem State.setReg_io (s : State) (r : RegId) (v : Word) : (s.setReg r v).io = s.io := rfl
@[simp] theorem State.setReg_trace (s : State) (r : RegId) (v : Word) : (s.setReg r v).trace = s.trace := rfl
@[simp] theorem State.setReg_params (s : State) (r : RegId) (v : Word) : (s.setReg r v).params = s.params := rfl
@[simp] theorem State.setReg_draws (s : State) (r : RegId) (v : Word) : (s.setReg r v).draws = s.draws := rfl
@[simp] theorem State.setReg_byteAt (s : State) (r : RegId) (v : Word) (k : Nat) : (s.setReg r v).byteAt k = s.byteAt k := rfl
@[simp] theorem State.setReg_ioCell (s : State) (r : RegId) (v : Word) (k : IoCell) : (s.setReg r v).ioCell k = s.ioCell k := rfl

/-! ## `State.drawn` -/

@[simp] theorem State.drawn_regs (s : State) : (s.drawn).regs = s.regs := rfl
@[simp] theorem State.drawn_pc (s : State) : (s.drawn).pc = s.pc := rfl
@[simp] theorem State.drawn_sp (s : State) : (s.drawn).sp = s.sp := rfl
@[simp] theorem State.drawn_z (s : State) : (s.drawn).z = s.z := rfl
@[simp] theorem State.drawn_n (s : State) : (s.drawn).n = s.n := rfl
@[simp] theorem State.drawn_run (s : State) : (s.drawn).run = s.run := rfl
@[simp] theorem State.drawn_mem (s : State) : (s.drawn).mem = s.mem := rfl
@[simp] theorem State.drawn_io (s : State) : (s.drawn).io = s.io := rfl
@[simp] theorem State.drawn_trace (s : State) : (s.drawn).trace = s.trace := rfl
@[simp] theorem State.drawn_params (s : State) : (s.drawn).params = s.params := rfl
@[simp] theorem State.drawn_draws (s : State) : (s.drawn).draws = s.draws + 1 := rfl
@[simp] theorem State.drawn_reg (s : State) (i : RegId) : (s.drawn).reg i = s.reg i := rfl
@[simp] theorem State.drawn_lo (s : State) (k : Nat) (i : RegId) : (s.drawn).lo k i = s.lo k i := rfl
@[simp] theorem State.drawn_byteAt (s : State) (k : Nat) : (s.drawn).byteAt k = s.byteAt k := rfl
@[simp] theorem State.drawn_ioCell (s : State) (k : IoCell) : (s.drawn).ioCell k = s.ioCell k := rfl

/-! ## `State.advance` -/

@[simp] theorem State.advance_regs (s : State) : (s.advance).regs = s.regs := rfl
@[simp] theorem State.advance_pc (s : State) : (s.advance).pc = s.pc + 8#64 := rfl
@[simp] theorem State.advance_sp (s : State) : (s.advance).sp = s.sp := rfl
@[simp] theorem State.advance_z (s : State) : (s.advance).z = s.z := rfl
@[simp] theorem State.advance_n (s : State) : (s.advance).n = s.n := rfl
@[simp] theorem State.advance_run (s : State) : (s.advance).run = s.run := rfl
@[simp] theorem State.advance_mem (s : State) : (s.advance).mem = s.mem := rfl
@[simp] theorem State.advance_io (s : State) : (s.advance).io = s.io := rfl
@[simp] theorem State.advance_trace (s : State) : (s.advance).trace = s.trace := rfl
@[simp] theorem State.advance_params (s : State) : (s.advance).params = s.params := rfl
@[simp] theorem State.advance_draws (s : State) : (s.advance).draws = s.draws := rfl
@[simp] theorem State.advance_reg (s : State) (i : RegId) : (s.advance).reg i = s.reg i := rfl
@[simp] theorem State.advance_lo (s : State) (k : Nat) (i : RegId) : (s.advance).lo k i = s.lo k i := rfl
@[simp] theorem State.advance_byteAt (s : State) (k : Nat) : (s.advance).byteAt k = s.byteAt k := rfl
@[simp] theorem State.advance_ioCell (s : State) (k : IoCell) : (s.advance).ioCell k = s.ioCell k := rfl

/-! ## `State.jumpTo` -/

@[simp] theorem State.jumpTo_regs (s : State) (t : Word) : (s.jumpTo t).regs = s.regs := rfl
@[simp] theorem State.jumpTo_pc (s : State) (t : Word) : (s.jumpTo t).pc = t := rfl
@[simp] theorem State.jumpTo_sp (s : State) (t : Word) : (s.jumpTo t).sp = s.sp := rfl
@[simp] theorem State.jumpTo_z (s : State) (t : Word) : (s.jumpTo t).z = s.z := rfl
@[simp] theorem State.jumpTo_n (s : State) (t : Word) : (s.jumpTo t).n = s.n := rfl
@[simp] theorem State.jumpTo_run (s : State) (t : Word) : (s.jumpTo t).run = s.run := rfl
@[simp] theorem State.jumpTo_mem (s : State) (t : Word) : (s.jumpTo t).mem = s.mem := rfl
@[simp] theorem State.jumpTo_io (s : State) (t : Word) : (s.jumpTo t).io = s.io := rfl
@[simp] theorem State.jumpTo_trace (s : State) (t : Word) : (s.jumpTo t).trace = s.trace := rfl
@[simp] theorem State.jumpTo_params (s : State) (t : Word) : (s.jumpTo t).params = s.params := rfl
@[simp] theorem State.jumpTo_draws (s : State) (t : Word) : (s.jumpTo t).draws = s.draws := rfl
@[simp] theorem State.jumpTo_reg (s : State) (t : Word) (i : RegId) : (s.jumpTo t).reg i = s.reg i := rfl
@[simp] theorem State.jumpTo_lo (s : State) (t : Word) (k : Nat) (i : RegId) : (s.jumpTo t).lo k i = s.lo k i := rfl
@[simp] theorem State.jumpTo_byteAt (s : State) (t : Word) (k : Nat) : (s.jumpTo t).byteAt k = s.byteAt k := rfl
@[simp] theorem State.jumpTo_ioCell (s : State) (t : Word) (k : IoCell) : (s.jumpTo t).ioCell k = s.ioCell k := rfl

/-! ## `State.raise` -/

@[simp] theorem State.raise_regs (s : State) (f : Fault) : (s.raise f).regs = s.regs := rfl
@[simp] theorem State.raise_pc (s : State) (f : Fault) : (s.raise f).pc = s.pc := rfl
@[simp] theorem State.raise_sp (s : State) (f : Fault) : (s.raise f).sp = s.sp := rfl
@[simp] theorem State.raise_z (s : State) (f : Fault) : (s.raise f).z = s.z := rfl
@[simp] theorem State.raise_n (s : State) (f : Fault) : (s.raise f).n = s.n := rfl
@[simp] theorem State.raise_run (s : State) (f : Fault) : (s.raise f).run = .faulted f := rfl
@[simp] theorem State.raise_mem (s : State) (f : Fault) : (s.raise f).mem = s.mem := rfl
@[simp] theorem State.raise_io (s : State) (f : Fault) : (s.raise f).io = s.io := rfl
@[simp] theorem State.raise_trace (s : State) (f : Fault) : (s.raise f).trace = s.trace := rfl
@[simp] theorem State.raise_params (s : State) (f : Fault) : (s.raise f).params = s.params := rfl
@[simp] theorem State.raise_draws (s : State) (f : Fault) : (s.raise f).draws = s.draws := rfl
@[simp] theorem State.raise_reg (s : State) (f : Fault) (i : RegId) : (s.raise f).reg i = s.reg i := rfl
@[simp] theorem State.raise_lo (s : State) (f : Fault) (k : Nat) (i : RegId) : (s.raise f).lo k i = s.lo k i := rfl
@[simp] theorem State.raise_byteAt (s : State) (f : Fault) (k : Nat) : (s.raise f).byteAt k = s.byteAt k := rfl
@[simp] theorem State.raise_ioCell (s : State) (f : Fault) (k : IoCell) : (s.raise f).ioCell k = s.ioCell k := rfl

/-! ## `State.halt` -/

@[simp] theorem State.halt_regs (s : State) : (s.halt).regs = s.regs := rfl
@[simp] theorem State.halt_pc (s : State) : (s.halt).pc = s.pc := rfl
@[simp] theorem State.halt_sp (s : State) : (s.halt).sp = s.sp := rfl
@[simp] theorem State.halt_z (s : State) : (s.halt).z = s.z := rfl
@[simp] theorem State.halt_n (s : State) : (s.halt).n = s.n := rfl
@[simp] theorem State.halt_run (s : State) : (s.halt).run = .halted := rfl
@[simp] theorem State.halt_mem (s : State) : (s.halt).mem = s.mem := rfl
@[simp] theorem State.halt_io (s : State) : (s.halt).io = s.io := rfl
@[simp] theorem State.halt_trace (s : State) : (s.halt).trace = s.trace := rfl
@[simp] theorem State.halt_params (s : State) : (s.halt).params = s.params := rfl
@[simp] theorem State.halt_draws (s : State) : (s.halt).draws = s.draws := rfl
@[simp] theorem State.halt_reg (s : State) (i : RegId) : (s.halt).reg i = s.reg i := rfl
@[simp] theorem State.halt_lo (s : State) (k : Nat) (i : RegId) : (s.halt).lo k i = s.lo k i := rfl
@[simp] theorem State.halt_byteAt (s : State) (k : Nat) : (s.halt).byteAt k = s.byteAt k := rfl
@[simp] theorem State.halt_ioCell (s : State) (k : IoCell) : (s.halt).ioCell k = s.ioCell k := rfl

/-! ## `State.storeAt` -/

@[simp] theorem State.storeAt_regs (s : State) {w : Nat} (a : Word) (v : BitVec w) : (s.storeAt a v).regs = s.regs := rfl
@[simp] theorem State.storeAt_pc (s : State) {w : Nat} (a : Word) (v : BitVec w) : (s.storeAt a v).pc = s.pc := rfl
@[simp] theorem State.storeAt_sp (s : State) {w : Nat} (a : Word) (v : BitVec w) : (s.storeAt a v).sp = s.sp := rfl
@[simp] theorem State.storeAt_z (s : State) {w : Nat} (a : Word) (v : BitVec w) : (s.storeAt a v).z = s.z := rfl
@[simp] theorem State.storeAt_n (s : State) {w : Nat} (a : Word) (v : BitVec w) : (s.storeAt a v).n = s.n := rfl
@[simp] theorem State.storeAt_run (s : State) {w : Nat} (a : Word) (v : BitVec w) : (s.storeAt a v).run = s.run := rfl
@[simp] theorem State.storeAt_mem (s : State) {w : Nat} (a : Word) (v : BitVec w) : (s.storeAt a v).mem = writeBytes s.mem a.toNat (bytesOfValue s.params.endian (w / 8) v) := rfl
@[simp] theorem State.storeAt_io (s : State) {w : Nat} (a : Word) (v : BitVec w) : (s.storeAt a v).io = s.io := rfl
@[simp] theorem State.storeAt_trace (s : State) {w : Nat} (a : Word) (v : BitVec w) : (s.storeAt a v).trace = s.trace := rfl
@[simp] theorem State.storeAt_params (s : State) {w : Nat} (a : Word) (v : BitVec w) : (s.storeAt a v).params = s.params := rfl
@[simp] theorem State.storeAt_draws (s : State) {w : Nat} (a : Word) (v : BitVec w) : (s.storeAt a v).draws = s.draws := rfl
@[simp] theorem State.storeAt_reg (s : State) {w : Nat} (a : Word) (v : BitVec w) (i : RegId) : (s.storeAt a v).reg i = s.reg i := rfl
@[simp] theorem State.storeAt_lo (s : State) {w : Nat} (a : Word) (v : BitVec w) (k : Nat) (i : RegId) : (s.storeAt a v).lo k i = s.lo k i := rfl
@[simp] theorem State.storeAt_ioCell (s : State) {w : Nat} (a : Word) (v : BitVec w) (k : IoCell) : (s.storeAt a v).ioCell k = s.ioCell k := rfl

/-! ## `State.setSp` -/

@[simp] theorem State.setSp_regs (s : State) (v : Word) : (s.setSp v).regs = s.regs := rfl
@[simp] theorem State.setSp_pc (s : State) (v : Word) : (s.setSp v).pc = s.pc := rfl
@[simp] theorem State.setSp_sp (s : State) (v : Word) : (s.setSp v).sp = v := rfl
@[simp] theorem State.setSp_z (s : State) (v : Word) : (s.setSp v).z = s.z := rfl
@[simp] theorem State.setSp_n (s : State) (v : Word) : (s.setSp v).n = s.n := rfl
@[simp] theorem State.setSp_run (s : State) (v : Word) : (s.setSp v).run = s.run := rfl
@[simp] theorem State.setSp_mem (s : State) (v : Word) : (s.setSp v).mem = s.mem := rfl
@[simp] theorem State.setSp_io (s : State) (v : Word) : (s.setSp v).io = s.io := rfl
@[simp] theorem State.setSp_trace (s : State) (v : Word) : (s.setSp v).trace = s.trace := rfl
@[simp] theorem State.setSp_params (s : State) (v : Word) : (s.setSp v).params = s.params := rfl
@[simp] theorem State.setSp_draws (s : State) (v : Word) : (s.setSp v).draws = s.draws := rfl
@[simp] theorem State.setSp_reg (s : State) (v : Word) (i : RegId) : (s.setSp v).reg i = s.reg i := rfl
@[simp] theorem State.setSp_lo (s : State) (v : Word) (k : Nat) (i : RegId) : (s.setSp v).lo k i = s.lo k i := rfl
@[simp] theorem State.setSp_byteAt (s : State) (v : Word) (k : Nat) : (s.setSp v).byteAt k = s.byteAt k := rfl
@[simp] theorem State.setSp_ioCell (s : State) (v : Word) (k : IoCell) : (s.setSp v).ioCell k = s.ioCell k := rfl

/-! ## `State.ioWrite` -/

@[simp] theorem State.ioWrite_regs (s : State) (c : IoCell) (v : Word) : (s.ioWrite c v).regs = s.regs := rfl
@[simp] theorem State.ioWrite_pc (s : State) (c : IoCell) (v : Word) : (s.ioWrite c v).pc = s.pc := rfl
@[simp] theorem State.ioWrite_sp (s : State) (c : IoCell) (v : Word) : (s.ioWrite c v).sp = s.sp := rfl
@[simp] theorem State.ioWrite_z (s : State) (c : IoCell) (v : Word) : (s.ioWrite c v).z = s.z := rfl
@[simp] theorem State.ioWrite_n (s : State) (c : IoCell) (v : Word) : (s.ioWrite c v).n = s.n := rfl
@[simp] theorem State.ioWrite_run (s : State) (c : IoCell) (v : Word) : (s.ioWrite c v).run = s.run := rfl
@[simp] theorem State.ioWrite_mem (s : State) (c : IoCell) (v : Word) : (s.ioWrite c v).mem = s.mem := rfl
@[simp] theorem State.ioWrite_io (s : State) (c : IoCell) (v : Word) : (s.ioWrite c v).io = sparseWrite s.io c.toNat v := rfl
@[simp] theorem State.ioWrite_trace (s : State) (c : IoCell) (v : Word) : (s.ioWrite c v).trace = s.trace := rfl
@[simp] theorem State.ioWrite_params (s : State) (c : IoCell) (v : Word) : (s.ioWrite c v).params = s.params := rfl
@[simp] theorem State.ioWrite_draws (s : State) (c : IoCell) (v : Word) : (s.ioWrite c v).draws = s.draws := rfl
@[simp] theorem State.ioWrite_reg (s : State) (c : IoCell) (v : Word) (i : RegId) : (s.ioWrite c v).reg i = s.reg i := rfl
@[simp] theorem State.ioWrite_lo (s : State) (c : IoCell) (v : Word) (k : Nat) (i : RegId) : (s.ioWrite c v).lo k i = s.lo k i := rfl
@[simp] theorem State.ioWrite_byteAt (s : State) (c : IoCell) (v : Word) (k : Nat) : (s.ioWrite c v).byteAt k = s.byteAt k := rfl

/-! ## `State.clearInputs` -/

@[simp] theorem State.clearInputs_regs (s : State) : (s.clearInputs).regs = s.regs := rfl
@[simp] theorem State.clearInputs_pc (s : State) : (s.clearInputs).pc = s.pc := rfl
@[simp] theorem State.clearInputs_sp (s : State) : (s.clearInputs).sp = s.sp := rfl
@[simp] theorem State.clearInputs_z (s : State) : (s.clearInputs).z = s.z := rfl
@[simp] theorem State.clearInputs_n (s : State) : (s.clearInputs).n = s.n := rfl
@[simp] theorem State.clearInputs_run (s : State) : (s.clearInputs).run = s.run := rfl
@[simp] theorem State.clearInputs_mem (s : State) : (s.clearInputs).mem = s.mem := rfl
@[simp] theorem State.clearInputs_io (s : State) : (s.clearInputs).io = s.io.filter fun e => !isInput s.params e.1 := rfl
@[simp] theorem State.clearInputs_trace (s : State) : (s.clearInputs).trace = s.trace := rfl
@[simp] theorem State.clearInputs_params (s : State) : (s.clearInputs).params = s.params := rfl
@[simp] theorem State.clearInputs_draws (s : State) : (s.clearInputs).draws = s.draws := rfl
@[simp] theorem State.clearInputs_reg (s : State) (i : RegId) : (s.clearInputs).reg i = s.reg i := rfl
@[simp] theorem State.clearInputs_lo (s : State) (k : Nat) (i : RegId) : (s.clearInputs).lo k i = s.lo k i := rfl
@[simp] theorem State.clearInputs_byteAt (s : State) (k : Nat) : (s.clearInputs).byteAt k = s.byteAt k := rfl

/-! ## `State.clearIo` -/

@[simp] theorem State.clearIo_regs (s : State) : (s.clearIo).regs = s.regs := rfl
@[simp] theorem State.clearIo_pc (s : State) : (s.clearIo).pc = s.pc := rfl
@[simp] theorem State.clearIo_sp (s : State) : (s.clearIo).sp = s.sp := rfl
@[simp] theorem State.clearIo_z (s : State) : (s.clearIo).z = s.z := rfl
@[simp] theorem State.clearIo_n (s : State) : (s.clearIo).n = s.n := rfl
@[simp] theorem State.clearIo_run (s : State) : (s.clearIo).run = s.run := rfl
@[simp] theorem State.clearIo_mem (s : State) : (s.clearIo).mem = s.mem := rfl
@[simp] theorem State.clearIo_io (s : State) : (s.clearIo).io = [] := rfl
@[simp] theorem State.clearIo_trace (s : State) : (s.clearIo).trace = s.trace := rfl
@[simp] theorem State.clearIo_params (s : State) : (s.clearIo).params = s.params := rfl
@[simp] theorem State.clearIo_draws (s : State) : (s.clearIo).draws = s.draws := rfl
@[simp] theorem State.clearIo_reg (s : State) (i : RegId) : (s.clearIo).reg i = s.reg i := rfl
@[simp] theorem State.clearIo_lo (s : State) (k : Nat) (i : RegId) : (s.clearIo).lo k i = s.lo k i := rfl
@[simp] theorem State.clearIo_byteAt (s : State) (k : Nat) : (s.clearIo).byteAt k = s.byteAt k := rfl

/-! ## `State.emit` -/

@[simp] theorem State.emit_regs (s : State) (e : Event) : (s.emit e).regs = s.regs := rfl
@[simp] theorem State.emit_pc (s : State) (e : Event) : (s.emit e).pc = s.pc := rfl
@[simp] theorem State.emit_sp (s : State) (e : Event) : (s.emit e).sp = s.sp := rfl
@[simp] theorem State.emit_z (s : State) (e : Event) : (s.emit e).z = s.z := rfl
@[simp] theorem State.emit_n (s : State) (e : Event) : (s.emit e).n = s.n := rfl
@[simp] theorem State.emit_run (s : State) (e : Event) : (s.emit e).run = s.run := rfl
@[simp] theorem State.emit_mem (s : State) (e : Event) : (s.emit e).mem = s.mem := rfl
@[simp] theorem State.emit_io (s : State) (e : Event) : (s.emit e).io = s.io := rfl
@[simp] theorem State.emit_trace (s : State) (e : Event) : (s.emit e).trace = s.trace ++ [e] := rfl
@[simp] theorem State.emit_params (s : State) (e : Event) : (s.emit e).params = s.params := rfl
@[simp] theorem State.emit_draws (s : State) (e : Event) : (s.emit e).draws = s.draws := rfl
@[simp] theorem State.emit_reg (s : State) (e : Event) (i : RegId) : (s.emit e).reg i = s.reg i := rfl
@[simp] theorem State.emit_lo (s : State) (e : Event) (k : Nat) (i : RegId) : (s.emit e).lo k i = s.lo k i := rfl
@[simp] theorem State.emit_byteAt (s : State) (e : Event) (k : Nat) : (s.emit e).byteAt k = s.byteAt k := rfl
@[simp] theorem State.emit_ioCell (s : State) (e : Event) (k : IoCell) : (s.emit e).ioCell k = s.ioCell k := rfl

/-! ## `State.setZN` -/

@[simp] theorem State.setZN_regs (s : State) {w : Nat} (r : BitVec w) : (s.setZN r).regs = s.regs := rfl
@[simp] theorem State.setZN_pc (s : State) {w : Nat} (r : BitVec w) : (s.setZN r).pc = s.pc := rfl
@[simp] theorem State.setZN_sp (s : State) {w : Nat} (r : BitVec w) : (s.setZN r).sp = s.sp := rfl
@[simp] theorem State.setZN_z (s : State) {w : Nat} (r : BitVec w) : (s.setZN r).z = decide (r = 0#w) := rfl
@[simp] theorem State.setZN_n (s : State) {w : Nat} (r : BitVec w) : (s.setZN r).n = r.msb := rfl
@[simp] theorem State.setZN_run (s : State) {w : Nat} (r : BitVec w) : (s.setZN r).run = s.run := rfl
@[simp] theorem State.setZN_mem (s : State) {w : Nat} (r : BitVec w) : (s.setZN r).mem = s.mem := rfl
@[simp] theorem State.setZN_io (s : State) {w : Nat} (r : BitVec w) : (s.setZN r).io = s.io := rfl
@[simp] theorem State.setZN_trace (s : State) {w : Nat} (r : BitVec w) : (s.setZN r).trace = s.trace := rfl
@[simp] theorem State.setZN_params (s : State) {w : Nat} (r : BitVec w) : (s.setZN r).params = s.params := rfl
@[simp] theorem State.setZN_draws (s : State) {w : Nat} (r : BitVec w) : (s.setZN r).draws = s.draws := rfl
@[simp] theorem State.setZN_reg (s : State) {w : Nat} (r : BitVec w) (i : RegId) : (s.setZN r).reg i = s.reg i := rfl
@[simp] theorem State.setZN_lo (s : State) {w : Nat} (r : BitVec w) (k : Nat) (i : RegId) : (s.setZN r).lo k i = s.lo k i := rfl
@[simp] theorem State.setZN_byteAt (s : State) {w : Nat} (r : BitVec w) (k : Nat) : (s.setZN r).byteAt k = s.byteAt k := rfl
@[simp] theorem State.setZN_ioCell (s : State) {w : Nat} (r : BitVec w) (k : IoCell) : (s.setZN r).ioCell k = s.ioCell k := rfl

/-! ## Registers -/

@[simp] theorem State.reg_setReg_self (s : State) (r : RegId) (v : Word) : (s.setReg r v).reg r = v := by
  simp [State.reg]

theorem State.reg_setReg_ne (s : State) {r i : RegId} (v : Word) (h : i ≠ r) : (s.setReg r v).reg i = s.reg i := by
  have hn : r.toNat ≠ i.toNat := fun e => h (BitVec.eq_of_toNat_eq e.symm)
  simp [State.reg, Vector.getElem_set_ne, hn]

/-! ## Conditional updates: what they leave alone -/

@[simp] theorem State.writeSized_pc (s : State) {w : Nat} (d : RegId) (r : BitVec w) : (s.writeSized d r).pc = s.pc := by
  unfold State.writeSized; repeat (first | rfl | split)

@[simp] theorem State.writeSized_sp (s : State) {w : Nat} (d : RegId) (r : BitVec w) : (s.writeSized d r).sp = s.sp := by
  unfold State.writeSized; repeat (first | rfl | split)

@[simp] theorem State.writeSized_z (s : State) {w : Nat} (d : RegId) (r : BitVec w) : (s.writeSized d r).z = s.z := by
  unfold State.writeSized; repeat (first | rfl | split)

@[simp] theorem State.writeSized_n (s : State) {w : Nat} (d : RegId) (r : BitVec w) : (s.writeSized d r).n = s.n := by
  unfold State.writeSized; repeat (first | rfl | split)

@[simp] theorem State.writeSized_run (s : State) {w : Nat} (d : RegId) (r : BitVec w) : (s.writeSized d r).run = s.run := by
  unfold State.writeSized; repeat (first | rfl | split)

@[simp] theorem State.writeSized_mem (s : State) {w : Nat} (d : RegId) (r : BitVec w) : (s.writeSized d r).mem = s.mem := by
  unfold State.writeSized; repeat (first | rfl | split)

@[simp] theorem State.writeSized_io (s : State) {w : Nat} (d : RegId) (r : BitVec w) : (s.writeSized d r).io = s.io := by
  unfold State.writeSized; repeat (first | rfl | split)

@[simp] theorem State.writeSized_trace (s : State) {w : Nat} (d : RegId) (r : BitVec w) : (s.writeSized d r).trace = s.trace := by
  unfold State.writeSized; repeat (first | rfl | split)

@[simp] theorem State.writeSized_params (s : State) {w : Nat} (d : RegId) (r : BitVec w) : (s.writeSized d r).params = s.params := by
  unfold State.writeSized; repeat (first | rfl | split)

@[simp] theorem State.writeSized_byteAt (s : State) {w : Nat} (d : RegId) (r : BitVec w) (k : Nat) : (s.writeSized d r).byteAt k = s.byteAt k := by
  unfold State.writeSized; repeat (first | rfl | split)

@[simp] theorem State.writeSized_ioCell (s : State) {w : Nat} (d : RegId) (r : BitVec w) (k : IoCell) : (s.writeSized d r).ioCell k = s.ioCell k := by
  unfold State.writeSized; repeat (first | rfl | split)

@[simp] theorem State.flagsALU_regs (s : State) {w : Nat} (r : BitVec w) : (s.flagsALU r).regs = s.regs := by
  unfold State.flagsALU; repeat (first | rfl | split)

@[simp] theorem State.flagsALU_pc (s : State) {w : Nat} (r : BitVec w) : (s.flagsALU r).pc = s.pc := by
  unfold State.flagsALU; repeat (first | rfl | split)

@[simp] theorem State.flagsALU_sp (s : State) {w : Nat} (r : BitVec w) : (s.flagsALU r).sp = s.sp := by
  unfold State.flagsALU; repeat (first | rfl | split)

@[simp] theorem State.flagsALU_run (s : State) {w : Nat} (r : BitVec w) : (s.flagsALU r).run = s.run := by
  unfold State.flagsALU; repeat (first | rfl | split)

@[simp] theorem State.flagsALU_mem (s : State) {w : Nat} (r : BitVec w) : (s.flagsALU r).mem = s.mem := by
  unfold State.flagsALU; repeat (first | rfl | split)

@[simp] theorem State.flagsALU_io (s : State) {w : Nat} (r : BitVec w) : (s.flagsALU r).io = s.io := by
  unfold State.flagsALU; repeat (first | rfl | split)

@[simp] theorem State.flagsALU_trace (s : State) {w : Nat} (r : BitVec w) : (s.flagsALU r).trace = s.trace := by
  unfold State.flagsALU; repeat (first | rfl | split)

@[simp] theorem State.flagsALU_params (s : State) {w : Nat} (r : BitVec w) : (s.flagsALU r).params = s.params := by
  unfold State.flagsALU; repeat (first | rfl | split)

@[simp] theorem State.flagsALU_reg (s : State) {w : Nat} (r : BitVec w) (i : RegId) : (s.flagsALU r).reg i = s.reg i := by
  unfold State.flagsALU; repeat (first | rfl | split)

@[simp] theorem State.flagsALU_byteAt (s : State) {w : Nat} (r : BitVec w) (k : Nat) : (s.flagsALU r).byteAt k = s.byteAt k := by
  unfold State.flagsALU; repeat (first | rfl | split)

@[simp] theorem State.flagsALU_ioCell (s : State) {w : Nat} (r : BitVec w) (k : IoCell) : (s.flagsALU r).ioCell k = s.ioCell k := by
  unfold State.flagsALU; repeat (first | rfl | split)

@[simp] theorem State.ioReadState_regs (s : State) (c : IoCell) : (s.ioReadState c).regs = s.regs := by
  unfold State.ioReadState; repeat (first | rfl | split)

@[simp] theorem State.ioReadState_pc (s : State) (c : IoCell) : (s.ioReadState c).pc = s.pc := by
  unfold State.ioReadState; repeat (first | rfl | split)

@[simp] theorem State.ioReadState_sp (s : State) (c : IoCell) : (s.ioReadState c).sp = s.sp := by
  unfold State.ioReadState; repeat (first | rfl | split)

@[simp] theorem State.ioReadState_z (s : State) (c : IoCell) : (s.ioReadState c).z = s.z := by
  unfold State.ioReadState; repeat (first | rfl | split)

@[simp] theorem State.ioReadState_n (s : State) (c : IoCell) : (s.ioReadState c).n = s.n := by
  unfold State.ioReadState; repeat (first | rfl | split)

@[simp] theorem State.ioReadState_run (s : State) (c : IoCell) : (s.ioReadState c).run = s.run := by
  unfold State.ioReadState; repeat (first | rfl | split)

@[simp] theorem State.ioReadState_mem (s : State) (c : IoCell) : (s.ioReadState c).mem = s.mem := by
  unfold State.ioReadState; repeat (first | rfl | split)

@[simp] theorem State.ioReadState_trace (s : State) (c : IoCell) : (s.ioReadState c).trace = s.trace := by
  unfold State.ioReadState; repeat (first | rfl | split)

@[simp] theorem State.ioReadState_params (s : State) (c : IoCell) : (s.ioReadState c).params = s.params := by
  unfold State.ioReadState; repeat (first | rfl | split)

@[simp] theorem State.ioReadState_reg (s : State) (c : IoCell) (i : RegId) : (s.ioReadState c).reg i = s.reg i := by
  unfold State.ioReadState; repeat (first | rfl | split)

@[simp] theorem State.ioReadState_byteAt (s : State) (c : IoCell) (k : Nat) : (s.ioReadState c).byteAt k = s.byteAt k := by
  unfold State.ioReadState; repeat (first | rfl | split)

/-- `WriteSized` writes no register but `Rd` (R22). -/
theorem State.writeSized_reg_ne (s : State) {w : Nat} {d i : RegId} (r : BitVec w) (h : i ≠ d) :
    (s.writeSized d r).reg i = s.reg i := by
  unfold State.writeSized
  split
  · exact s.reg_setReg_ne _ h
  · split <;> exact s.reg_setReg_ne _ h

/-- `WriteSized` at n = 8 writes all of `Rd` and draws nothing (R10). -/
@[simp] theorem State.writeSized_64 (s : State) (d : RegId) (r : BitVec 64) : s.writeSized d r = s.setReg d r := by
  simp [State.writeSized]

end Sys2Proof.Machine
end

