-- ==== Sys2Proof/Laws/Memory.lean ====
section
/-! SUPPORT. Sparse data: reading after writing, and the canonical form kept by every memory and I/O operation; the bytes
of a value and the value of bytes. -/

namespace Sys2Proof.Machine

variable {w : Nat}

/-! ## Reading after writing -/

theorem sparseRead_erase_self (m : List (Nat × BitVec w)) (k : Nat) : sparseRead (sparseErase m k) k = 0#w := by
  induction m with
  | nil => rfl
  | cons e rest ih =>
    obtain ⟨j, u⟩ := e
    by_cases h : j = k <;> simp_all [sparseErase, sparseRead]

theorem sparseRead_erase_ne (m : List (Nat × BitVec w)) {k i : Nat} (h : i ≠ k) :
    sparseRead (sparseErase m k) i = sparseRead m i := by
  induction m with
  | nil => rfl
  | cons e rest ih =>
    obtain ⟨j, u⟩ := e
    by_cases hj : j = k
    · have : j ≠ i := fun e => h (e.symm.trans hj)
      simp_all [sparseErase, sparseRead]
    · by_cases hi : j = i <;> simp_all [sparseErase, sparseRead]

theorem sparseRead_insert_self (m : List (Nat × BitVec w)) (k : Nat) (v : BitVec w) (h : ∀ e ∈ m, e.1 ≠ k) :
    sparseRead (sparseInsert k v m) k = v := by
  induction m with
  | nil => simp [sparseInsert, sparseRead]
  | cons e rest ih =>
    obtain ⟨j, u⟩ := e
    have hj : j ≠ k := h (j, u) (by simp)
    have ih := ih fun e he => h e (by simp [he])
    unfold sparseInsert
    split
    · simp [sparseRead]
    · simp [sparseRead, hj, ih]

theorem sparseRead_insert_ne (m : List (Nat × BitVec w)) {k i : Nat} (v : BitVec w) (h : i ≠ k) :
    sparseRead (sparseInsert k v m) i = sparseRead m i := by
  induction m with
  | nil => simp [sparseInsert, sparseRead, h.symm]
  | cons e rest ih =>
    obtain ⟨j, u⟩ := e
    unfold sparseInsert
    split
    · simp [sparseRead, h.symm]
    · simp [sparseRead, ih]

theorem mem_sparseErase {m : List (Nat × BitVec w)} {k : Nat} {e : Nat × BitVec w} (h : e ∈ sparseErase m k) :
    e ∈ m ∧ e.1 ≠ k := by simpa [sparseErase] using h

/-- A key reads back what was written to it, whatever the list. -/
@[simp] theorem sparseRead_write_self (m : List (Nat × BitVec w)) (k : Nat) (v : BitVec w) :
    sparseRead (sparseWrite m k v) k = v := by
  unfold sparseWrite
  split
  · next h => rw [sparseRead_erase_self, h]
  · exact sparseRead_insert_self _ _ _ fun e he => (mem_sparseErase he).2

/-- A write leaves every other key alone. -/
theorem sparseRead_write_ne (m : List (Nat × BitVec w)) {k i : Nat} (v : BitVec w) (h : i ≠ k) :
    sparseRead (sparseWrite m k v) i = sparseRead m i := by
  unfold sparseWrite
  split
  · exact sparseRead_erase_ne m h
  · rw [sparseRead_insert_ne _ _ h, sparseRead_erase_ne m h]

/-- What a key reads when only entries passing `p` are kept. -/
theorem sparseRead_filter (m : List (Nat × BitVec w)) (p : Nat → Bool) (i : Nat) :
    sparseRead (m.filter fun e => p e.1) i = if p i then sparseRead m i else 0#w := by
  induction m with
  | nil => simp [sparseRead]
  | cons e rest ih =>
    obtain ⟨j, u⟩ := e
    by_cases hj : p j <;> by_cases hi : j = i <;> simp_all [sparseRead]

/-! ## The canonical form -/

theorem sparseWf_cons {bound k : Nat} {v : BitVec w} {rest : List (Nat × BitVec w)} :
    sparseWf bound ((k, v) :: rest) = true ↔
      k < bound ∧ v ≠ 0#w ∧ (∀ e ∈ rest, k < e.1) ∧ sparseWf bound rest = true := by
  simp [sparseWf, and_assoc]

theorem sparseWf_filter {bound : Nat} {m : List (Nat × BitVec w)} (p : Nat × BitVec w → Bool)
    (h : sparseWf bound m = true) : sparseWf bound (m.filter p) = true := by
  induction m with
  | nil => exact h
  | cons e rest ih =>
    obtain ⟨j, u⟩ := e
    obtain ⟨h1, h2, h3, h4⟩ := sparseWf_cons.1 h
    by_cases hp : p (j, u)
    · rw [List.filter_cons_of_pos hp, sparseWf_cons]
      exact ⟨h1, h2, fun e he => h3 e (List.mem_of_mem_filter he), ih h4⟩
    · rw [List.filter_cons_of_neg hp]
      exact ih h4

theorem mem_sparseInsert {m : List (Nat × BitVec w)} {k : Nat} {v : BitVec w} {e : Nat × BitVec w}
    (h : e ∈ sparseInsert k v m) : e = (k, v) ∨ e ∈ m := by
  induction m with
  | nil => simpa [sparseInsert] using h
  | cons e' rest ih =>
    obtain ⟨j, u⟩ := e'
    by_cases hk : k < j
    · simpa [sparseInsert, hk] using h
    · simp only [sparseInsert, hk, if_false, List.mem_cons] at h
      rcases h with h | h
      · exact .inr (by simp [h])
      · exact (ih h).imp id fun h => by simp [h]

theorem sparseWf_insert {bound k : Nat} {v : BitVec w} {m : List (Nat × BitVec w)} (hk : k < bound) (hv : v ≠ 0#w)
    (hm : ∀ e ∈ m, e.1 ≠ k) (h : sparseWf bound m = true) : sparseWf bound (sparseInsert k v m) = true := by
  induction m with
  | nil => simp [sparseInsert, sparseWf, hk, hv]
  | cons e rest ih =>
    obtain ⟨j, u⟩ := e
    obtain ⟨h1, h2, h3, h4⟩ := sparseWf_cons.1 h
    by_cases hj : k < j
    · simp only [sparseInsert, hj, if_true, sparseWf_cons]
      refine ⟨hk, hv, fun e he => ?_, h1, h2, h3, h4⟩
      rcases List.mem_cons.1 he with rfl | he
      · exact hj
      · exact hj.trans (h3 e he)
    · simp only [sparseInsert, hj, if_false, sparseWf_cons]
      refine ⟨h1, h2, fun e he => ?_, ih (fun e he => hm e (by simp [he])) h4⟩
      rcases mem_sparseInsert he with rfl | he
      · have := hm (j, u) (by simp)
        simp only [ne_eq] at this ⊢
        omega
      · exact h3 e he

/-- A write below the bound keeps the canonical form. -/
theorem sparseWf_write {bound k : Nat} {m : List (Nat × BitVec w)} (v : BitVec w) (hk : k < bound)
    (h : sparseWf bound m = true) : sparseWf bound (sparseWrite m k v) = true := by
  unfold sparseWrite
  split
  · exact sparseWf_filter _ h
  · next hv => exact sparseWf_insert hk hv (fun e he => (mem_sparseErase he).2) (sparseWf_filter _ h)

/-- A key at or above the bound reads 0 in a canonical list. -/
theorem sparseRead_of_wf {bound k : Nat} {m : List (Nat × BitVec w)} (h : sparseWf bound m = true) (hk : bound ≤ k) :
    sparseRead m k = 0#w := by
  induction m with
  | nil => rfl
  | cons e rest ih =>
    obtain ⟨j, u⟩ := e
    obtain ⟨h1, -, -, h4⟩ := sparseWf_cons.1 h
    have : j ≠ k := by omega
    simp [sparseRead, this, ih h4]

/-- `Memoria` keeps its canonical form when bytes are stored inside it. -/
theorem Memory.wf_writeBytes {size a : Nat} {m : Memory} (bs : List Byte) (hi : a + bs.length ≤ size)
    (h : Memory.wf size m = true) : Memory.wf size (writeBytes m a bs) = true := by
  induction bs generalizing m a with
  | nil => exact h
  | cons b bs ih =>
    simp only [List.length_cons] at hi
    exact ih (by omega) (sparseWf_write b (by omega) h)

/-- `IO` keeps its canonical form under `IoWrite`. -/
theorem IoSpace.wf_write {io : IoSpace} (c : IoCell) (v : Word) (h : IoSpace.wf io = true) :
    IoSpace.wf (sparseWrite io c.toNat v) = true := sparseWf_write v c.isLt h

/-- `IO` keeps its canonical form when cells are cleared. -/
theorem IoSpace.wf_filter {io : IoSpace} (p : Nat × Word → Bool) (h : IoSpace.wf io = true) :
    IoSpace.wf (io.filter p) = true := sparseWf_filter p h

/-! ## Runs of bytes -/

@[simp] theorem readBytes_length (m : Memory) (a n : Nat) : (readBytes m a n).length = n := by
  induction n generalizing a <;> simp_all [readBytes]

theorem readBytes_getElem (m : Memory) (a n i : Nat) (h : i < (readBytes m a n).length) :
    (readBytes m a n)[i] = sparseRead m (a + i) := by
  induction n generalizing a i with
  | zero => simp [readBytes] at h
  | succ n ih =>
    cases i with
    | zero => simp [readBytes]
    | succ i =>
      simp only [readBytes, List.getElem_cons_succ]
      rw [ih]
      congr 1
      omega

/-- Bytes outside a stored run are unchanged. -/
theorem sparseRead_writeBytes_outside (m : Memory) (a : Nat) (bs : List Byte) {k : Nat}
    (h : k < a ∨ a + bs.length ≤ k) : sparseRead (writeBytes m a bs) k = sparseRead m k := by
  induction bs generalizing m a with
  | nil => rfl
  | cons b bs ih =>
    simp only [List.length_cons] at h
    simp only [writeBytes]
    rw [ih _ _ (by omega), sparseRead_write_ne _ _ (by omega)]

/-- Byte i of a stored run reads back. -/
theorem sparseRead_writeBytes_inside (m : Memory) (a : Nat) (bs : List Byte) (i : Nat) (h : i < bs.length) :
    sparseRead (writeBytes m a bs) (a + i) = bs[i] := by
  induction bs generalizing m a i with
  | nil => simp at h
  | cons b bs ih =>
    cases i with
    | zero =>
      simp only [writeBytes, Nat.add_zero, List.getElem_cons_zero]
      rw [sparseRead_writeBytes_outside _ _ _ (by omega), sparseRead_write_self]
    | succ i =>
      simp only [writeBytes, List.getElem_cons_succ]
      rw [show a + (i + 1) = a + 1 + i by omega]
      exact ih _ _ _ (by simpa using h)

/-- A stored run reads back whole. -/
theorem readBytes_writeBytes (m : Memory) (a : Nat) (bs : List Byte) :
    readBytes (writeBytes m a bs) a bs.length = bs := by
  apply List.ext_getElem (by simp)
  intro i h1 h2
  rw [readBytes_getElem, sparseRead_writeBytes_inside]

/-! ## Values and bytes -/

@[simp] theorem bytesOfNat_length (n v : Nat) : (bytesOfNat n v).length = n := by
  induction n generalizing v <;> simp_all [bytesOfNat]

@[simp] theorem orderBytes_length (e : Endian) (bs : List Byte) : (orderBytes e bs).length = bs.length := by
  cases e <;> simp [orderBytes]

@[simp] theorem bytesOfValue_length {k : Nat} (e : Endian) (n : Nat) (v : BitVec k) :
    (bytesOfValue e n v).length = n := by simp [bytesOfValue]

/-- Putting bytes in address order is its own inverse. -/
@[simp] theorem orderBytes_orderBytes (e : Endian) (bs : List Byte) : orderBytes e (orderBytes e bs) = bs := by
  cases e <;> simp [orderBytes]

/-- The value of the n low bytes of v is v mod 2^(8n). -/
theorem natOfBytes_bytesOfNat (n v : Nat) : natOfBytes (bytesOfNat n v) = v % 256 ^ n := by
  induction n generalizing v with
  | zero => simp [bytesOfNat, natOfBytes, Nat.mod_one]
  | succ n ih =>
    have h8 : (2 : Nat) ^ 8 = 256 := rfl
    rw [bytesOfNat, natOfBytes, ih, BitVec.toNat_ofNat, h8, Nat.pow_succ, Nat.mul_comm (256 ^ n) 256, Nat.mod_mul]

/-- Byte i of a value is its bits 8i+7:8i (R54). -/
theorem bytesOfNat_getElem (n v i : Nat) (h : i < (bytesOfNat n v).length) :
    (bytesOfNat n v)[i] = BitVec.ofNat 8 (v / 256 ^ i) := by
  induction n generalizing v i with
  | zero => simp [bytesOfNat] at h
  | succ n ih =>
    cases i with
    | zero => simp [bytesOfNat]
    | succ i =>
      simp only [bytesOfNat, List.getElem_cons_succ]
      rw [ih, Nat.div_div_eq_div_mul, Nat.pow_succ, Nat.mul_comm]

/-- Assembling the bytes of a value of 8n bits gives it back, under either byte order. -/
theorem valueOfBytes_bytesOfValue (e : Endian) (n : Nat) (v : BitVec (8 * n)) :
    valueOfBytes (8 * n) e (bytesOfValue e n v) = v := by
  have h : v.toNat < 256 ^ n := by simpa [Nat.pow_mul] using v.isLt
  apply BitVec.eq_of_toNat_eq
  simp only [valueOfBytes, bytesOfValue, orderBytes_orderBytes, natOfBytes_bytesOfNat, Nat.mod_eq_of_lt h]
  simp

end Sys2Proof.Machine
end

