-- ==== Sys2Proof/Laws/Ops.lean ====
section
/-! SUPPORT. One lemma per shared operation that says once all it can do, so that no proof unfolds the operation. -/

namespace Sys2Proof.Machine

variable {w : Nat}

/-! ## `withUpper`, `WriteSized` (R22) -/

/-- Bit b of `u[63:w] ++ r`: r's below w, u's from w on. -/
theorem withUpper_getLsbD (u : Word) (r : BitVec w) (b : Nat) (hb : b < 64) :
    (withUpper u r).getLsbD b = if b < w then r.getLsbD b else u.getLsbD b := by
  unfold withUpper
  by_cases h : b < w
  · simp [h, hb]
  · have hr : r.getLsbD b = false := BitVec.getLsbD_of_ge r b (by omega)
    simp [h, hb, hr, Nat.add_sub_cancel' (Nat.le_of_not_lt h)]

/-- `WriteSized` below 8 bytes, the four values of `SUBWORD_WRITE` (R22). -/
theorem State.writeSized_cases (s : State) (d : RegId) (r : BitVec w) (hw : w ≠ 64) :
    (s.params.subwordWrite = .zeroExtend ∧ s.writeSized d r = s.setReg d (r.setWidth 64)) ∨
    (s.params.subwordWrite = .preserveUpper ∧ s.writeSized d r = s.setReg d (withUpper (s.reg d) r)) ∨
    (s.params.subwordWrite = .signExtend ∧ s.writeSized d r = s.setReg d (r.signExtend 64)) ∨
    (s.params.subwordWrite = .unspecified ∧
      s.writeSized d r = (s.setReg d (withUpper (Config.freeUpper s.draws) r)).drawn) := by
  unfold State.writeSized
  rw [if_neg hw]
  cases s.params.subwordWrite <;> simp

/-- `WriteSized` leaves in `Rd` what R22 says, bit by bit, at every width up to 8 bytes. -/
theorem State.writeSized_reg (s : State) (d : RegId) (r : BitVec w) (h0 : 0 < w) (h : w ≤ 64) :
    RegWritten s (s.writeSized d r) d r := by
  by_cases hw : w = 64
  · subst hw
    refine ⟨by simp, fun b h1 h2 => by omega⟩
  · rcases s.writeSized_cases d r hw with ⟨hp, he⟩ | ⟨hp, he⟩ | ⟨hp, he⟩ | ⟨hp, he⟩ <;> rw [he]
    · refine ⟨?_, fun b h1 h2 => ?_⟩
      · simp only [State.reg_setReg_self]
        apply BitVec.eq_of_getLsbD_eq
        intro b hb
        simp [hb, show b < 64 by omega]
      · rw [hp, State.reg_setReg_self]
        simp [BitVec.getLsbD_of_ge r b h1]
    · refine ⟨?_, fun b h1 h2 => ?_⟩
      · simp only [State.reg_setReg_self]
        apply BitVec.eq_of_getLsbD_eq
        intro b hb
        simp [hb, withUpper_getLsbD _ _ _ (show b < 64 by omega)]
      · rw [hp, State.reg_setReg_self]
        simp [withUpper_getLsbD _ _ _ h2, Nat.not_lt.2 h1]
    · refine ⟨?_, fun b h1 h2 => ?_⟩
      · simp only [State.reg_setReg_self]
        apply BitVec.eq_of_getLsbD_eq
        intro b hb
        simp [hb, BitVec.getElem_signExtend, show b < 64 by omega]
      · rw [hp, State.reg_setReg_self]
        simp [BitVec.getElem_signExtend, h2, Nat.not_lt.2 h1, BitVec.msb_eq_getLsbD_last]
    · refine ⟨?_, fun b h1 h2 => by rw [hp]; trivial⟩
      simp only [State.drawn_reg, State.reg_setReg_self]
      apply BitVec.eq_of_getLsbD_eq
      intro b hb
      simp [hb, withUpper_getLsbD _ _ _ (show b < 64 by omega)]

/-! ## `SetZN`, `FlagsALU` (R29, R30) -/

/-- The flags `SetZN` leaves are those R29 states. -/
theorem State.setZN_flags (s : State) (r : BitVec w) : FlagsOf (s.setZN r) r := by
  refine ⟨?_, by simp [BitVec.msb_eq_getLsbD_last]⟩
  rw [State.setZN_z, decide_eq_true_iff]
  constructor
  · rintro rfl b -
    simp
  · intro h
    apply BitVec.eq_of_getLsbD_eq
    intro b hb
    simp [h b hb]

/-- `FlagsALU` under the three values of `ALU_FLAGS`. -/
theorem State.flagsALU_cases (s : State) (r : BitVec w) :
    (s.params.aluFlags = .result ∧ s.flagsALU r = s.setZN r) ∨
    (s.params.aluFlags = .unchanged ∧ s.flagsALU r = s) ∨
    (s.params.aluFlags = .unspecified ∧ s.flagsALU r =
      { s with z := Config.freeZ s.draws, n := Config.freeN s.draws, draws := s.draws + 1 }) := by
  unfold State.flagsALU
  cases s.params.aluFlags <;> simp

/-- The flags `FlagsALU` leaves are those R30 states. -/
theorem State.flagsALU_flags (s : State) (r : BitVec w) : FlagsByAlu s (s.flagsALU r) r := by
  unfold FlagsByAlu
  rcases s.flagsALU_cases r with ⟨hp, he⟩ | ⟨hp, he⟩ | ⟨hp, he⟩ <;> rw [hp, he]
  · exact s.setZN_flags r
  · exact ⟨rfl, rfl⟩
  · trivial

/-! ## The integer laws (R130 to R132) against core's operations -/

@[simp] theorem addLaw_eq (a b : BitVec w) : addLaw a b = a + b := by
  apply BitVec.eq_of_toNat_eq
  simp [addLaw]

@[simp] theorem mulLaw_eq (a b : BitVec w) : mulLaw a b = a * b := by
  apply BitVec.eq_of_toNat_eq
  simp [mulLaw]

@[simp] theorem subLaw_eq (a b : BitVec w) : subLaw a b = a - b := by
  unfold subLaw
  rw [Int.sub_eq_add_neg, BitVec.ofInt_add, BitVec.ofInt_neg, BitVec.sub_eq_add_neg]
  simp

@[simp] theorem mulsLaw_eq (a b : BitVec w) : mulsLaw a b = a * b := by
  unfold mulsLaw
  rw [BitVec.ofInt_mul, BitVec.ofInt_toInt, BitVec.ofInt_toInt]

/-! ## What every update keeps -/

theorem State.setReg_others (s : State) (d : RegId) (v : Word) : OtherRegsKept d s (s.setReg d v) :=
  fun _ h => s.reg_setReg_ne v h

theorem State.writeSized_others (s : State) (d : RegId) (r : BitVec w) : OtherRegsKept d s (s.writeSized d r) :=
  fun _ h => s.writeSized_reg_ne r h

/-- `WriteSized` and on (R22): all a data transfer does. -/
theorem State.writeSized_effect (s : State) (d : RegId) (r : BitVec w) (h0 : 0 < w) (h : w ≤ 64) :
    MoveEffect s (s.writeSized d r).advance d r :=
  ⟨s.writeSized_reg d r h0 h, by simp [FlagsKept], by simp, s.writeSized_others d r, by simp, by simp [BytesKept],
    by simp [IoKept], by simp [ControlKept]⟩

/-- A register write of 64 bits and on. -/
theorem State.setReg_effect (s : State) (d : RegId) (v : Word) : MoveEffect s (s.setReg d v).advance d v := by
  simpa using s.writeSized_effect d v (by decide) (by decide)

/-- `aluResult`: all an arithmetic, logic or shift instruction does. -/
theorem State.aluResult_effect (s : State) (d : RegId) (r : BitVec w) (h0 : 0 < w) (h : w ≤ 64) :
    AluEffect s (s.aluResult d r) d r := by
  have hr := s.writeSized_reg d r h0 h
  have hf : FlagsByAlu s ((s.writeSized d r).flagsALU r) r := by
    have := (s.writeSized d r).flagsALU_flags r
    simpa [FlagsByAlu, FlagsKept] using this
  refine ⟨?_, ?_, by simp [State.aluResult], ?_, by simp [State.aluResult], by simp [BytesKept, State.aluResult],
    by simp [IoKept, State.aluResult], by simp [ControlKept, State.aluResult]⟩
  · simpa [RegWritten, State.aluResult] using hr
  · simpa [FlagsByAlu, FlagsOf, FlagsKept, State.aluResult] using hf
  · intro i hi
    simpa [State.aluResult] using s.writeSized_reg_ne r hi

/-- A two-operand instruction (R120, R185). -/
theorem State.alu_effect (s : State) (f : BitVec w → BitVec w → BitVec w) (d : RegId) (b : BitVec w) (h0 : 0 < w)
    (h : w ≤ 64) : AluEffect s (s.alu f d b) d (f (s.lo w d) b) := s.aluResult_effect d _ h0 h

/-- A division by a nonzero divisor (R132 (b)). -/
theorem State.divide_effect (s : State) (q : BitVec w → BitVec w → BitVec w) (d : RegId) {b : BitVec w} (hb : b ≠ 0#w)
    (h0 : 0 < w) (h : w ≤ 64) : AluEffect s (s.divide q d b) d (q (s.lo w d) b) := by
  unfold State.divide
  rw [if_neg hb]
  exact s.alu_effect q d b h0 h

/-- A division by zero (R132 (a)). -/
theorem State.divide_zero (s : State) (q : BitVec w → BitVec w → BitVec w) (d : RegId) :
    s.divide q d 0#w = s.raise (.divideByZero s.pc) := by simp [State.divide]

/-- A compare (R166). -/
theorem State.compare_effect (s : State) (d : RegId) (b : BitVec w) :
    CompareEffect s (s.compare d b) (s.lo w d - b) := by
  have := s.setZN_flags (s.lo w d - b)
  refine ⟨?_, by simp [State.compare], by simp [RegsKept, State.compare], by simp [State.compare],
    by simp [BytesKept, State.compare], by simp [IoKept, State.compare], by simp [ControlKept, State.compare]⟩
  simpa [FlagsOf, State.compare] using this

/-! ## `MemRead`, `MemWrite` (R52 to R54) -/

theorem State.inside_iff (s : State) (a : Word) (n : Nat) : s.inside a n = true ↔ a.toNat + n ≤ s.params.memSize := by
  simp [State.inside]

/-- `MemRead`: the value when the access is inside, else the fault (R53). -/
theorem State.memRead_cases (s : State) (w : Nat) (a : Word) :
    (a.toNat + w / 8 ≤ s.params.memSize ∧ s.memRead w a = .ok (s.valueAt w a)) ∨
    (s.params.memSize < a.toNat + w / 8 ∧ s.memRead w a = .error (.memoryFault a (w / 8) .read)) := by
  unfold State.memRead
  by_cases h : a.toNat + w / 8 ≤ s.params.memSize
  · exact .inl ⟨h, if_pos ((s.inside_iff a _).2 h)⟩
  · exact .inr ⟨Nat.lt_of_not_le h, if_neg fun hi => h ((s.inside_iff a _).1 hi)⟩

/-- `MemWrite`: the stores when the access is inside, else the fault (R54). -/
theorem State.memWrite_cases (s : State) (a : Word) (v : BitVec w) :
    (a.toNat + w / 8 ≤ s.params.memSize ∧ s.memWrite a v = .ok (s.storeAt a v)) ∨
    (s.params.memSize < a.toNat + w / 8 ∧ s.memWrite a v = .error (.memoryFault a (w / 8) .write)) := by
  unfold State.memWrite
  by_cases h : a.toNat + w / 8 ≤ s.params.memSize
  · exact .inl ⟨h, if_pos ((s.inside_iff a _).2 h)⟩
  · exact .inr ⟨Nat.lt_of_not_le h, if_neg fun hi => h ((s.inside_iff a _).1 hi)⟩

/-- Byte i of a value in address order (R54). -/
theorem bytesOfValue_getElem (e : Endian) (n : Nat) (v : BitVec w) (i : Nat) (hi : i < (bytesOfValue e n v).length) :
    (bytesOfValue e n v)[i] =
      match (generalizing := false) e with
      | .little => v.extractLsb' (8 * i) 8
      | .big => v.extractLsb' (8 * (n - 1 - i)) 8 := by
  have key : ∀ j, BitVec.ofNat 8 (v.toNat / 256 ^ j) = v.extractLsb' (8 * j) 8 := by
    intro j
    apply BitVec.eq_of_toNat_eq
    simp [Nat.shiftRight_eq_div_pow, Nat.pow_mul]
  cases e
  · simp only [bytesOfValue, orderBytes]
    rw [bytesOfNat_getElem, key]
  · simp only [bytesOfValue, orderBytes, List.getElem_reverse]
    rw [bytesOfNat_getElem, key, bytesOfNat_length]

/-- The stores put the bytes of the value where R54 says. -/
theorem State.storeAt_stored (s : State) (a : Word) (v : BitVec w) : BytesAt (s.storeAt a v) a v := by
  intro i hi
  have hlen : i < (bytesOfValue s.params.endian (w / 8) v).length := by simpa using hi
  simp only [State.byteAt, State.storeAt]
  refine (sparseRead_writeBytes_inside _ _ _ _ hlen).trans ((bytesOfValue_getElem _ _ _ _ _).trans ?_)
  clear hlen
  cases s.params.endian <;> rfl

/-- The stores leave every other byte alone (R54). -/
theorem State.storeAt_outside (s : State) (a : Word) (v : BitVec w) :
    BytesKeptOutside a (w / 8) s (s.storeAt a v) := by
  intro k hk
  simp only [State.byteAt, State.storeAt]
  exact sparseRead_writeBytes_outside _ _ _ (by simpa using hk)

/-- A value reads back from where it was stored, at every width of whole bytes (R53, R54). -/
theorem State.valueAt_storeAt (s : State) (a : Word) (n : Nat) (v : BitVec (8 * n)) :
    (s.storeAt a v).valueAt (8 * n) a = v := by
  have h8 : 8 * n / 8 = n := by omega
  have hl : (bytesOfValue s.params.endian n v).length = n := by simp
  simp only [State.valueAt, State.storeAt, h8]
  have := readBytes_writeBytes s.mem a.toNat (bytesOfValue s.params.endian n v)
  rw [hl] at this
  rw [this, valueOfBytes_bytesOfValue]

/-- The value at a has the bytes of `Memoria` from a upward (R53), at every width of whole bytes. -/
theorem State.valueAt_bytes (s : State) (n : Nat) (a : Word) : BytesAt s a (s.valueAt (8 * n) a) := by
  have h8 : 8 * n / 8 = n := by omega
  have key : ∀ (bs : List Byte) (k : Nat) (hk : bs.length = k) (j : Nat) (hj : j < bs.length),
      (BitVec.ofNat (8 * k) (natOfBytes bs)).extractLsb' (8 * j) 8 = bs[j] := by
    rintro bs _ rfl
    induction bs with
    | nil => intro j hj; simp at hj
    | cons b bs ih =>
      intro j hj
      apply BitVec.eq_of_toNat_eq
      cases j with
      | zero =>
        simp only [natOfBytes, BitVec.extractLsb'_toNat, BitVec.toNat_ofNat, List.length_cons, List.getElem_cons_zero,
          Nat.mul_zero, Nat.shiftRight_zero]
        have := b.isLt
        rw [Nat.mod_mod_of_dvd _ (Nat.pow_dvd_pow 2 (by omega))]
        omega
      | succ j =>
        have hj' : j < bs.length := by simpa using hj
        have := congrArg BitVec.toNat (ih j hj')
        simp only [BitVec.extractLsb'_toNat, BitVec.toNat_ofNat] at this
        simp only [natOfBytes, BitVec.extractLsb'_toNat, BitVec.toNat_ofNat, List.length_cons, List.getElem_cons_succ]
        rw [← this]
        have hb := b.isLt
        rw [show 8 * (bs.length + 1) = 8 + 8 * bs.length by omega, Nat.pow_add, show 8 * (j + 1) = 8 + 8 * j by omega,
          Nat.shiftRight_add, Nat.shiftRight_eq_div_pow _ 8, Nat.mod_mul_right_div_self]
        congr 3
        omega
  intro i hi
  rw [h8] at hi
  have hr : i < (readBytes s.mem a.toNat n).length := by simpa using hi
  have hb : s.byteAt (a.toNat + i) = (readBytes s.mem a.toNat n)[i] := by rw [readBytes_getElem]; rfl
  rw [hb]
  simp only [State.valueAt, valueOfBytes, h8]
  cases he : s.params.endian with
  | little =>
    exact (key (readBytes s.mem a.toNat n) n (by simp) i hr).symm
  | big =>
    have hl : (readBytes s.mem a.toNat n).reverse.length = n := by simp
    have hj : n - 1 - i < (readBytes s.mem a.toNat n).reverse.length := by rw [hl]; omega
    simp only [orderBytes]
    rw [key (readBytes s.mem a.toNat n).reverse n hl (n - 1 - i) hj, List.getElem_reverse]
    simp only [readBytes_length]
    congr 1
    omega

/-- Reads see only the bytes they name. -/
theorem readBytes_congr {m m' : Memory} {a n : Nat} (h : ∀ i, i < n → sparseRead m (a + i) = sparseRead m' (a + i)) :
    readBytes m a n = readBytes m' a n := by
  induction n generalizing a with
  | zero => rfl
  | succ n ih =>
    simp only [readBytes]
    rw [show sparseRead m a = sparseRead m' a from h 0 (by omega)]
    congr 1
    apply ih
    intro i hi
    rw [show a + 1 + i = a + (i + 1) by omega]
    exact h (i + 1) (by omega)

/-- A value elsewhere is not changed by a store. -/
theorem State.valueAt_storeAt_outside (s : State) (a b : Word) (v : BitVec w) (k : Nat)
    (h : b.toNat + k / 8 ≤ a.toNat ∨ a.toNat + w / 8 ≤ b.toNat) : (s.storeAt a v).valueAt k b = s.valueAt k b := by
  simp only [State.valueAt]
  rw [show (s.storeAt a v).params = s.params from rfl]
  congr 1
  exact readBytes_congr fun i hi => s.storeAt_outside a v _ (by omega)

/-! ## Loads, stores, the stack -/

/-- A load (R235): the value and all else kept when inside, else the fault. -/
theorem State.loadInto_cases (s : State) (w : Nat) (d : RegId) (a : Word) :
    (a.toNat + w / 8 ≤ s.params.memSize ∧ s.loadInto w d a = (s.writeSized d (s.valueAt w a)).advance) ∨
    (s.params.memSize < a.toNat + w / 8 ∧ s.loadInto w d a = s.raise (.memoryFault a (w / 8) .read)) := by
  unfold State.loadInto
  rcases s.memRead_cases w a with ⟨h, he⟩ | ⟨h, he⟩ <;> rw [he]
  · exact .inl ⟨h, rfl⟩
  · exact .inr ⟨h, rfl⟩

/-- A store (R235): the bytes and all else kept when inside, else the fault. -/
theorem State.storeTo_cases (s : State) (a : Word) (v : BitVec w) :
    (a.toNat + w / 8 ≤ s.params.memSize ∧ s.storeTo a v = (s.storeAt a v).advance) ∨
    (s.params.memSize < a.toNat + w / 8 ∧ s.storeTo a v = s.raise (.memoryFault a (w / 8) .write)) := by
  unfold State.storeTo
  rcases s.memWrite_cases a v with ⟨h, he⟩ | ⟨h, he⟩ <;> rw [he]
  · exact .inl ⟨h, rfl⟩
  · exact .inr ⟨h, rfl⟩

/-- All a store that is inside does. -/
theorem State.storeTo_effect (s : State) (a : Word) (v : BitVec w) (h : a.toNat + w / 8 ≤ s.params.memSize) :
    StoreEffect s (s.storeTo a v) a v := by
  rcases s.storeTo_cases a v with ⟨-, he⟩ | ⟨h', -⟩
  · rw [he]
    exact ⟨s.storeAt_stored a v, s.storeAt_outside a v, rfl, fun _ => rfl, ⟨rfl, rfl⟩, rfl, ⟨fun _ => rfl, rfl⟩, rfl, rfl⟩
  · omega

/-- A push (R286): the bytes at `SP`, then `SP` grows, when inside; else the fault. -/
theorem State.push_cases (s : State) (v : BitVec w) :
    (s.sp.toNat + w / 8 ≤ s.params.memSize ∧
      s.push v = ((s.storeAt s.sp v).setSp (s.sp + BitVec.ofNat 64 (w / 8))).advance) ∨
    (s.params.memSize < s.sp.toNat + w / 8 ∧ s.push v = s.raise (.memoryFault s.sp (w / 8) .write)) := by
  unfold State.push
  rcases s.memWrite_cases s.sp v with ⟨h, he⟩ | ⟨h, he⟩ <;> rw [he]
  · exact .inl ⟨h, rfl⟩
  · exact .inr ⟨h, rfl⟩

/-- All a push that is inside does. -/
theorem State.push_effect (s : State) (v : BitVec w) (h : s.sp.toNat + w / 8 ≤ s.params.memSize) :
    PushEffect s (s.push v) v := by
  rcases s.push_cases v with ⟨-, he⟩ | ⟨h', -⟩
  · rw [he]
    exact ⟨s.storeAt_stored s.sp v, s.storeAt_outside s.sp v, rfl, rfl, fun _ => rfl, ⟨rfl, rfl⟩,
      ⟨fun _ => rfl, rfl⟩, rfl, rfl⟩
  · omega

/-- A pop (R286): the value below `SP`, then `SP` shrinks, when inside; else the fault. -/
theorem State.popInto_cases (s : State) (w : Nat) (d : RegId) :
    ((s.popAddr w).toNat + w / 8 ≤ s.params.memSize ∧
      s.popInto w d = ((s.setSp (s.popAddr w)).writeSized d (s.valueAt w (s.popAddr w))).advance) ∨
    (s.params.memSize < (s.popAddr w).toNat + w / 8 ∧
      s.popInto w d = s.raise (.memoryFault (s.popAddr w) (w / 8) .read)) := by
  unfold State.popInto
  rcases s.memRead_cases w (s.popAddr w) with ⟨h, he⟩ | ⟨h, he⟩ <;> rw [he]
  · exact .inl ⟨h, rfl⟩
  · exact .inr ⟨h, rfl⟩

/-- All a pop that is inside does. -/
theorem State.popInto_effect (s : State) (w : Nat) (d : RegId) (h0 : 0 < w) (hw : w ≤ 64)
    (h : (s.popAddr w).toNat + w / 8 ≤ s.params.memSize) :
    PopEffect s (s.popInto w d) d (s.valueAt w (s.popAddr w)) := by
  rcases s.popInto_cases w d with ⟨-, he⟩ | ⟨h', -⟩
  · rw [he]
    have hr := (s.setSp (s.popAddr w)).writeSized_reg d (s.valueAt w (s.popAddr w)) h0 hw
    have ho := (s.setSp (s.popAddr w)).writeSized_others d (s.valueAt w (s.popAddr w))
    refine ⟨hr, ?_, ?_, ho, ?_, ?_, ?_, ?_⟩ <;>
      simp [State.popAddr, FlagsKept, BytesKept, IoKept, ControlKept]
  · omega

/-- `RET` (R285): `pc` and `SP` from the stack when inside, else the fault. -/
theorem State.popPc_cases (s : State) :
    ((s.popAddr 64).toNat + 8 ≤ s.params.memSize ∧
      s.popPc = (s.setSp (s.popAddr 64)).jumpTo (s.valueAt 64 (s.popAddr 64))) ∨
    (s.params.memSize < (s.popAddr 64).toNat + 8 ∧ s.popPc = s.raise (.memoryFault (s.popAddr 64) 8 .read)) := by
  unfold State.popPc
  rcases s.memRead_cases 64 (s.popAddr 64) with ⟨h, he⟩ | ⟨h, he⟩ <;> rw [he]
  · exact .inl ⟨h, rfl⟩
  · exact .inr ⟨h, rfl⟩

/-! ## Floating-point results (R262, R264) -/

/-- A floating-point write is a data transfer, of the pattern given or of a NaN drawn from the next free value. -/
theorem State.fpWrite_cases (s : State) (f : FpFormat) (w : Nat) (d : RegId) (out : FpOut) :
    (∃ v, out = .bits v ∧ s.fpWrite f w d out = (s.writeSized d (BitVec.ofNat w v)).advance) ∨
    (out = .nan ∧
      s.fpWrite f w d out = (s.drawn.writeSized d (nanOf s.params.nanDraw f w (Config.freeNan s.draws).toNat)).advance) := by
  cases out with
  | bits v => exact .inl ⟨v, rfl, rfl⟩
  | nan => exact .inr ⟨rfl, rfl⟩

/-! ## The I/O space (R175 to R177) -/

/-- A cell reads back what was written to it, and every other cell is unchanged (R176). -/
theorem State.ioCell_ioWrite (s : State) (c d : IoCell) (v : Word) :
    (s.ioWrite c v).ioCell d = if d = c then v else s.ioCell d := by
  simp only [State.ioCell, State.ioWrite]
  split
  · next h => rw [h, sparseRead_write_self]
  · next h => exact sparseRead_write_ne _ _ fun e => h (BitVec.eq_of_toNat_eq e)

/-- `CLRIO` clears the input cells and no other (R181). -/
theorem State.ioCell_clearInputs (s : State) (d : IoCell) :
    (s.clearInputs).ioCell d = if isInput s.params d.toNat then 0#64 else s.ioCell d := by
  simp only [State.ioCell, State.clearInputs]
  rw [sparseRead_filter s.io (fun k => !isInput s.params k) d.toNat]
  cases isInput s.params d.toNat <;> simp

/-- `RESETIO` clears every cell (R182). -/
@[simp] theorem State.ioCell_clearIo (s : State) (d : IoCell) : (s.clearIo).ioCell d = 0#64 := rfl

/-- `IoRead` (R176): an input cell latches the environment's answer, any other cell is read and nothing changes. -/
theorem State.ioRead_cases (s : State) (c : IoCell) :
    (isInput s.params c.toNat = true ∧ s.ioReadValue c = Config.ioAnswer s.draws ∧
      s.ioReadState c = (s.ioWrite c (Config.ioAnswer s.draws)).drawn) ∨
    (isInput s.params c.toNat = false ∧ s.ioReadValue c = s.ioCell c ∧ s.ioReadState c = s) := by
  unfold State.ioReadValue State.ioReadState
  cases isInput s.params c.toNat <;> simp

/-! ## The invariant of memory and I/O -/

/-- A step that touches neither `Memoria` nor `IO` nor the parameters keeps the invariant. -/
theorem StateInv.congr {s t : State} (hm : t.mem = s.mem) (hi : t.io = s.io) (hp : t.params = s.params)
    (h : StateInv s) : StateInv t := by
  unfold StateInv at *
  rw [hm, hi, hp]
  exact h

/-- Storing inside `Memoria` keeps the invariant. -/
theorem StateInv.storeAt {s : State} (a : Word) (v : BitVec w) (hi : a.toNat + w / 8 ≤ s.params.memSize)
    (h : StateInv s) : StateInv (s.storeAt a v) :=
  ⟨Memory.wf_writeBytes _ (by simpa using hi) h.1, h.2⟩

/-- `IoWrite` keeps the invariant. -/
theorem StateInv.ioWrite {s : State} (c : IoCell) (v : Word) (h : StateInv s) : StateInv (s.ioWrite c v) :=
  ⟨h.1, IoSpace.wf_write c v h.2⟩

/-- `CLRIO` keeps the invariant. -/
theorem StateInv.clearInputs {s : State} (h : StateInv s) : StateInv s.clearInputs :=
  ⟨h.1, IoSpace.wf_filter _ h.2⟩

/-- `RESETIO` keeps the invariant. -/
theorem StateInv.clearIo {s : State} (h : StateInv s) : StateInv s.clearIo := ⟨h.1, rfl⟩

/-! ## The step (R26) -/

/-- A running step: an instruction was fetched and run, or the fetch faulted. -/
theorem step_running {s : State} (h : s.run = .running) :
    (∃ i, fetchInstr s = .ok i ∧ step s = exec i s) ∨ (∃ f, fetchInstr s = .error f ∧ step s = .next (s.raise f)) := by
  unfold step
  rw [if_pos h]
  cases hf : fetchInstr s with
  | ok i => exact .inl ⟨i, rfl, rfl⟩
  | error f => exact .inr ⟨f, rfl, rfl⟩

/-- A run goes on from the next state of its first step. -/
theorem run_next (M : Host.Core) (k : Nat) (s t : M.State) (h : M.step s = .next t) : M.run (k + 1) s = M.run k t := by
  have e : M.run (k + 1) s = match M.step s with
    | .next s' => M.run k s'
    | .fault r => .fault r
    | .refused r => .refused r := rfl
  rw [e, h]

/-- A run ends in the fault of its first step. -/
theorem run_fault (M : Host.Core) (k : Nat) (s : M.State) (f : M.Fault) (h : M.step s = .fault f) :
    M.run (k + 1) s = .fault f := by
  have e : M.run (k + 1) s = match M.step s with
    | .next s' => M.run k s'
    | .fault r => .fault r
    | .refused r => .refused r := rfl
  rw [e, h]

/-- A halted machine keeps its state. -/
theorem step_halted {s : State} (h : s.run = .halted) : step s = .next s := by
  unfold step stoppedStep
  rw [h]
  rfl

/-- A faulted machine answers the fault it stopped in. -/
theorem step_faulted {s : State} {f : Fault} (h : s.run = .faulted f) : step s = .fault f := by
  unfold step stoppedStep
  rw [h]
  rfl

/-- What a word spells depends on the parameters alone. -/
theorem decodeWord_of_params {s t : State} (h : t.params = s.params) (w : Word) : t.decodeWord w = s.decodeWord w := by
  simp only [State.decodeWord, h]

@[simp] theorem placeWord_decodeWord (s : State) (v w : Word) : (s.placeWord v).decodeWord w = s.decodeWord w :=
  decodeWord_of_params rfl w

@[simp] theorem raise_decodeWord (s : State) (f : Fault) (w : Word) : (s.raise f).decodeWord w = s.decodeWord w :=
  decodeWord_of_params rfl w

/-- Fetching and decoding, in the order of R26 and R304. -/
theorem fetchInstr_cases (s : State) :
    (s.pc.toNat % 8 ≠ 0 ∧ fetchInstr s = .error (.fetchFault s.pc .misaligned)) ∨
    (s.pc.toNat % 8 = 0 ∧ s.params.memSize < s.pc.toNat + 8 ∧ fetchInstr s = .error (.fetchFault s.pc .outOfRange)) ∨
    (s.pc.toNat % 8 = 0 ∧ s.pc.toNat + 8 ≤ s.params.memSize ∧ ∃ e, s.decodeWord s.fetchWord = .error e ∧
      fetchInstr s = .error (.illegalInstruction s.pc s.fetchWord)) ∨
    (s.pc.toNat % 8 = 0 ∧ s.pc.toNat + 8 ≤ s.params.memSize ∧ ∃ i, s.decodeWord s.fetchWord = .ok i ∧
      fetchInstr s = .ok i) := by
  unfold fetchInstr
  by_cases h1 : s.pc.toNat % 8 = 0
  · by_cases h2 : s.pc.toNat + 8 ≤ s.params.memSize
    · have hi : s.inside s.pc 8 = true := (s.inside_iff _ _).2 h2
      cases hd : s.decodeWord s.fetchWord with
      | ok i => simp [h1, h2, hi]
      | error e => simp [h1, h2, hi]
    · have hi : s.inside s.pc 8 = false := by simpa [State.inside] using Nat.lt_of_not_le h2
      simp [h1, hi, Nat.lt_of_not_le h2]
  · simp [h1]

end Sys2Proof.Machine
end

