-- ==== Sys2Proof/Laws/Encoding.lean ====
section
/-! SUPPORT. The fields of the words the five formats make (R82 to R86), and of any word; the row of an opcode. -/

namespace Sys2Proof

/-! ## Fields of an encoded word -/

@[simp] theorem opcodeOf_encodeOP (op : Opcode) : opcodeOf (encodeOP op) = op := by
  apply BitVec.eq_of_getLsbD_eq
  intro i hi
  simp only [opcodeOf, encodeOP, BitVec.getLsbD_append, BitVec.getLsbD_extractLsb']
  grind

@[simp] theorem zeroBitsOP_encodeOP (op : Opcode) : zeroBitsOP (encodeOP op) = 0#48 := by
  apply BitVec.eq_of_getLsbD_eq
  intro i hi
  simp only [zeroBitsOP, encodeOP, BitVec.getLsbD_append, BitVec.getLsbD_extractLsb']
  grind

@[simp] theorem opcodeOf_encodeR (op : Opcode) (rd : RegId) : opcodeOf (encodeR op rd) = op := by
  apply BitVec.eq_of_getLsbD_eq
  intro i hi
  simp only [opcodeOf, encodeR, BitVec.getLsbD_append, BitVec.getLsbD_extractLsb']
  grind

@[simp] theorem rdHighOf_encodeR (op : Opcode) (rd : RegId) : rdHighOf (encodeR op rd) = rd := by
  apply BitVec.eq_of_getLsbD_eq
  intro i hi
  simp only [rdHighOf, encodeR, BitVec.getLsbD_append, BitVec.getLsbD_extractLsb']
  grind

@[simp] theorem zeroBitsR_encodeR (op : Opcode) (rd : RegId) : zeroBitsR (encodeR op rd) = 0#44 := by
  apply BitVec.eq_of_getLsbD_eq
  intro i hi
  simp only [zeroBitsR, encodeR, BitVec.getLsbD_append, BitVec.getLsbD_extractLsb']
  grind

@[simp] theorem opcodeOf_encodeRR (op : Opcode) (rd rs : RegId) : opcodeOf (encodeRR op rd rs) = op := by
  apply BitVec.eq_of_getLsbD_eq
  intro i hi
  simp only [opcodeOf, encodeRR, BitVec.getLsbD_append, BitVec.getLsbD_extractLsb']
  grind

@[simp] theorem rdLowOf_encodeRR (op : Opcode) (rd rs : RegId) : rdLowOf (encodeRR op rd rs) = rd := by
  apply BitVec.eq_of_getLsbD_eq
  intro i hi
  simp only [rdLowOf, encodeRR, BitVec.getLsbD_append, BitVec.getLsbD_extractLsb']
  grind

@[simp] theorem rsOf_encodeRR (op : Opcode) (rd rs : RegId) : rsOf (encodeRR op rd rs) = rs := by
  apply BitVec.eq_of_getLsbD_eq
  intro i hi
  simp only [rsOf, encodeRR, BitVec.getLsbD_append, BitVec.getLsbD_extractLsb']
  grind

@[simp] theorem zeroBitsRR_encodeRR (op : Opcode) (rd rs : RegId) : zeroBitsRR (encodeRR op rd rs) = 0#40 := by
  apply BitVec.eq_of_getLsbD_eq
  intro i hi
  simp only [zeroBitsRR, encodeRR, BitVec.getLsbD_append, BitVec.getLsbD_extractLsb']
  grind

@[simp] theorem opcodeOf_encodeRI (op : Opcode) (rd : RegId) (v : Imm44) : opcodeOf (encodeRI op rd v) = op := by
  apply BitVec.eq_of_getLsbD_eq
  intro i hi
  simp only [opcodeOf, encodeRI, BitVec.getLsbD_append, BitVec.getLsbD_extractLsb']
  grind

@[simp] theorem rdHighOf_encodeRI (op : Opcode) (rd : RegId) (v : Imm44) : rdHighOf (encodeRI op rd v) = rd := by
  apply BitVec.eq_of_getLsbD_eq
  intro i hi
  simp only [rdHighOf, encodeRI, BitVec.getLsbD_append, BitVec.getLsbD_extractLsb']
  grind

@[simp] theorem imm44Of_encodeRI (op : Opcode) (rd : RegId) (v : Imm44) : imm44Of (encodeRI op rd v) = v := by
  apply BitVec.eq_of_getLsbD_eq
  intro i hi
  simp only [imm44Of, encodeRI, BitVec.getLsbD_append, BitVec.getLsbD_extractLsb']
  grind

@[simp] theorem opcodeOf_encodeI (op : Opcode) (k : Imm48) : opcodeOf (encodeI op k) = op := by
  apply BitVec.eq_of_getLsbD_eq
  intro i hi
  simp only [opcodeOf, encodeI, BitVec.getLsbD_append, BitVec.getLsbD_extractLsb']
  grind

@[simp] theorem imm48Of_encodeI (op : Opcode) (k : Imm48) : imm48Of (encodeI op k) = k := by
  apply BitVec.eq_of_getLsbD_eq
  intro i hi
  simp only [imm48Of, encodeI, BitVec.getLsbD_append, BitVec.getLsbD_extractLsb']
  grind

/-! ## The row of an opcode -/

@[simp] theorem rowOf_none (op : Opcode) : rowOf none op = opcodeRows.lookup op := by simp [rowOf, alu8Rows]

/-- A row of R93 is the row of its opcode, whatever `ALU8_OPCODES` supplies. -/
theorem rowOf_assigned {op : Opcode} {row : Row} (h : opcodeRows.lookup op = some row) (alu8 : Option Alu8Opcodes) :
    rowOf alu8 op = some row := by simp [rowOf, List.lookup_append, h]

/-- All a row can be: one of R93, or, of an opcode that R93 leaves free, a supplied one. -/
theorem rowOf_cases {alu8 : Option Alu8Opcodes} {op : Opcode} {row : Row} (h : rowOf alu8 op = some row) :
    opcodeRows.lookup op = some row ∨
    (opcodeRows.lookup op = none ∧ ∃ o, alu8 = some o ∧ (alu8Rows (some o)).lookup op = some row) := by
  simp only [rowOf, List.lookup_append] at h
  cases hr : opcodeRows.lookup op with
  | some r => rw [hr] at h; exact .inl (by simpa using h)
  | none =>
    rw [hr, Option.none_or] at h
    cases alu8 with
    | none => simp [alu8Rows] at h
    | some o => exact .inr ⟨rfl, o, rfl, h⟩

/-- Seven legal values are the opcodes of the seven 8-byte mnemonics (D19). -/
theorem rowOf_supplied {o : Alu8Opcodes} (h : o.wellFormed = true) :
    rowOf (some o) o.add8 = some (.rr .add8) ∧ rowOf (some o) o.sub8 = some (.rr .sub8) ∧
    rowOf (some o) o.mul8 = some (.rr .mul8) ∧ rowOf (some o) o.muls8 = some (.rr .muls8) ∧
    rowOf (some o) o.div8 = some (.rr .div8) ∧ rowOf (some o) o.addv8 = some (.ri .addv8) ∧
    rowOf (some o) o.subv8 = some (.ri .subv8) := by
  simp only [Alu8Opcodes.wellFormed, Alu8Opcodes.opcodes, Bool.and_eq_true, decide_eq_true_eq, List.all_cons,
    List.all_nil, Option.isNone_iff_eq_none, List.nodup_cons, List.mem_cons, List.not_mem_nil, or_false, not_or] at h
  obtain ⟨⟨h1, h2, h3, h4, h5, h6, -⟩, l1, l2, l3, l4, l5, l6, l7, -⟩ := h
  simp only [rowOf, List.lookup_append, l1, l2, l3, l4, l5, l6, l7, Option.none_or, alu8Rows, List.lookup_cons]
  grind

/-! ## Decoding the word of a table row -/

theorem decode_encodeOP {alu8 : Option Alu8Opcodes} {op : Opcode} {i : Instr} (h : rowOf alu8 op = some (.op i))
    (strict : Bool) : decode alu8 strict (encodeOP op) = .ok i := by simp [decode, h, Row.decode, checkZeros]

theorem decode_encodeR {alu8 : Option Alu8Opcodes} {op : Opcode} {make : RegId → Instr}
    (h : rowOf alu8 op = some (.r make)) (strict : Bool) (rd : RegId) :
    decode alu8 strict (encodeR op rd) = .ok (make rd) := by simp [decode, h, Row.decode, checkZeros]

theorem decode_encodeRR {alu8 : Option Alu8Opcodes} {op : Opcode} {make : RegId → RegId → Instr}
    (h : rowOf alu8 op = some (.rr make)) (strict : Bool) (rd rs : RegId) :
    decode alu8 strict (encodeRR op rd rs) = .ok (make rd rs) := by simp [decode, h, Row.decode, checkZeros]

theorem decode_encodeRI {alu8 : Option Alu8Opcodes} {op : Opcode} {make : RegId → Imm44 → Instr}
    (h : rowOf alu8 op = some (.ri make)) (strict : Bool) (rd : RegId) (v : Imm44) :
    decode alu8 strict (encodeRI op rd v) = .ok (make rd v) := by simp [decode, h, Row.decode]

theorem decode_encodeI {alu8 : Option Alu8Opcodes} {op : Opcode} {make : Imm48 → Instr}
    (h : rowOf alu8 op = some (.i make)) (strict : Bool) (k : Imm48) :
    decode alu8 strict (encodeI op k) = .ok (make k) := by simp [decode, h, Row.decode]

/-! ## A word is its fields -/

theorem eq_encodeOP {w : Word} (h : zeroBitsOP w = 0#48) : w = encodeOP (opcodeOf w) := by
  apply BitVec.eq_of_getLsbD_eq
  intro i hi
  have hz := congrArg (fun v => v.getLsbD i) h
  simp only [zeroBitsOP, BitVec.getLsbD_extractLsb'] at hz
  simp only [encodeOP, opcodeOf, BitVec.getLsbD_append, BitVec.getLsbD_extractLsb']
  grind

theorem eq_encodeR {w : Word} (h : zeroBitsR w = 0#44) : w = encodeR (opcodeOf w) (rdHighOf w) := by
  apply BitVec.eq_of_getLsbD_eq
  intro i hi
  have hz := congrArg (fun v => v.getLsbD i) h
  simp only [zeroBitsR, BitVec.getLsbD_extractLsb'] at hz
  simp only [encodeR, opcodeOf, rdHighOf, BitVec.getLsbD_append, BitVec.getLsbD_extractLsb']
  grind

theorem eq_encodeRR {w : Word} (h : zeroBitsRR w = 0#40) :
    w = encodeRR (opcodeOf w) (rdLowOf w) (rsOf w) := by
  apply BitVec.eq_of_getLsbD_eq
  intro i hi
  have hz := congrArg (fun v => v.getLsbD (i - 8)) h
  simp only [zeroBitsRR, BitVec.getLsbD_extractLsb'] at hz
  simp only [encodeRR, opcodeOf, rdLowOf, rsOf, BitVec.getLsbD_append, BitVec.getLsbD_extractLsb']
  grind

theorem eq_encodeRI (w : Word) : w = encodeRI (opcodeOf w) (rdHighOf w) (imm44Of w) := by
  apply BitVec.eq_of_getLsbD_eq
  intro i hi
  simp only [encodeRI, opcodeOf, rdHighOf, imm44Of, BitVec.getLsbD_append, BitVec.getLsbD_extractLsb']
  grind

theorem eq_encodeI (w : Word) : w = encodeI (opcodeOf w) (imm48Of w) := by
  apply BitVec.eq_of_getLsbD_eq
  intro i hi
  simp only [encodeI, opcodeOf, imm48Of, BitVec.getLsbD_append, BitVec.getLsbD_extractLsb']
  grind

end Sys2Proof
end

