-- ==== Sys2Proof/Laws/Fp.lean ====
section
/-! SUPPORT. One lemma per helper of the fixed floating-point functions, and the range of what they give. -/

namespace Sys2Proof.Machine

/-! ## Rounding (R261) -/

/-- The two outcomes of rounding a quotient: down when nearer or at an even tie, else up. -/
theorem roundHalfEven_cases (q r d : Nat) :
    ((r < d ∨ (r = d ∧ q % 2 = 0)) ∧ roundHalfEven q r d = q) ∨
    ((d < r ∨ (r = d ∧ q % 2 = 1)) ∧ roundHalfEven q r d = q + 1) := by
  unfold roundHalfEven
  split <;> omega

/-- The integer square root, of a number below 4^k. -/
theorem isqrt_spec (k n : Nat) (h : n < 4 ^ k) : isqrt k n * isqrt k n ≤ n ∧ n < (isqrt k n + 1) * (isqrt k n + 1) := by
  induction k generalizing n with
  | zero =>
    have : n = 0 := by simpa using h
    subst this
    simp [isqrt]
  | succ k ih =>
    obtain ⟨h1, h2⟩ := ih (n / 4) (by rw [pow_succ] at h; omega)
    have e : n = 4 * (n / 4) + n % 4 := by omega
    have hm : n % 4 < 4 := Nat.mod_lt _ (by omega)
    simp only [isqrt]
    generalize isqrt k (n / 4) = r at *
    split
    · next hle => exact ⟨hle, by nlinarith⟩
    · next hgt =>
      have : 2 * r * (2 * r) = 4 * (r * r) := by ring
      exact ⟨by omega, by omega⟩

/-! ## Rounding once (R261): the nearest magnitude of the format -/


/-- No magnitude of the format lies strictly between two neighbours q and q + 1 in steps of 2^s. -/
theorem representable_gap {f : FpFormat} {q s m : Nat} (hs : s = 0 ∨ 2 ^ f.fracBits ≤ q) (hm : Representable f m) :
    m ≤ q * 2 ^ s ∨ (q + 1) * 2 ^ s ≤ m := by
  obtain ⟨q', e, hq', rfl⟩ := hm
  by_cases he : s ≤ e
  · obtain ⟨k, rfl⟩ := Nat.exists_eq_add_of_le he
    rw [pow_add, show q' * (2 ^ s * 2 ^ k) = q' * 2 ^ k * 2 ^ s by ring]
    rcases Nat.lt_or_ge q (q' * 2 ^ k) with h | h
    · exact .inr (Nat.mul_le_mul_right _ h)
    · exact .inl (Nat.mul_le_mul_right _ h)
  · obtain ⟨k, rfl⟩ := Nat.exists_eq_add_of_lt (Nat.lt_of_not_le he)
    rcases hs with hs | hs
    · omega
    · left
      have h1 : q' * 2 ^ e ≤ 2 ^ (f.fracBits + 1) * 2 ^ e := Nat.mul_le_mul_right _ hq'.le
      have h2 : 2 ^ f.fracBits * 2 ^ (e + k + 1) ≤ q * 2 ^ (e + k + 1) := Nat.mul_le_mul_right _ hs
      have h3 : 2 ^ (f.fracBits + 1) * 2 ^ e ≤ 2 ^ f.fracBits * 2 ^ (e + k + 1) := by
        rw [← pow_add, ← pow_add]
        exact Nat.pow_le_pow_right (by omega) (by omega)
      omega

/-- The upper neighbour of a magnitude of the format is one too. -/
theorem representable_succ {f : FpFormat} {q s : Nat} (hq : q < 2 ^ (f.fracBits + 1)) :
    Representable f ((q + 1) * 2 ^ s) := by
  by_cases h : q + 1 < 2 ^ (f.fracBits + 1)
  · exact ⟨_, _, h, rfl⟩
  · have e : q + 1 = 2 ^ (f.fracBits + 1) := by omega
    refine ⟨1, f.fracBits + 1 + s, ?_, by rw [e, ← pow_add, Nat.one_mul]⟩
    exact Nat.one_lt_two_pow (by omega)

/-- A magnitude with an even significand, or the carry out of the significand. -/
theorem evenSignificand_of {f : FpFormat} {q s : Nat} (hf : 0 < f.fracBits) (hs : s = 0 ∨ 2 ^ f.fracBits ≤ q)
    (hq : q ≤ 2 ^ (f.fracBits + 1)) (he : q % 2 = 0) : EvenSignificand f (q * 2 ^ s) := by
  by_cases h : q < 2 ^ (f.fracBits + 1)
  · exact ⟨q, s, h, by tauto, he, rfl⟩
  · have e : q = 2 ^ (f.fracBits + 1) := by omega
    refine ⟨2 ^ f.fracBits, s + 1, Nat.pow_lt_pow_right (by omega) (by omega), .inl le_rfl, ?_, by rw [e]; ring⟩
    obtain ⟨k, hk⟩ := Nat.exists_eq_succ_of_ne_zero hf.ne'
    rw [hk, pow_succ]
    omega

/-- Rounding half to even between neighbours gives the nearest magnitude of the format (R261). -/
theorem nearestEven_of_round {f : FpFormat} {x : ℝ} {q s t d : Nat} (hf : 0 < f.fracBits) (lo : (q : ℝ) * 2 ^ s ≤ x)
    (hi : x < ((q : ℝ) + 1) * 2 ^ s) (hq : q < 2 ^ (f.fracBits + 1)) (hs : s = 0 ∨ 2 ^ f.fracBits ≤ q)
    (hlt : t < d ↔ x < ((q : ℝ) + 1 / 2) * 2 ^ s) (heq : t = d ↔ x = ((q : ℝ) + 1 / 2) * 2 ^ s) :
    NearestEven f x (roundHalfEven q t d * 2 ^ s) := by
  have hp : (0 : ℝ) < 2 ^ s := by positivity
  have gap : ∀ m', Representable f m' → (m' : ℝ) ≤ q * 2 ^ s ∨ ((q : ℝ) + 1) * 2 ^ s ≤ m' := by
    intro m' h
    rcases representable_gap (q := q) hs h with h | h
    · exact .inl (by exact_mod_cast h)
    · exact .inr (by exact_mod_cast h)
  rcases roundHalfEven_cases q t d with ⟨hc, e⟩ | ⟨hc, e⟩ <;> rw [e]
  · have hx : x ≤ ((q : ℝ) + 1 / 2) * 2 ^ s := by
      rcases hc with h | ⟨h, -⟩
      · exact (hlt.1 h).le
      · exact (heq.1 h).le
    refine ⟨⟨q, s, hq, rfl⟩, fun m' hm' => ?_⟩
    have e0 : ((q * 2 ^ s : ℕ) : ℝ) = q * 2 ^ s := by push_cast; ring
    rw [e0, abs_of_nonneg (by linarith : 0 ≤ x - q * 2 ^ s)]
    rcases gap m' hm' with h | h
    · rw [abs_of_nonneg (by linarith)]
      refine ⟨by linarith, fun h1 h2 => absurd ?_ h2⟩
      have : (m' : ℝ) = ((q * 2 ^ s : ℕ) : ℝ) := by rw [e0]; linarith
      exact_mod_cast this
    · rw [abs_of_nonpos (by nlinarith)]
      refine ⟨by nlinarith, fun h1 _ => ?_⟩
      have hx' : x = ((q : ℝ) + 1 / 2) * 2 ^ s := by nlinarith
      have ht := heq.2 hx'
      exact evenSignificand_of hf hs hq.le (by omega)
  · have hx : ((q : ℝ) + 1 / 2) * 2 ^ s ≤ x := by
      rcases hc with h | ⟨h, -⟩
      · by_contra hn
        have := hlt.2 (lt_of_not_ge hn)
        omega
      · exact (heq.1 h).ge
    refine ⟨representable_succ hq, fun m' hm' => ?_⟩
    have e0 : (((q + 1) * 2 ^ s : ℕ) : ℝ) = ((q : ℝ) + 1) * 2 ^ s := by push_cast; ring
    rw [e0, abs_of_nonpos (by linarith)]
    rcases gap m' hm' with h | h
    · rw [abs_of_nonneg (by nlinarith)]
      refine ⟨by nlinarith, fun h1 _ => ?_⟩
      have hx' : x = ((q : ℝ) + 1 / 2) * 2 ^ s := by nlinarith
      have ht := heq.2 hx'
      exact evenSignificand_of hf (by rcases hs with h | h <;> omega) hq (by omega)
    · rw [abs_of_nonpos (by linarith)]
      refine ⟨by linarith, fun h1 h2 => absurd ?_ h2⟩
      have : (m' : ℝ) = (((q + 1) * 2 ^ s : ℕ) : ℝ) := by rw [e0]; linarith
      exact_mod_cast this

/-- `fpRoundQuot` rounds the exact quotient once, to nearest with ties to even (R261). -/
theorem fpRoundQuot_nearestEven {f : FpFormat} (hf : 0 < f.fracBits) (num : Nat) {den : Nat} (hd : 0 < den) :
    NearestEven f ((num : ℝ) / den) (fpRoundQuot f num den) := by
  unfold fpRoundQuot
  generalize hsd : Nat.log2 (num / den) - f.fracBits = s
  simp only
  have hD : 0 < den * 2 ^ s := by positivity
  have hdr : (0 : ℝ) < den := by exact_mod_cast hd
  have key : den * 2 ^ s * (num / (den * 2 ^ s)) + num % (den * 2 ^ s) = num := Nat.div_add_mod _ _
  have hm : num % (den * 2 ^ s) < den * 2 ^ s := Nat.mod_lt _ hD
  have hq : num / (den * 2 ^ s) = num / den / 2 ^ s := (Nat.div_div_eq_div_mul ..).symm
  have hq1 : num / (den * 2 ^ s) < 2 ^ (f.fracBits + 1) := by
    rw [hq, Nat.div_lt_iff_lt_mul (by positivity), ← pow_add]
    exact Nat.lt_of_lt_of_le Nat.lt_log2_self (Nat.pow_le_pow_right (by omega) (by omega))
  have hs : s = 0 ∨ 2 ^ f.fracBits ≤ num / (den * 2 ^ s) := by
    by_cases h0 : s = 0
    · exact .inl h0
    · right
      have hn : num / den ≠ 0 := by
        intro h
        rw [h] at hsd
        simp at hsd
        omega
      rw [hq, Nat.le_div_iff_mul_le (by positivity), ← pow_add]
      exact le_trans (Nat.pow_le_pow_right (by omega) (by omega)) (Nat.log2_self_le hn)
  generalize num / (den * 2 ^ s) = q at *
  generalize num % (den * 2 ^ s) = r at *
  have keyR : (den : ℝ) * 2 ^ s * q + r = num := by exact_mod_cast key
  have hmR : (r : ℝ) < den * 2 ^ s := by exact_mod_cast hm
  have hr0 : (0 : ℝ) ≤ r := by positivity
  have hx : (num : ℝ) / den = q * 2 ^ s + r / den := by
    rw [← keyR]; field_simp
  have hx2 : (num : ℝ) / den - ((q : ℝ) + 1 / 2) * 2 ^ s = (2 * r - den * 2 ^ s) / (2 * den) := by
    rw [hx]; field_simp; ring
  have c : ((2 * r : ℕ) : ℝ) - ((den * 2 ^ s : ℕ) : ℝ) = 2 * r - den * 2 ^ s := by push_cast; ring
  refine nearestEven_of_round hf ?_ ?_ hq1 hs ?_ ?_
  · rw [hx]; have : 0 ≤ (r : ℝ) / den := by positivity
    linarith
  · rw [hx]; have : (r : ℝ) / den < 2 ^ s := by rw [div_lt_iff₀ hdr]; linarith
    linarith
  · rw [← sub_neg (b := ((q : ℝ) + 1 / 2) * 2 ^ s), hx2, div_lt_iff₀ (by positivity), zero_mul, ← c, sub_neg]
    exact_mod_cast Iff.rfl
  · rw [← sub_eq_zero (b := ((q : ℝ) + 1 / 2) * 2 ^ s), hx2, div_eq_zero_iff, ← c, sub_eq_zero]
    constructor
    · intro h; exact .inl (by exact_mod_cast h)
    · rintro (h | h)
      · exact_mod_cast h
      · exfalso; linarith

/-- `fpRoundSqrt` rounds the exact square root once, to nearest with ties to even (R261). -/
theorem fpRoundSqrt_nearestEven {f : FpFormat} (hf : 0 < f.fracBits) (m : Nat) :
    NearestEven f (Real.sqrt m) (fpRoundSqrt f m) := by
  unfold fpRoundSqrt
  generalize hsd : Nat.log2 m / 2 - f.fracBits = s
  simp only
  have h4 : (4 : ℕ) ^ s = 2 ^ s * 2 ^ s := mul_pow 2 2 s
  have hlt : m / 4 ^ s < 4 ^ (f.fracBits + 1) := by
    rw [Nat.div_lt_iff_lt_mul (by positivity), ← pow_add, show (4 : ℕ) = 2 ^ 2 from rfl, ← pow_mul]
    exact Nat.lt_of_lt_of_le Nat.lt_log2_self (Nat.pow_le_pow_right (by omega) (by omega))
  obtain ⟨h1, h2⟩ := isqrt_spec _ _ hlt
  have hq1 : isqrt (f.fracBits + 1) (m / 4 ^ s) < 2 ^ (f.fracBits + 1) := by
    by_contra hn
    have : 2 ^ (f.fracBits + 1) * 2 ^ (f.fracBits + 1) ≤ m / 4 ^ s :=
      le_trans (Nat.mul_le_mul (not_lt.1 hn) (not_lt.1 hn)) h1
    rw [← mul_pow] at this
    exact absurd hlt (not_lt.2 this)
  have hs : s = 0 ∨ 2 ^ f.fracBits ≤ isqrt (f.fracBits + 1) (m / 4 ^ s) := by
    by_cases h0 : s = 0
    · exact .inl h0
    · right
      have hn : m ≠ 0 := by
        rintro rfl
        simp at hsd
        omega
      have : 2 ^ f.fracBits * 2 ^ f.fracBits ≤ m / 4 ^ s := by
        rw [Nat.le_div_iff_mul_le (by positivity), ← mul_pow, show (2 * 2 : ℕ) = 2 ^ 2 from rfl,
          show (4 : ℕ) = 2 ^ 2 from rfl, ← pow_mul, ← pow_mul, ← pow_add]
        exact le_trans (Nat.pow_le_pow_right (by omega) (by omega)) (Nat.log2_self_le hn)
      by_contra hc
      have := Nat.mul_le_mul (Nat.succ_le_of_lt (not_le.1 hc)) (Nat.succ_le_of_lt (not_le.1 hc))
      simp only [Nat.succ_eq_add_one] at this
      omega
  generalize isqrt (f.fracBits + 1) (m / 4 ^ s) = q at *
  have lo : q * 2 ^ s * (q * 2 ^ s) ≤ m := by
    rw [Nat.le_div_iff_mul_le (by positivity), h4] at h1
    calc _ = q * q * (2 ^ s * 2 ^ s) := by ring
      _ ≤ m := h1
  have hi : m < (q + 1) * 2 ^ s * ((q + 1) * 2 ^ s) := by
    rw [Nat.div_lt_iff_lt_mul (by positivity), h4] at h2
    calc m < _ := h2
      _ = _ := by ring
  have mid : (((q : ℝ) + 1 / 2) * 2 ^ s) ^ 2 * 4 = (((2 * q + 1) * (2 * q + 1) * 4 ^ s : ℕ) : ℝ) := by
    rw [h4]; push_cast; ring
  refine nearestEven_of_round hf ?_ ?_ hq1 hs ?_ ?_
  · apply Real.le_sqrt_of_sq_le
    rw [sq]; exact_mod_cast lo
  · rw [Real.sqrt_lt' (by positivity), sq]
    exact_mod_cast hi
  · rw [Real.sqrt_lt' (by positivity)]
    rw [show ((m : ℝ) < (((q : ℝ) + 1 / 2) * 2 ^ s) ^ 2 ↔ ((4 * m : ℕ) : ℝ) < (((q : ℝ) + 1 / 2) * 2 ^ s) ^ 2 * 4) by
      push_cast; constructor <;> intro h <;> linarith, mid]
    exact_mod_cast Iff.rfl
  · have e : (m : ℝ) = ((q : ℝ) + 1 / 2) * 2 ^ s * (((q : ℝ) + 1 / 2) * 2 ^ s) ↔
        ((4 * m : ℕ) : ℝ) = (((2 * q + 1) * (2 * q + 1) * 4 ^ s : ℕ) : ℝ) := by
      rw [← mid, sq]
      push_cast
      constructor <;> intro h <;> linarith
    rw [Real.sqrt_eq_iff_mul_self_eq (by positivity) (by positivity)]
    exact (Nat.cast_inj (R := ℝ)).symm.trans e.symm

/-! ## The patterns given are patterns of the format -/

/-- The exponent field of a format is more than one bit wide, so its ones are not 0. -/
theorem fpExpMax_lt {f : FpFormat} : fpExpMax f < 2 ^ f.expBits := by
  have : 0 < 2 ^ f.expBits := by positivity
  unfold fpExpMax
  omega

/-- A sign, an exponent field and a fraction make a pattern of the format. -/
theorem fp_fields_lt {f : FpFormat} {neg : Bool} {e r : Nat} (he : e < 2 ^ f.expBits) (hr : r < 2 ^ f.fracBits) :
    fpSign f neg + e * 2 ^ f.fracBits + r < 2 ^ (1 + f.expBits + f.fracBits) := by
  have h1 : (e + 1) * 2 ^ f.fracBits ≤ 2 ^ f.expBits * 2 ^ f.fracBits := Nat.mul_le_mul_right _ he
  have h2 : fpSign f neg ≤ 2 ^ f.expBits * 2 ^ f.fracBits := by
    unfold fpSign
    split <;> simp [pow_add]
  rw [Nat.add_mul] at h1
  rw [pow_add, pow_add, pow_one, Nat.mul_assoc]
  omega

theorem fpInf_lt (f : FpFormat) (neg : Bool) : fpInf f neg < 2 ^ (1 + f.expBits + f.fracBits) := by
  have := fp_fields_lt (f := f) (neg := neg) (r := 0) fpExpMax_lt (by positivity)
  simpa [fpInf] using this

/-- The significand of a magnitude in the normal range is below 2 once scaled by its exponent. -/
theorem fp_significand {f : FpFormat} {m : Nat} (h : 2 ^ f.fracBits ≤ m) :
    2 ^ f.fracBits ≤ m / 2 ^ (Nat.log2 m - f.fracBits) ∧ m / 2 ^ (Nat.log2 m - f.fracBits) < 2 ^ (f.fracBits + 1) := by
  have hm : m ≠ 0 := by
    have : 0 < 2 ^ f.fracBits := by positivity
    omega
  have hl : f.fracBits ≤ Nat.log2 m := (Nat.le_log2 hm).2 h
  have lo : 2 ^ Nat.log2 m ≤ m := Nat.log2_self_le hm
  have hi : m < 2 ^ (Nat.log2 m + 1) := Nat.lt_log2_self
  constructor
  · rw [Nat.le_div_iff_mul_le (by positivity), ← pow_add]
    rwa [Nat.add_sub_cancel' hl]
  · rw [Nat.div_lt_iff_lt_mul (by positivity), ← pow_add]
    rwa [show f.fracBits + 1 + (Nat.log2 m - f.fracBits) = Nat.log2 m + 1 by omega]

/-- The three ranges of `fpPack`: subnormal, overflow, normal. -/
theorem fpPack_cases (f : FpFormat) (neg : Bool) (m : Nat) :
    (m < 2 ^ f.fracBits ∧ fpPack f neg m = fpSign f neg + m) ∨
    (2 ^ f.fracBits ≤ m ∧ fpExpMax f ≤ Nat.log2 m - f.fracBits + 1 ∧ fpPack f neg m = fpInf f neg) ∨
    (2 ^ f.fracBits ≤ m ∧ Nat.log2 m - f.fracBits + 1 < fpExpMax f ∧
      fpPack f neg m = fpSign f neg + (Nat.log2 m - f.fracBits + 1) * 2 ^ f.fracBits +
        (m / 2 ^ (Nat.log2 m - f.fracBits) - 2 ^ f.fracBits)) := by
  unfold fpPack
  split
  · next h => exact .inl ⟨h, rfl⟩
  · next h =>
    have h' := Nat.le_of_not_lt h
    by_cases he : fpExpMax f ≤ Nat.log2 m - f.fracBits + 1
    · exact .inr (.inl ⟨h', he, by simp [he]⟩)
    · exact .inr (.inr ⟨h', Nat.lt_of_not_le he, by simp [he]⟩)

theorem fpPack_lt (f : FpFormat) (neg : Bool) (m : Nat) : fpPack f neg m < 2 ^ (1 + f.expBits + f.fracBits) := by
  rcases fpPack_cases f neg m with ⟨h, e⟩ | ⟨-, -, e⟩ | ⟨h, he, e⟩ <;> rw [e]
  · simpa using fp_fields_lt (f := f) (neg := neg) (e := 0) (r := m) (by positivity) h
  · exact fpInf_lt f neg
  · have hs := fp_significand h
    rw [pow_succ] at hs
    exact fp_fields_lt (Nat.lt_trans he fpExpMax_lt) (by omega)

/-- An exact whole number, rounded, is a pattern of the format. -/
theorem fpOfInt_lt {f : FpFormat} {z : Bool} {x : Int} {v : Nat} (h : fpOfInt f z x = .bits v) :
    v < 2 ^ (1 + f.expBits + f.fracBits) := by
  unfold fpOfInt at h
  split at h <;> cases h <;> exact fpPack_lt ..

/-- Every fixed function gives a pattern of its format, or a NaN. -/
theorem fpAdd_lt {f : FpFormat} {a b : FpDatum} {v : Nat} (h : fpAdd f a b = .bits v) :
    v < 2 ^ (1 + f.expBits + f.fracBits) := by
  unfold fpAdd at h
  split at h
  all_goals first
    | (cases h; done)
    | (split at h <;> cases h; exact fpInf_lt ..)
    | (cases h; exact fpInf_lt ..)
    | exact fpOfInt_lt h

theorem fpSub_lt {f : FpFormat} {a b : FpDatum} {v : Nat} (h : fpSub f a b = .bits v) :
    v < 2 ^ (1 + f.expBits + f.fracBits) := by
  unfold fpSub at h
  split at h
  all_goals first
    | (cases h; done)
    | (split at h <;> cases h; exact fpInf_lt ..)
    | (cases h; exact fpInf_lt ..)
    | exact fpOfInt_lt h

theorem fpMul_lt {f : FpFormat} {a b : FpDatum} {v : Nat} (h : fpMul f a b = .bits v) :
    v < 2 ^ (1 + f.expBits + f.fracBits) := by
  unfold fpMul at h
  split at h
  all_goals first
    | (cases h; done)
    | (split at h <;> cases h; exact fpInf_lt ..)
    | (cases h; exact fpInf_lt ..)
    | (cases h; exact fpPack_lt ..)

theorem fpDiv_lt {f : FpFormat} {z : Nat} {a b : FpDatum} {v : Nat} (hz : z < 2 ^ (1 + f.expBits + f.fracBits))
    (h : fpDiv f z a b = .bits v) : v < 2 ^ (1 + f.expBits + f.fracBits) := by
  unfold fpDiv at h
  split at h
  · cases h
  · cases h
  · cases h
  · split at h <;> cases h
    · exact hz
    · exact fpInf_lt ..
  · cases h
    exact fpPack_lt ..
  · split at h
    · split at h <;> cases h
      exact fpInf_lt ..
    · cases h
      exact fpPack_lt ..

theorem fpSqrt_lt {f : FpFormat} {a : FpDatum} {v : Nat} (h : fpSqrt f a = .bits v) :
    v < 2 ^ (1 + f.expBits + f.fracBits) := by
  unfold fpSqrt at h
  split at h
  · cases h
  · split at h <;> cases h
    exact fpInf_lt ..
  · split at h
    · cases h
      exact fpPack_lt ..
    · split at h <;> cases h
      exact fpPack_lt ..

/-! ## The fields of a pattern (R260) -/


/-- The three fields of a pattern built from a sign, an exponent field and a fraction. -/
theorem fp_fields {f : FpFormat} {neg : Bool} {e r : Nat} (he : e < 2 ^ f.expBits) (hr : r < 2 ^ f.fracBits) :
    (fpSign f neg + e * 2 ^ f.fracBits + r) % 2 ^ f.fracBits = r ∧
    (fpSign f neg + e * 2 ^ f.fracBits + r) / 2 ^ f.fracBits % 2 ^ f.expBits = e ∧
    (fpSign f neg + e * 2 ^ f.fracBits + r).testBit (f.expBits + f.fracBits) = neg := by
  have hp : 0 < 2 ^ f.fracBits := by positivity
  have hs : fpSign f neg = (if neg then 1 else 0) * 2 ^ f.expBits * 2 ^ f.fracBits := by
    unfold fpSign
    cases neg <;> simp [pow_add]
  have e1 : fpSign f neg + e * 2 ^ f.fracBits + r =
      r + (e + (if neg then 1 else 0) * 2 ^ f.expBits) * 2 ^ f.fracBits := by rw [hs]; ring
  have hlow : e * 2 ^ f.fracBits + r < 2 ^ (f.expBits + f.fracBits) := by
    have : (e + 1) * 2 ^ f.fracBits ≤ 2 ^ f.expBits * 2 ^ f.fracBits := Nat.mul_le_mul_right _ he
    rw [pow_add]
    rw [Nat.add_mul] at this
    omega
  refine ⟨?_, ?_, ?_⟩
  · rw [e1, Nat.add_mul_mod_self_right, Nat.mod_eq_of_lt hr]
  · rw [e1, Nat.add_mul_div_right _ _ hp, Nat.div_eq_of_lt hr, Nat.zero_add, Nat.add_mul_mod_self_right,
      Nat.mod_eq_of_lt he]
  · rw [Nat.add_assoc]
    cases neg
    · simp only [fpSign, Bool.false_eq_true, if_false, Nat.zero_add]
      exact Nat.testBit_lt_two_pow hlow
    · simp only [fpSign, if_true]
      rw [Nat.testBit_two_pow_add_eq, Nat.testBit_lt_two_pow hlow]
      rfl

/-- Every pattern is built from its three fields. -/
theorem fp_fields_eta {f : FpFormat} {v : Nat} (h : v < 2 ^ (1 + f.expBits + f.fracBits)) :
    fpSign f (v.testBit (f.expBits + f.fracBits)) + v / 2 ^ f.fracBits % 2 ^ f.expBits * 2 ^ f.fracBits +
      v % 2 ^ f.fracBits = v := by
  have hd : v / 2 ^ f.fracBits / 2 ^ f.expBits = if v.testBit (f.expBits + f.fracBits) then 1 else 0 := by
    have hlt : v / 2 ^ (f.expBits + f.fracBits) < 2 := by
      rw [Nat.div_lt_iff_lt_mul (by positivity)]
      calc v < _ := h
        _ = 2 * 2 ^ (f.expBits + f.fracBits) := by rw [Nat.add_assoc, pow_add]; rfl
    rw [Nat.div_div_eq_div_mul, ← pow_add, Nat.add_comm f.fracBits, Nat.testBit_eq_decide_div_mod_eq]
    generalize v / 2 ^ (f.expBits + f.fracBits) = x at *
    obtain rfl | rfl : x = 0 ∨ x = 1 := by omega
    · simp
    · simp
  have h1 := Nat.div_add_mod v (2 ^ f.fracBits)
  have h2 := Nat.div_add_mod (v / 2 ^ f.fracBits) (2 ^ f.expBits)
  rw [hd] at h2
  have hs : fpSign f (v.testBit (f.expBits + f.fracBits)) =
      2 ^ f.fracBits * (2 ^ f.expBits * if v.testBit (f.expBits + f.fracBits) then 1 else 0) := by
    unfold fpSign
    split <;> simp [pow_add, Nat.mul_comm]
  rw [hs, Nat.mul_comm (v / 2 ^ f.fracBits % 2 ^ f.expBits), ← Nat.mul_add, h2, h1]

/-- An infinity reads back. -/
theorem fpDatum_fpInf (f : FpFormat) (neg : Bool) : fpDatum f (fpInf f neg) = .inf neg := by
  obtain ⟨h1, h2, h3⟩ := fp_fields (f := f) (neg := neg) (r := 0) fpExpMax_lt (by positivity)
  simp only [Nat.add_zero] at h1 h2 h3
  simp only [fpDatum, fpInf, h1, h2, h3, if_true]

/-! ## NaN results (R262) -/

/-- All a drawn fraction can be: nonzero, inside the field, and at least the quiet bit under `quiet`. -/
theorem nanFraction_bounds (draw : NanDraw) {f : FpFormat} (u : Nat) (hf : 0 < f.fracBits) :
    nanFraction draw f u ≠ 0 ∧ nanFraction draw f u < 2 ^ f.fracBits ∧
      (draw = .quiet → 2 ^ (f.fracBits - 1) ≤ nanFraction draw f u) := by
  obtain ⟨k, hk⟩ : ∃ k, f.fracBits = k + 1 := ⟨f.fracBits - 1, by omega⟩
  have hp : 0 < 2 ^ k := by positivity
  have hm := Nat.mod_lt u hp
  have hm' := Nat.mod_lt u (show 0 < 2 ^ (k + 1) by positivity)
  have h2 : 2 ^ (k + 1) = 2 * 2 ^ k := by ring
  cases draw <;> simp only [nanFraction, hk, Nat.add_sub_cancel]
  · exact ⟨by omega, by omega, fun _ => by omega⟩
  · split
    · exact ⟨by omega, by omega, by simp⟩
    · exact ⟨by omega, by omega, by simp⟩

/-- The fields of a drawn NaN: exponent all ones, fraction as drawn, sign the sign bit of u. -/
theorem nanOf_fields (draw : NanDraw) {f : FpFormat} (w u : Nat) (hf : 0 < f.fracBits)
    (hw : w = 1 + f.expBits + f.fracBits) :
    (nanOf draw f w u).toNat / 2 ^ f.fracBits % 2 ^ f.expBits = fpExpMax f ∧
    (nanOf draw f w u).toNat % 2 ^ f.fracBits = nanFraction draw f u ∧
    (nanOf draw f w u).toNat.testBit (f.expBits + f.fracBits) = u.testBit (f.expBits + f.fracBits) := by
  subst hw
  obtain ⟨-, hr, -⟩ := nanFraction_bounds draw (f := f) u hf
  have hlt := fp_fields_lt (f := f) (neg := u.testBit (f.expBits + f.fracBits)) (e := fpExpMax f) fpExpMax_lt hr
  have e : (nanOf draw f (1 + f.expBits + f.fracBits) u).toNat =
      fpSign f (u.testBit (f.expBits + f.fracBits)) + fpExpMax f * 2 ^ f.fracBits + nanFraction draw f u := by
    unfold nanOf fpInf
    rw [BitVec.toNat_ofNat, Nat.mod_eq_of_lt hlt]
  obtain ⟨hfrac, hexp, hsign⟩ := fp_fields (neg := u.testBit (f.expBits + f.fracBits)) (fpExpMax_lt (f := f)) hr
  rw [e]
  exact ⟨hexp, hfrac, hsign⟩

/-- What `nanOf` gives is a NaN, whatever u is. -/
theorem nanOf_isNan (draw : NanDraw) {f : FpFormat} (w u : Nat) (hf : 0 < f.fracBits)
    (hw : w = 1 + f.expBits + f.fracBits) : IsNan f (nanOf draw f w u).toNat := by
  obtain ⟨he, hr, -⟩ := nanOf_fields draw w u hf hw
  exact ⟨he, hr ▸ (nanFraction_bounds draw u hf).1⟩

/-- Under `quiet` it is a quiet one (D27, U6). -/
theorem nanOf_quiet {f : FpFormat} (w u : Nat) (hf : 0 < f.fracBits) (hw : w = 1 + f.expBits + f.fracBits) :
    2 ^ (f.fracBits - 1) ≤ (nanOf .quiet f w u).toNat % 2 ^ f.fracBits := by
  rw [(nanOf_fields .quiet w u hf hw).2.1]
  exact (nanFraction_bounds .quiet u hf).2.2 rfl

/-- Under `any` the fraction of a NaN is drawn from that NaN's own bits. -/
theorem nanFraction_any {f : FpFormat} {u : Nat} (h : IsNan f u) : nanFraction .any f u = u % 2 ^ f.fracBits := by
  simp [nanFraction, h.2]

/-- Under `quiet` the fraction of a quiet NaN is drawn from that NaN's own bits. -/
theorem nanFraction_quiet {f : FpFormat} {u : Nat} (hf : 0 < f.fracBits)
    (h : 2 ^ (f.fracBits - 1) ≤ u % 2 ^ f.fracBits) : nanFraction .quiet f u = u % 2 ^ f.fracBits := by
  obtain ⟨k, hk⟩ : ∃ k, f.fracBits = k + 1 := ⟨f.fracBits - 1, by omega⟩
  simp only [nanFraction, hk, Nat.add_sub_cancel] at h ⊢
  have hm := Nat.mod_lt u (show 0 < 2 ^ (k + 1) by positivity)
  have h2 : 2 ^ (k + 1) = 2 * 2 ^ k := by ring
  have hd : u % 2 ^ (k + 1) % 2 ^ k = u % 2 ^ k := Nat.mod_mod_of_dvd u ⟨2, by omega⟩
  rw [← hd, Nat.mod_eq_sub_mod h, Nat.mod_eq_of_lt (by omega)]
  omega

/-- A NaN whose fraction can be drawn arises: from its own bits. -/
theorem nanOf_of_fraction {draw : NanDraw} {f : FpFormat} {w u : Nat} (hw : w = 1 + f.expBits + f.fracBits)
    (hu : u < 2 ^ w) (h : IsNan f u) (hd : nanFraction draw f u = u % 2 ^ f.fracBits) : (nanOf draw f w u).toNat = u := by
  subst hw
  have heta := fp_fields_eta hu
  rw [h.1] at heta
  unfold nanOf fpInf
  rw [hd, heta, BitVec.toNat_ofNat, Nat.mod_eq_of_lt hu]

/-- R262: under `any` every NaN pattern of the format is drawn from some u. -/
theorem nanOf_any_surjective {f : FpFormat} {w u : Nat} (hw : w = 1 + f.expBits + f.fracBits) (hu : u < 2 ^ w)
    (h : IsNan f u) : (nanOf .any f w u).toNat = u := nanOf_of_fraction hw hu h (nanFraction_any h)

/-- U6: under `quiet` every quiet NaN of the format is drawn from some u. -/
theorem nanOf_quiet_surjective {f : FpFormat} {w u : Nat} (hf : 0 < f.fracBits) (hw : w = 1 + f.expBits + f.fracBits)
    (hu : u < 2 ^ w) (h : IsNan f u) (hq : 2 ^ (f.fracBits - 1) ≤ u % 2 ^ f.fracBits) :
    (nanOf .quiet f w u).toNat = u := nanOf_of_fraction hw hu h (nanFraction_quiet hf hq)

/-! ## Conditional jumps (R110) -/

/-- A jump that is taken assigns `pc`, one that is not goes on; nothing else changes. -/
theorem State.jumpIf_cases (s : State) (c : Bool) (k : Imm48) :
    (c = true ∧ s.jumpIf c k = { s with pc := k.setWidth 64 }) ∨
    (c = false ∧ s.jumpIf c k = { s with pc := s.pc + 8#64 }) := by
  cases c
  · exact .inr ⟨rfl, rfl⟩
  · exact .inl ⟨rfl, rfl⟩

end Sys2Proof.Machine
end

