-- ==== Sys2Proof/Laws/PerInstr.lean ====
section
/-! SUPPORT. Per-instruction statements, one lemma per constructor of Instr. -/

namespace Sys2Proof.Laws

/-- The bits that the row's format draws as 0 are 0 in w (R82 to R86). -/
def ZeroFieldIsZero (row : Row) (w : Word) : Prop :=
  match row with
  | .op _ => zeroBitsOP w = 0#48
  | .r _ => zeroBitsR w = 0#44
  | .rr _ => zeroBitsRR w = 0#40
  | .ri _ => True
  | .i _ => True

/-- The word of an instruction, if it has one under a legal `ALU8_OPCODES`, has its opcode in a row and zeros where that
row's format draws 0. -/
def EncodedFormat.Statement (i : Instr) : Prop :=
  ∀ alu8 : Option Alu8Opcodes, alu8.all Alu8Opcodes.wellFormed = true → ∀ w, encode alu8 i = some w →
    ∃ row, rowOf alu8 (opcodeOf w) = some row ∧ ZeroFieldIsZero row w

theorem encodedOP {op : Opcode} {make : Instr} {i : Instr} (h : opcodeRows.lookup op = some (.op make))
    (he : ∀ alu8, encode alu8 i = some (encodeOP op)) : EncodedFormat.Statement i := by
  intro alu8 _ w hw
  obtain rfl : encodeOP op = w := Option.some.inj ((he alu8).symm.trans hw)
  exact ⟨.op make, by rw [opcodeOf_encodeOP]; exact rowOf_assigned h alu8, zeroBitsOP_encodeOP op⟩

theorem encodedR {op : Opcode} {make : RegId → Instr} {i : Instr} {rd : RegId}
    (h : opcodeRows.lookup op = some (.r make)) (he : ∀ alu8, encode alu8 i = some (encodeR op rd)) :
    EncodedFormat.Statement i := by
  intro alu8 _ w hw
  obtain rfl : encodeR op rd = w := Option.some.inj ((he alu8).symm.trans hw)
  exact ⟨.r make, by rw [opcodeOf_encodeR]; exact rowOf_assigned h alu8, zeroBitsR_encodeR op rd⟩

theorem encodedRR {op : Opcode} {make : RegId → RegId → Instr} {i : Instr} {rd rs : RegId}
    (h : opcodeRows.lookup op = some (.rr make)) (he : ∀ alu8, encode alu8 i = some (encodeRR op rd rs)) :
    EncodedFormat.Statement i := by
  intro alu8 _ w hw
  obtain rfl : encodeRR op rd rs = w := Option.some.inj ((he alu8).symm.trans hw)
  exact ⟨.rr make, by rw [opcodeOf_encodeRR]; exact rowOf_assigned h alu8, zeroBitsRR_encodeRR op rd rs⟩

theorem encodedRI {op : Opcode} {make : RegId → Imm44 → Instr} {i : Instr} {rd : RegId} {v : Imm44}
    (h : opcodeRows.lookup op = some (.ri make)) (he : ∀ alu8, encode alu8 i = some (encodeRI op rd v)) :
    EncodedFormat.Statement i := by
  intro alu8 _ w hw
  obtain rfl : encodeRI op rd v = w := Option.some.inj ((he alu8).symm.trans hw)
  exact ⟨.ri make, by rw [opcodeOf_encodeRI]; exact rowOf_assigned h alu8, trivial⟩

theorem encodedI {op : Opcode} {make : Imm48 → Instr} {i : Instr} {k : Imm48}
    (h : opcodeRows.lookup op = some (.i make)) (he : ∀ alu8, encode alu8 i = some (encodeI op k)) :
    EncodedFormat.Statement i := by
  intro alu8 _ w hw
  obtain rfl : encodeI op k = w := Option.some.inj ((he alu8).symm.trans hw)
  exact ⟨.i make, by rw [opcodeOf_encodeI]; exact rowOf_assigned h alu8, trivial⟩

theorem encodedSuppliedRR {i : Instr} {rd rs : RegId} (op : Alu8Opcodes → Opcode) (make : RegId → RegId → Instr)
    (h : ∀ o : Alu8Opcodes, o.wellFormed = true → rowOf (some o) (op o) = some (.rr make))
    (hn : encode none i = none) (he : ∀ o, encode (some o) i = some (encodeRR (op o) rd rs)) :
    EncodedFormat.Statement i := by
  intro alu8 ha w hw
  cases alu8 with
  | none => rw [hn] at hw; cases hw
  | some o =>
    obtain rfl : encodeRR (op o) rd rs = w := Option.some.inj ((he o).symm.trans hw)
    exact ⟨.rr make, by rw [opcodeOf_encodeRR]; exact h o ha, zeroBitsRR_encodeRR (op o) rd rs⟩

theorem encodedSuppliedRI {i : Instr} {rd : RegId} {v : Imm44} (op : Alu8Opcodes → Opcode)
    (make : RegId → Imm44 → Instr)
    (h : ∀ o : Alu8Opcodes, o.wellFormed = true → rowOf (some o) (op o) = some (.ri make))
    (hn : encode none i = none) (he : ∀ o, encode (some o) i = some (encodeRI (op o) rd v)) :
    EncodedFormat.Statement i := by
  intro alu8 ha w hw
  cases alu8 with
  | none => rw [hn] at hw; cases hw
  | some o =>
    obtain rfl : encodeRI (op o) rd v = w := Option.some.inj ((he o).symm.trans hw)
    exact ⟨.ri make, by rw [opcodeOf_encodeRI]; exact h o ha, trivial⟩

theorem EncodedFormat.parar : EncodedFormat.Statement .parar := encodedOP (op := 0x0000#16) rfl (fun _ => rfl)
theorem EncodedFormat.nop : EncodedFormat.Statement .nop := encodedOP (op := 0x0001#16) rfl (fun _ => rfl)
theorem EncodedFormat.add (rd rs : RegId) : EncodedFormat.Statement (.add rd rs) := encodedRR rfl (fun _ => rfl)
theorem EncodedFormat.sub (rd rs : RegId) : EncodedFormat.Statement (.sub rd rs) := encodedRR rfl (fun _ => rfl)
theorem EncodedFormat.muls (rd rs : RegId) : EncodedFormat.Statement (.muls rd rs) := encodedRR rfl (fun _ => rfl)
theorem EncodedFormat.mul (rd rs : RegId) : EncodedFormat.Statement (.mul rd rs) := encodedRR rfl (fun _ => rfl)
theorem EncodedFormat.div (rd rs : RegId) : EncodedFormat.Statement (.div rd rs) := encodedRR rfl (fun _ => rfl)
theorem EncodedFormat.addv (rd : RegId) (v : Imm44) : EncodedFormat.Statement (.addv rd v) := encodedRI rfl (fun _ => rfl)
theorem EncodedFormat.subv (rd : RegId) (v : Imm44) : EncodedFormat.Statement (.subv rd v) := encodedRI rfl (fun _ => rfl)
theorem EncodedFormat.inc (rd : RegId) : EncodedFormat.Statement (.inc rd) := encodedR rfl (fun _ => rfl)
theorem EncodedFormat.dec (rd : RegId) : EncodedFormat.Statement (.dec rd) := encodedR rfl (fun _ => rfl)
theorem EncodedFormat.not (rd : RegId) : EncodedFormat.Statement (.not rd) := encodedR rfl (fun _ => rfl)
theorem EncodedFormat.and (rd rs : RegId) : EncodedFormat.Statement (.and rd rs) := encodedRR rfl (fun _ => rfl)
theorem EncodedFormat.andv (rd : RegId) (v : Imm44) : EncodedFormat.Statement (.andv rd v) := encodedRI rfl (fun _ => rfl)
theorem EncodedFormat.or (rd rs : RegId) : EncodedFormat.Statement (.or rd rs) := encodedRR rfl (fun _ => rfl)
theorem EncodedFormat.orv (rd : RegId) (v : Imm44) : EncodedFormat.Statement (.orv rd v) := encodedRI rfl (fun _ => rfl)
theorem EncodedFormat.xor (rd rs : RegId) : EncodedFormat.Statement (.xor rd rs) := encodedRR rfl (fun _ => rfl)
theorem EncodedFormat.xorv (rd : RegId) (v : Imm44) : EncodedFormat.Statement (.xorv rd v) := encodedRI rfl (fun _ => rfl)
theorem EncodedFormat.shl (rd : RegId) : EncodedFormat.Statement (.shl rd) := encodedR rfl (fun _ => rfl)
theorem EncodedFormat.shr (rd : RegId) : EncodedFormat.Statement (.shr rd) := encodedR rfl (fun _ => rfl)
theorem EncodedFormat.load (rd : RegId) (v : Imm44) : EncodedFormat.Statement (.load rd v) := encodedRI rfl (fun _ => rfl)
theorem EncodedFormat.loadv (rd : RegId) (v : Imm44) : EncodedFormat.Statement (.loadv rd v) := encodedRI rfl (fun _ => rfl)
theorem EncodedFormat.store (rd rs : RegId) : EncodedFormat.Statement (.store rd rs) := encodedRR rfl (fun _ => rfl)
theorem EncodedFormat.storev (rd : RegId) (v : Imm44) : EncodedFormat.Statement (.storev rd v) := encodedRI rfl (fun _ => rfl)
theorem EncodedFormat.clear (rd : RegId) : EncodedFormat.Statement (.clear rd) := encodedR rfl (fun _ => rfl)
theorem EncodedFormat.cmp (rd rs : RegId) : EncodedFormat.Statement (.cmp rd rs) := encodedRR rfl (fun _ => rfl)
theorem EncodedFormat.cmpv (rd : RegId) (v : Imm44) : EncodedFormat.Statement (.cmpv rd v) := encodedRI rfl (fun _ => rfl)
theorem EncodedFormat.jmp (k : Imm48) : EncodedFormat.Statement (.jmp k) := encodedI rfl (fun _ => rfl)
theorem EncodedFormat.jeq (k : Imm48) : EncodedFormat.Statement (.jeq k) := encodedI rfl (fun _ => rfl)
theorem EncodedFormat.jne (k : Imm48) : EncodedFormat.Statement (.jne k) := encodedI rfl (fun _ => rfl)
theorem EncodedFormat.jmi (k : Imm48) : EncodedFormat.Statement (.jmi k) := encodedI rfl (fun _ => rfl)
theorem EncodedFormat.jpl (k : Imm48) : EncodedFormat.Statement (.jpl k) := encodedI rfl (fun _ => rfl)
theorem EncodedFormat.svio (rd : RegId) (v : Imm44) : EncodedFormat.Statement (.svio rd v) := encodedRI rfl (fun _ => rfl)
theorem EncodedFormat.loadio (rd : RegId) (v : Imm44) : EncodedFormat.Statement (.loadio rd v) := encodedRI rfl (fun _ => rfl)
theorem EncodedFormat.showio (k : Imm48) : EncodedFormat.Statement (.showio k) := encodedI rfl (fun _ => rfl)
theorem EncodedFormat.clrio : EncodedFormat.Statement .clrio := encodedOP (op := 0x00a3#16) rfl (fun _ => rfl)
theorem EncodedFormat.resetio : EncodedFormat.Statement .resetio := encodedOP (op := 0x00a4#16) rfl (fun _ => rfl)
theorem EncodedFormat.add1 (rd rs : RegId) : EncodedFormat.Statement (.add1 rd rs) := encodedRR rfl (fun _ => rfl)
theorem EncodedFormat.sub1 (rd rs : RegId) : EncodedFormat.Statement (.sub1 rd rs) := encodedRR rfl (fun _ => rfl)
theorem EncodedFormat.mul1 (rd rs : RegId) : EncodedFormat.Statement (.mul1 rd rs) := encodedRR rfl (fun _ => rfl)
theorem EncodedFormat.muls1 (rd rs : RegId) : EncodedFormat.Statement (.muls1 rd rs) := encodedRR rfl (fun _ => rfl)
theorem EncodedFormat.div1 (rd rs : RegId) : EncodedFormat.Statement (.div1 rd rs) := encodedRR rfl (fun _ => rfl)
theorem EncodedFormat.addv1 (rd : RegId) (v : Imm44) : EncodedFormat.Statement (.addv1 rd v) := encodedRI rfl (fun _ => rfl)
theorem EncodedFormat.subv1 (rd : RegId) (v : Imm44) : EncodedFormat.Statement (.subv1 rd v) := encodedRI rfl (fun _ => rfl)
theorem EncodedFormat.add2 (rd rs : RegId) : EncodedFormat.Statement (.add2 rd rs) := encodedRR rfl (fun _ => rfl)
theorem EncodedFormat.sub2 (rd rs : RegId) : EncodedFormat.Statement (.sub2 rd rs) := encodedRR rfl (fun _ => rfl)
theorem EncodedFormat.mul2 (rd rs : RegId) : EncodedFormat.Statement (.mul2 rd rs) := encodedRR rfl (fun _ => rfl)
theorem EncodedFormat.muls2 (rd rs : RegId) : EncodedFormat.Statement (.muls2 rd rs) := encodedRR rfl (fun _ => rfl)
theorem EncodedFormat.div2 (rd rs : RegId) : EncodedFormat.Statement (.div2 rd rs) := encodedRR rfl (fun _ => rfl)
theorem EncodedFormat.addv2 (rd : RegId) (v : Imm44) : EncodedFormat.Statement (.addv2 rd v) := encodedRI rfl (fun _ => rfl)
theorem EncodedFormat.subv2 (rd : RegId) (v : Imm44) : EncodedFormat.Statement (.subv2 rd v) := encodedRI rfl (fun _ => rfl)
theorem EncodedFormat.add4 (rd rs : RegId) : EncodedFormat.Statement (.add4 rd rs) := encodedRR rfl (fun _ => rfl)
theorem EncodedFormat.sub4 (rd rs : RegId) : EncodedFormat.Statement (.sub4 rd rs) := encodedRR rfl (fun _ => rfl)
theorem EncodedFormat.mul4 (rd rs : RegId) : EncodedFormat.Statement (.mul4 rd rs) := encodedRR rfl (fun _ => rfl)
theorem EncodedFormat.muls4 (rd rs : RegId) : EncodedFormat.Statement (.muls4 rd rs) := encodedRR rfl (fun _ => rfl)
theorem EncodedFormat.div4 (rd rs : RegId) : EncodedFormat.Statement (.div4 rd rs) := encodedRR rfl (fun _ => rfl)
theorem EncodedFormat.addv4 (rd : RegId) (v : Imm44) : EncodedFormat.Statement (.addv4 rd v) := encodedRI rfl (fun _ => rfl)
theorem EncodedFormat.subv4 (rd : RegId) (v : Imm44) : EncodedFormat.Statement (.subv4 rd v) := encodedRI rfl (fun _ => rfl)
theorem EncodedFormat.mov1 (rd rs : RegId) : EncodedFormat.Statement (.mov1 rd rs) := encodedRR rfl (fun _ => rfl)
theorem EncodedFormat.mov2 (rd rs : RegId) : EncodedFormat.Statement (.mov2 rd rs) := encodedRR rfl (fun _ => rfl)
theorem EncodedFormat.mov4 (rd rs : RegId) : EncodedFormat.Statement (.mov4 rd rs) := encodedRR rfl (fun _ => rfl)
theorem EncodedFormat.mov8 (rd rs : RegId) : EncodedFormat.Statement (.mov8 rd rs) := encodedRR rfl (fun _ => rfl)
theorem EncodedFormat.movv1 (rd : RegId) (v : Imm44) : EncodedFormat.Statement (.movv1 rd v) := encodedRI rfl (fun _ => rfl)
theorem EncodedFormat.movv2 (rd : RegId) (v : Imm44) : EncodedFormat.Statement (.movv2 rd v) := encodedRI rfl (fun _ => rfl)
theorem EncodedFormat.movv4 (rd : RegId) (v : Imm44) : EncodedFormat.Statement (.movv4 rd v) := encodedRI rfl (fun _ => rfl)
theorem EncodedFormat.movv8 (rd : RegId) (v : Imm44) : EncodedFormat.Statement (.movv8 rd v) := encodedRI rfl (fun _ => rfl)
theorem EncodedFormat.load1 (rd : RegId) (v : Imm44) : EncodedFormat.Statement (.load1 rd v) := encodedRI rfl (fun _ => rfl)
theorem EncodedFormat.load2 (rd : RegId) (v : Imm44) : EncodedFormat.Statement (.load2 rd v) := encodedRI rfl (fun _ => rfl)
theorem EncodedFormat.load4 (rd : RegId) (v : Imm44) : EncodedFormat.Statement (.load4 rd v) := encodedRI rfl (fun _ => rfl)
theorem EncodedFormat.load8 (rd : RegId) (v : Imm44) : EncodedFormat.Statement (.load8 rd v) := encodedRI rfl (fun _ => rfl)
theorem EncodedFormat.loadr1 (rd rs : RegId) : EncodedFormat.Statement (.loadr1 rd rs) := encodedRR rfl (fun _ => rfl)
theorem EncodedFormat.loadr2 (rd rs : RegId) : EncodedFormat.Statement (.loadr2 rd rs) := encodedRR rfl (fun _ => rfl)
theorem EncodedFormat.loadr4 (rd rs : RegId) : EncodedFormat.Statement (.loadr4 rd rs) := encodedRR rfl (fun _ => rfl)
theorem EncodedFormat.loadr8 (rd rs : RegId) : EncodedFormat.Statement (.loadr8 rd rs) := encodedRR rfl (fun _ => rfl)
theorem EncodedFormat.store1 (rd : RegId) (v : Imm44) : EncodedFormat.Statement (.store1 rd v) := encodedRI rfl (fun _ => rfl)
theorem EncodedFormat.store2 (rd : RegId) (v : Imm44) : EncodedFormat.Statement (.store2 rd v) := encodedRI rfl (fun _ => rfl)
theorem EncodedFormat.store4 (rd : RegId) (v : Imm44) : EncodedFormat.Statement (.store4 rd v) := encodedRI rfl (fun _ => rfl)
theorem EncodedFormat.store8 (rd : RegId) (v : Imm44) : EncodedFormat.Statement (.store8 rd v) := encodedRI rfl (fun _ => rfl)
theorem EncodedFormat.storer1 (rd rs : RegId) : EncodedFormat.Statement (.storer1 rd rs) := encodedRR rfl (fun _ => rfl)
theorem EncodedFormat.storer2 (rd rs : RegId) : EncodedFormat.Statement (.storer2 rd rs) := encodedRR rfl (fun _ => rfl)
theorem EncodedFormat.storer4 (rd rs : RegId) : EncodedFormat.Statement (.storer4 rd rs) := encodedRR rfl (fun _ => rfl)
theorem EncodedFormat.storer8 (rd rs : RegId) : EncodedFormat.Statement (.storer8 rd rs) := encodedRR rfl (fun _ => rfl)
theorem EncodedFormat.fadd4 (rd rs : RegId) : EncodedFormat.Statement (.fadd4 rd rs) := encodedRR rfl (fun _ => rfl)
theorem EncodedFormat.fsub4 (rd rs : RegId) : EncodedFormat.Statement (.fsub4 rd rs) := encodedRR rfl (fun _ => rfl)
theorem EncodedFormat.fmul4 (rd rs : RegId) : EncodedFormat.Statement (.fmul4 rd rs) := encodedRR rfl (fun _ => rfl)
theorem EncodedFormat.fdiv4 (rd rs : RegId) : EncodedFormat.Statement (.fdiv4 rd rs) := encodedRR rfl (fun _ => rfl)
theorem EncodedFormat.fadd8 (rd rs : RegId) : EncodedFormat.Statement (.fadd8 rd rs) := encodedRR rfl (fun _ => rfl)
theorem EncodedFormat.fsub8 (rd rs : RegId) : EncodedFormat.Statement (.fsub8 rd rs) := encodedRR rfl (fun _ => rfl)
theorem EncodedFormat.fmul8 (rd rs : RegId) : EncodedFormat.Statement (.fmul8 rd rs) := encodedRR rfl (fun _ => rfl)
theorem EncodedFormat.fdiv8 (rd rs : RegId) : EncodedFormat.Statement (.fdiv8 rd rs) := encodedRR rfl (fun _ => rfl)
theorem EncodedFormat.fsqrt4 (rd : RegId) : EncodedFormat.Statement (.fsqrt4 rd) := encodedR rfl (fun _ => rfl)
theorem EncodedFormat.fsqrt8 (rd : RegId) : EncodedFormat.Statement (.fsqrt8 rd) := encodedR rfl (fun _ => rfl)
theorem EncodedFormat.fsin4 (rd : RegId) : EncodedFormat.Statement (.fsin4 rd) := encodedR rfl (fun _ => rfl)
theorem EncodedFormat.fcos4 (rd : RegId) : EncodedFormat.Statement (.fcos4 rd) := encodedR rfl (fun _ => rfl)
theorem EncodedFormat.fsin8 (rd : RegId) : EncodedFormat.Statement (.fsin8 rd) := encodedR rfl (fun _ => rfl)
theorem EncodedFormat.fcos8 (rd : RegId) : EncodedFormat.Statement (.fcos8 rd) := encodedR rfl (fun _ => rfl)
theorem EncodedFormat.ret : EncodedFormat.Statement .ret := encodedOP (op := 0x0800#16) rfl (fun _ => rfl)
theorem EncodedFormat.pop1 (rd : RegId) : EncodedFormat.Statement (.pop1 rd) := encodedR rfl (fun _ => rfl)
theorem EncodedFormat.pop2 (rd : RegId) : EncodedFormat.Statement (.pop2 rd) := encodedR rfl (fun _ => rfl)
theorem EncodedFormat.pop4 (rd : RegId) : EncodedFormat.Statement (.pop4 rd) := encodedR rfl (fun _ => rfl)
theorem EncodedFormat.pop8 (rd : RegId) : EncodedFormat.Statement (.pop8 rd) := encodedR rfl (fun _ => rfl)
theorem EncodedFormat.push1 (rd : RegId) : EncodedFormat.Statement (.push1 rd) := encodedR rfl (fun _ => rfl)
theorem EncodedFormat.push2 (rd : RegId) : EncodedFormat.Statement (.push2 rd) := encodedR rfl (fun _ => rfl)
theorem EncodedFormat.push4 (rd : RegId) : EncodedFormat.Statement (.push4 rd) := encodedR rfl (fun _ => rfl)
theorem EncodedFormat.push8 (rd : RegId) : EncodedFormat.Statement (.push8 rd) := encodedR rfl (fun _ => rfl)
theorem EncodedFormat.cmp1 (rd rs : RegId) : EncodedFormat.Statement (.cmp1 rd rs) := encodedRR rfl (fun _ => rfl)
theorem EncodedFormat.cmp2 (rd rs : RegId) : EncodedFormat.Statement (.cmp2 rd rs) := encodedRR rfl (fun _ => rfl)
theorem EncodedFormat.cmp4 (rd rs : RegId) : EncodedFormat.Statement (.cmp4 rd rs) := encodedRR rfl (fun _ => rfl)
theorem EncodedFormat.cmp8 (rd rs : RegId) : EncodedFormat.Statement (.cmp8 rd rs) := encodedRR rfl (fun _ => rfl)
theorem EncodedFormat.cmpv1 (rd : RegId) (v : Imm44) : EncodedFormat.Statement (.cmpv1 rd v) := encodedRI rfl (fun _ => rfl)
theorem EncodedFormat.cmpv2 (rd : RegId) (v : Imm44) : EncodedFormat.Statement (.cmpv2 rd v) := encodedRI rfl (fun _ => rfl)
theorem EncodedFormat.cmpv4 (rd : RegId) (v : Imm44) : EncodedFormat.Statement (.cmpv4 rd v) := encodedRI rfl (fun _ => rfl)
theorem EncodedFormat.cmpv8 (rd : RegId) (v : Imm44) : EncodedFormat.Statement (.cmpv8 rd v) := encodedRI rfl (fun _ => rfl)
theorem EncodedFormat.add8 (rd rs : RegId) : EncodedFormat.Statement (.add8 rd rs) :=
  encodedSuppliedRR (·.add8) .add8 (fun _ h => (rowOf_supplied h).1) rfl (fun _ => rfl)
theorem EncodedFormat.sub8 (rd rs : RegId) : EncodedFormat.Statement (.sub8 rd rs) :=
  encodedSuppliedRR (·.sub8) .sub8 (fun _ h => (rowOf_supplied h).2.1) rfl (fun _ => rfl)
theorem EncodedFormat.mul8 (rd rs : RegId) : EncodedFormat.Statement (.mul8 rd rs) :=
  encodedSuppliedRR (·.mul8) .mul8 (fun _ h => (rowOf_supplied h).2.2.1) rfl (fun _ => rfl)
theorem EncodedFormat.muls8 (rd rs : RegId) : EncodedFormat.Statement (.muls8 rd rs) :=
  encodedSuppliedRR (·.muls8) .muls8 (fun _ h => (rowOf_supplied h).2.2.2.1) rfl (fun _ => rfl)
theorem EncodedFormat.div8 (rd rs : RegId) : EncodedFormat.Statement (.div8 rd rs) :=
  encodedSuppliedRR (·.div8) .div8 (fun _ h => (rowOf_supplied h).2.2.2.2.1) rfl (fun _ => rfl)
theorem EncodedFormat.addv8 (rd : RegId) (v : Imm44) : EncodedFormat.Statement (.addv8 rd v) :=
  encodedSuppliedRI (·.addv8) .addv8 (fun _ h => (rowOf_supplied h).2.2.2.2.2.1) rfl (fun _ => rfl)
theorem EncodedFormat.subv8 (rd : RegId) (v : Imm44) : EncodedFormat.Statement (.subv8 rd v) :=
  encodedSuppliedRI (·.subv8) .subv8 (fun _ h => (rowOf_supplied h).2.2.2.2.2.2) rfl (fun _ => rfl)

end Sys2Proof.Laws
end

