-- ==== Sys2Proof/Laws/Shapes.lean ====
section
/-! SUPPORT. The shapes in which the 120 instructions end, said once: what `exec` answers in terms of the shared operations,
with the class of the instruction. A statement about every instruction is proved by the cases of `Shape`. -/

namespace Sys2Proof.Machine

/-- The class of i at s: its destination, whether it writes flags, is an I/O instruction, may assign `pc`, its `SP` step, its
read and its write access, and whether it divides by zero. -/
def Classified (s : State) (i : Instr) (dest : Option RegId) (flags io pc : Bool) (sp : Word)
    (rd wr : Option (Word × Nat)) (zero : Bool) : Prop :=
  i.destination = dest ∧ i.writesFlags = flags ∧ i.isIo = io ∧ i.assignsPc = pc ∧ i.spStep = sp ∧
    readAccess s i = rd ∧ writeAccess s i = wr ∧ zeroDivisor s i = zero

/-- How an instruction ends at s, and in which state. -/
inductive Shape (s : State) : Instr → State → Prop
  | halt : Shape s .parar s.halt
  | nop : Shape s .nop s.advance
  | jump {i : Instr} (c : Bool) (k : Imm48) (h : Classified s i none false false true 0#64 none none false)
      (hp : i ≠ .parar) : Shape s i (s.jumpIf c k)
  | alu {i : Instr} {w : Nat} (d : RegId) (r : BitVec w) (h0 : 0 < w) (hw : w ≤ 64)
      (h : Classified s i (some d) true false false 0#64 none none false) (hp : i ≠ .parar) : Shape s i (s.aluResult d r)
  | divideByZero {i : Instr} (d : RegId) (h : Classified s i (some d) true false false 0#64 none none true)
      (hp : i ≠ .parar) : Shape s i (s.raise (.divideByZero s.pc))
  | compare {i : Instr} {w : Nat} (d : RegId) (b : BitVec w)
      (h : Classified s i none true false false 0#64 none none false) (hp : i ≠ .parar) : Shape s i (s.compare d b)
  | move {i : Instr} {w : Nat} (d : RegId) (r : BitVec w) (h0 : 0 < w) (hw : w ≤ 64)
      (h : Classified s i (some d) false false false 0#64 none none false) (hp : i ≠ .parar) :
      Shape s i (s.writeSized d r).advance
  | fp {i : Instr} (f : FpFormat) (w : Nat) (d : RegId) (out : FpOut) (h0 : 0 < w) (hw : w ≤ 64)
      (h : Classified s i (some d) false false false 0#64 none none false) (hp : i ≠ .parar) :
      Shape s i (s.fpWrite f w d out)
  | load {i : Instr} (w : Nat) (d : RegId) (a : Word) (hm : w ∈ [8, 16, 32, 64])
      (h : Classified s i (some d) false false false 0#64 (some (a, w / 8)) none false) (hp : i ≠ .parar) :
      Shape s i (s.loadInto w d a)
  | store {i : Instr} {w : Nat} (a : Word) (v : BitVec w) (hm : w ∈ [8, 16, 32, 64])
      (h : Classified s i none false false false 0#64 none (some (a, w / 8)) false) (hp : i ≠ .parar) :
      Shape s i (s.storeTo a v)
  | push {i : Instr} {w : Nat} (v : BitVec w) (hm : w ∈ [8, 16, 32, 64])
      (h : Classified s i none false false false (BitVec.ofNat 64 (w / 8)) none (some (s.sp, w / 8)) false)
      (hp : i ≠ .parar) : Shape s i (s.push v)
  | pop {i : Instr} (w : Nat) (d : RegId) (hm : w ∈ [8, 16, 32, 64])
      (h : Classified s i (some d) false false false (-BitVec.ofNat 64 (w / 8)) (some (s.popAddr w, w / 8)) none false)
      (hp : i ≠ .parar) : Shape s i (s.popInto w d)
  | ret : Shape s .ret s.popPc
  | svio (rd : RegId) (a : Imm44) :
      Shape s (.svio rd a) ((s.ioWrite (cell44 a) (s.reg rd)).emit (.out (cell44 a) (s.reg rd))).advance
  | loadio (rd : RegId) (a : Imm44) :
      Shape s (.loadio rd a) (((s.ioReadState (cell44 a)).setReg rd (s.ioReadValue (cell44 a))).emit
        (.input (cell44 a) (s.ioReadValue (cell44 a)))).advance
  | showio (k : Imm48) : Shape s (.showio k) (s.emit (.show (cell48 k) (s.ioCell (cell48 k)))).advance
  | clrio : Shape s .clrio (s.clearInputs.emit .clrIO).advance
  | resetio : Shape s .resetio (s.clearIo.emit .resetIO).advance

/-- The class of an instruction whose operands do not matter to it. -/
theorem classified_rfl {s : State} {i : Instr} :
    Classified s i i.destination i.writesFlags i.isIo i.assignsPc i.spStep (readAccess s i) (writeAccess s i)
      (zeroDivisor s i) := ⟨rfl, rfl, rfl, rfl, rfl, rfl, rfl, rfl⟩

/-- A division ends as an ALU instruction or in `DivideByZero`. -/
theorem Shape.divide {s : State} {i : Instr} {w : Nat} (q : BitVec w → BitVec w → BitVec w) (d : RegId) (b : BitVec w)
    (h0 : 0 < w) (hw : w ≤ 64) (h : Classified s i (some d) true false false 0#64 none none (decide (b = 0#w)))
    (hp : i ≠ .parar) : Shape s i (s.divide q d b) := by
  by_cases hb : b = 0#w
  · subst hb
    rw [State.divide_zero]
    exact .divideByZero d (by simpa using h) hp
  · rw [State.divide, if_neg hb]
    exact .alu d _ h0 hw (by simpa [hb] using h) hp

/-- A write of a whole register and on is a data transfer. -/
theorem Shape.moveWhole {s : State} {i : Instr} (d : RegId) (v : Word)
    (h : Classified s i (some d) false false false 0#64 none none false) (hp : i ≠ .parar) :
    Shape s i (s.setReg d v).advance := by
  rw [← State.writeSized_64]
  exact .move d v (by decide) (by decide) h hp

/-- The state `exec` answers. -/
def execState (i : Instr) (s : State) : State :=
  match exec i s with
  | .next t => t
  | .fault _ => s
  | .refused _ => s

/-- Every instruction ends in its shape. -/
theorem execState_shape (s : State) : ∀ i : Instr, Shape s i (execState i s)
  | .parar => .halt
  | .nop => .nop
  | .add rd rs => .alu _ _ (by decide) (by decide) classified_rfl (by simp)
  | .sub rd rs => .alu _ _ (by decide) (by decide) classified_rfl (by simp)
  | .muls rd rs => .alu _ _ (by decide) (by decide) classified_rfl (by simp)
  | .mul rd rs => .alu _ _ (by decide) (by decide) classified_rfl (by simp)
  | .div rd rs => .divide _ _ _ (by decide) (by decide) classified_rfl (by simp)
  | .addv rd v => .alu _ _ (by decide) (by decide) classified_rfl (by simp)
  | .subv rd v => .alu _ _ (by decide) (by decide) classified_rfl (by simp)
  | .inc rd => .alu _ _ (by decide) (by decide) classified_rfl (by simp)
  | .dec rd => .alu _ _ (by decide) (by decide) classified_rfl (by simp)
  | .not rd => .alu _ _ (by decide) (by decide) classified_rfl (by simp)
  | .and rd rs => .alu _ _ (by decide) (by decide) classified_rfl (by simp)
  | .andv rd v => .alu _ _ (by decide) (by decide) classified_rfl (by simp)
  | .or rd rs => .alu _ _ (by decide) (by decide) classified_rfl (by simp)
  | .orv rd v => .alu _ _ (by decide) (by decide) classified_rfl (by simp)
  | .xor rd rs => .alu _ _ (by decide) (by decide) classified_rfl (by simp)
  | .xorv rd v => .alu _ _ (by decide) (by decide) classified_rfl (by simp)
  | .shl rd => .alu _ _ (by decide) (by decide) classified_rfl (by simp)
  | .shr rd => .alu _ _ (by decide) (by decide) classified_rfl (by simp)
  | .load rd v => .load _ _ _ (by decide) classified_rfl (by simp)
  | .loadv rd v => .moveWhole rd _ classified_rfl (by simp)
  | .store rd rs => .store _ _ (by decide) classified_rfl (by simp)
  | .storev rd v => .store _ _ (by decide) classified_rfl (by simp)
  | .clear rd => .moveWhole rd _ classified_rfl (by simp)
  | .cmp rd rs => .compare _ _ classified_rfl (by simp)
  | .cmpv rd v => .compare _ _ classified_rfl (by simp)
  | .jmp k => .jump _ _ classified_rfl (by simp)
  | .jeq k => .jump _ _ classified_rfl (by simp)
  | .jne k => .jump _ _ classified_rfl (by simp)
  | .jmi k => .jump _ _ classified_rfl (by simp)
  | .jpl k => .jump _ _ classified_rfl (by simp)
  | .svio rd v => .svio rd v
  | .loadio rd v => .loadio rd v
  | .showio k => .showio k
  | .clrio => .clrio
  | .resetio => .resetio
  | .add1 rd rs => .alu _ _ (by decide) (by decide) classified_rfl (by simp)
  | .sub1 rd rs => .alu _ _ (by decide) (by decide) classified_rfl (by simp)
  | .mul1 rd rs => .alu _ _ (by decide) (by decide) classified_rfl (by simp)
  | .muls1 rd rs => .alu _ _ (by decide) (by decide) classified_rfl (by simp)
  | .div1 rd rs => .divide _ _ _ (by decide) (by decide) classified_rfl (by simp)
  | .addv1 rd v => .alu _ _ (by decide) (by decide) classified_rfl (by simp)
  | .subv1 rd v => .alu _ _ (by decide) (by decide) classified_rfl (by simp)
  | .add2 rd rs => .alu _ _ (by decide) (by decide) classified_rfl (by simp)
  | .sub2 rd rs => .alu _ _ (by decide) (by decide) classified_rfl (by simp)
  | .mul2 rd rs => .alu _ _ (by decide) (by decide) classified_rfl (by simp)
  | .muls2 rd rs => .alu _ _ (by decide) (by decide) classified_rfl (by simp)
  | .div2 rd rs => .divide _ _ _ (by decide) (by decide) classified_rfl (by simp)
  | .addv2 rd v => .alu _ _ (by decide) (by decide) classified_rfl (by simp)
  | .subv2 rd v => .alu _ _ (by decide) (by decide) classified_rfl (by simp)
  | .add4 rd rs => .alu _ _ (by decide) (by decide) classified_rfl (by simp)
  | .sub4 rd rs => .alu _ _ (by decide) (by decide) classified_rfl (by simp)
  | .mul4 rd rs => .alu _ _ (by decide) (by decide) classified_rfl (by simp)
  | .muls4 rd rs => .alu _ _ (by decide) (by decide) classified_rfl (by simp)
  | .div4 rd rs => .divide _ _ _ (by decide) (by decide) classified_rfl (by simp)
  | .addv4 rd v => .alu _ _ (by decide) (by decide) classified_rfl (by simp)
  | .subv4 rd v => .alu _ _ (by decide) (by decide) classified_rfl (by simp)
  | .mov1 rd rs => .move _ _ (by decide) (by decide) classified_rfl (by simp)
  | .mov2 rd rs => .move _ _ (by decide) (by decide) classified_rfl (by simp)
  | .mov4 rd rs => .move _ _ (by decide) (by decide) classified_rfl (by simp)
  | .mov8 rd rs => .move _ _ (by decide) (by decide) classified_rfl (by simp)
  | .movv1 rd v => .move _ _ (by decide) (by decide) classified_rfl (by simp)
  | .movv2 rd v => .move _ _ (by decide) (by decide) classified_rfl (by simp)
  | .movv4 rd v => .move _ _ (by decide) (by decide) classified_rfl (by simp)
  | .movv8 rd v => .move _ _ (by decide) (by decide) classified_rfl (by simp)
  | .load1 rd v => .load _ _ _ (by decide) classified_rfl (by simp)
  | .load2 rd v => .load _ _ _ (by decide) classified_rfl (by simp)
  | .load4 rd v => .load _ _ _ (by decide) classified_rfl (by simp)
  | .load8 rd v => .load _ _ _ (by decide) classified_rfl (by simp)
  | .loadr1 rd rs => .load _ _ _ (by decide) classified_rfl (by simp)
  | .loadr2 rd rs => .load _ _ _ (by decide) classified_rfl (by simp)
  | .loadr4 rd rs => .load _ _ _ (by decide) classified_rfl (by simp)
  | .loadr8 rd rs => .load _ _ _ (by decide) classified_rfl (by simp)
  | .store1 rd v => .store _ _ (by decide) classified_rfl (by simp)
  | .store2 rd v => .store _ _ (by decide) classified_rfl (by simp)
  | .store4 rd v => .store _ _ (by decide) classified_rfl (by simp)
  | .store8 rd v => .store _ _ (by decide) classified_rfl (by simp)
  | .storer1 rd rs => .store _ _ (by decide) classified_rfl (by simp)
  | .storer2 rd rs => .store _ _ (by decide) classified_rfl (by simp)
  | .storer4 rd rs => .store _ _ (by decide) classified_rfl (by simp)
  | .storer8 rd rs => .store _ _ (by decide) classified_rfl (by simp)
  | .fadd4 rd rs => .fp _ _ _ _ (by decide) (by decide) classified_rfl (by simp)
  | .fsub4 rd rs => .fp _ _ _ _ (by decide) (by decide) classified_rfl (by simp)
  | .fmul4 rd rs => .fp _ _ _ _ (by decide) (by decide) classified_rfl (by simp)
  | .fdiv4 rd rs => .fp _ _ _ _ (by decide) (by decide) classified_rfl (by simp)
  | .fadd8 rd rs => .fp _ _ _ _ (by decide) (by decide) classified_rfl (by simp)
  | .fsub8 rd rs => .fp _ _ _ _ (by decide) (by decide) classified_rfl (by simp)
  | .fmul8 rd rs => .fp _ _ _ _ (by decide) (by decide) classified_rfl (by simp)
  | .fdiv8 rd rs => .fp _ _ _ _ (by decide) (by decide) classified_rfl (by simp)
  | .fsqrt4 rd => .fp _ _ _ _ (by decide) (by decide) classified_rfl (by simp)
  | .fsqrt8 rd => .fp _ _ _ _ (by decide) (by decide) classified_rfl (by simp)
  | .fsin4 rd => .move _ _ (by decide) (by decide) classified_rfl (by simp)
  | .fcos4 rd => .move _ _ (by decide) (by decide) classified_rfl (by simp)
  | .fsin8 rd => .move _ _ (by decide) (by decide) classified_rfl (by simp)
  | .fcos8 rd => .move _ _ (by decide) (by decide) classified_rfl (by simp)
  | .ret => .ret
  | .pop1 rd => .pop _ _ (by decide) classified_rfl (by simp)
  | .pop2 rd => .pop _ _ (by decide) classified_rfl (by simp)
  | .pop4 rd => .pop _ _ (by decide) classified_rfl (by simp)
  | .pop8 rd => .pop _ _ (by decide) classified_rfl (by simp)
  | .push1 rd => .push _ (by decide) classified_rfl (by simp)
  | .push2 rd => .push _ (by decide) classified_rfl (by simp)
  | .push4 rd => .push _ (by decide) classified_rfl (by simp)
  | .push8 rd => .push _ (by decide) classified_rfl (by simp)
  | .cmp1 rd rs => .compare _ _ classified_rfl (by simp)
  | .cmp2 rd rs => .compare _ _ classified_rfl (by simp)
  | .cmp4 rd rs => .compare _ _ classified_rfl (by simp)
  | .cmp8 rd rs => .compare _ _ classified_rfl (by simp)
  | .cmpv1 rd v => .compare _ _ classified_rfl (by simp)
  | .cmpv2 rd v => .compare _ _ classified_rfl (by simp)
  | .cmpv4 rd v => .compare _ _ classified_rfl (by simp)
  | .cmpv8 rd v => .compare _ _ classified_rfl (by simp)
  | .add8 rd rs => .alu _ _ (by decide) (by decide) classified_rfl (by simp)
  | .sub8 rd rs => .alu _ _ (by decide) (by decide) classified_rfl (by simp)
  | .mul8 rd rs => .alu _ _ (by decide) (by decide) classified_rfl (by simp)
  | .muls8 rd rs => .alu _ _ (by decide) (by decide) classified_rfl (by simp)
  | .div8 rd rs => .divide _ _ _ (by decide) (by decide) classified_rfl (by simp)
  | .addv8 rd v => .alu _ _ (by decide) (by decide) classified_rfl (by simp)
  | .subv8 rd v => .alu _ _ (by decide) (by decide) classified_rfl (by simp)

/-- `exec` answers a next state, in the shape of the instruction. -/
theorem exec_shape {i : Instr} {s t : State} (h : exec i s = .next t) : Shape s i t := by
  have := execState_shape s i
  rwa [execState, h] at this

end Sys2Proof.Machine
end

