-- ==== Sys2Proof/Tests/Slice0.lean ====
section
/-! SUPPORT. Tests: ill-formed terms refused; one written-out word per constructor (the table of 95_test_vectors.md
section 2.1); one step per instruction from the vectors of that file (the number ends the name: `test_add_ar2` is
V-AR2); and a witness for the hypotheses of every obligation that has any. -/

namespace Sys2Proof.Tests

-- One test after the other: checked side by side, their threads' stacks alone pass the memory limit of the check.
set_option Elab.async false

open Sys2Proof.Machine

/-! ## Helpers -/

/-- The start of the vectors: `pc = 0x100`, every register holding a value no vector expects. -/
def small (z n : Bool) : State :=
  { State.reset with regs := Vector.replicate 16 0x5555555555555555#64, pc := 0x100#64, z := z, n := n }

/-- s under the parameters p. -/
def under (p : Params) (s : State) : State := { s with params := p }

/-- s with bytes put in `Memoria` from address a on. -/
def withBytes (s : State) (a : Nat) (bs : List Byte) : State := { s with mem := writeBytes s.mem a bs }

/-- The next state when the word w stands at `pc`. -/
def ran (s : State) (w : Word) : Option State :=
  match step (s.placeWord w) with
  | .next t => some t
  | .fault _ => none
  | .refused _ => none

/-- The next state of one instruction. -/
def did (i : Instr) (s : State) : Option State :=
  match exec i s with
  | .next t => some t
  | .fault _ => none
  | .refused _ => none

/-- Seven opcodes that R93 leaves free. The numbers are this test's: the spec names none (D19). -/
def someAlu8 : Alu8Opcodes :=
  { add8 := 0x0900#16, sub8 := 0x0901#16, mul8 := 0x0902#16, muls8 := 0x0903#16, div8 := 0x0904#16,
    addv8 := 0x0910#16, subv8 := 0x0911#16 }

/-! ## Ill-formed terms and parameters -/

theorem test_wellFormed_refuses_add8 : (Instr.add8 1#4 2#4).wellFormed = false := rfl
theorem test_wellFormed_refuses_sub8 : (Instr.sub8 1#4 2#4).wellFormed = false := rfl
theorem test_wellFormed_refuses_mul8 : (Instr.mul8 1#4 2#4).wellFormed = false := rfl
theorem test_wellFormed_refuses_muls8 : (Instr.muls8 1#4 2#4).wellFormed = false := rfl
theorem test_wellFormed_refuses_div8 : (Instr.div8 1#4 2#4).wellFormed = false := rfl
theorem test_wellFormed_refuses_addv8 : (Instr.addv8 1#4 3#44).wellFormed = false := rfl
theorem test_wellFormed_refuses_subv8 : (Instr.subv8 1#4 3#44).wellFormed = false := rfl

/-- R6: `MEM_SIZE` is a multiple of 8, at most 2^64. -/
theorem test_params_wellFormed :
    standardParams.wellFormed = true ∧ { standardParams with memSize := 0x1004 }.wellFormed = false ∧
      { standardParams with memSize := 2 ^ 64 }.wellFormed = true ∧
      { standardParams with memSize := 2 ^ 64 + 8 }.wellFormed = false := by decide +kernel

/-- D19: seven values, none of them the opcode of a row of R93, no two equal. -/
theorem test_alu8Opcodes_wellFormed :
    someAlu8.wellFormed = true ∧ { someAlu8 with add8 := 0x0300#16 }.wellFormed = false ∧
      { someAlu8 with subv8 := someAlu8.addv8 }.wellFormed = false ∧
      { standardParams with alu8Opcodes := some { someAlu8 with add8 := 0x0300#16 } }.wellFormed = false := by
  decide +kernel

/-! ## Decoding: one word per instruction -/

theorem test_decode_control_flow :
    decode none true 0x0000000000000000#64 = .ok .parar ∧
    decode none true 0x0001000000000000#64 = .ok .nop ∧
    decode none true 0x0090000000000123#64 = .ok (.jmp 0x123#48) ∧
    decode none true 0x0091000000000123#64 = .ok (.jeq 0x123#48) ∧
    decode none true 0x0092000000000123#64 = .ok (.jne 0x123#48) ∧
    decode none true 0x0093000000000123#64 = .ok (.jmi 0x123#48) ∧
    decode none true 0x0094000000000123#64 = .ok (.jpl 0x123#48) := by
  refine ⟨?_, ?_, ?_, ?_, ?_, ?_, ?_⟩ <;> rfl

theorem test_decode_arithmetic :
    decode none true 0x0010000000000012#64 = .ok (.add 1#4 2#4) ∧
    decode none true 0x0011000000000012#64 = .ok (.sub 1#4 2#4) ∧
    decode none true 0x0012000000000012#64 = .ok (.muls 1#4 2#4) ∧
    decode none true 0x0013000000000012#64 = .ok (.mul 1#4 2#4) ∧
    decode none true 0x0014000000000012#64 = .ok (.div 1#4 2#4) ∧
    decode none true 0x0020100000000123#64 = .ok (.addv 1#4 0x123#44) ∧
    decode none true 0x0021100000000123#64 = .ok (.subv 1#4 0x123#44) ∧
    decode none true 0x0030100000000000#64 = .ok (.inc 1#4) ∧
    decode none true 0x0031100000000000#64 = .ok (.dec 1#4) := by
  refine ⟨?_, ?_, ?_, ?_, ?_, ?_, ?_, ?_, ?_⟩ <;> rfl

theorem test_decode_logic_bits :
    decode none true 0x0040100000000000#64 = .ok (.not 1#4) ∧
    decode none true 0x0041000000000012#64 = .ok (.and 1#4 2#4) ∧
    decode none true 0x0042100000000123#64 = .ok (.andv 1#4 0x123#44) ∧
    decode none true 0x0043000000000012#64 = .ok (.or 1#4 2#4) ∧
    decode none true 0x0044100000000123#64 = .ok (.orv 1#4 0x123#44) ∧
    decode none true 0x0045000000000012#64 = .ok (.xor 1#4 2#4) ∧
    decode none true 0x0046100000000123#64 = .ok (.xorv 1#4 0x123#44) ∧
    decode none true 0x0050100000000000#64 = .ok (.shl 1#4) ∧
    decode none true 0x0051100000000000#64 = .ok (.shr 1#4) := by
  refine ⟨?_, ?_, ?_, ?_, ?_, ?_, ?_, ?_, ?_⟩ <;> rfl

theorem test_decode_memory_data :
    decode none true 0x0060100000000123#64 = .ok (.load 1#4 0x123#44) ∧
    decode none true 0x0061100000000123#64 = .ok (.loadv 1#4 0x123#44) ∧
    decode none true 0x0062000000000012#64 = .ok (.store 1#4 2#4) ∧
    decode none true 0x0063100000000123#64 = .ok (.storev 1#4 0x123#44) ∧
    decode none true 0x0064100000000000#64 = .ok (.clear 1#4) ∧
    decode none true 0x0070000000000012#64 = .ok (.cmp 1#4 2#4) ∧
    decode none true 0x0071100000000123#64 = .ok (.cmpv 1#4 0x123#44) ∧
    decode none true 0x0830000000000012#64 = .ok (.cmp1 1#4 2#4) ∧
    decode none true 0x0831000000000012#64 = .ok (.cmp2 1#4 2#4) ∧
    decode none true 0x0832000000000012#64 = .ok (.cmp4 1#4 2#4) ∧
    decode none true 0x0833000000000012#64 = .ok (.cmp8 1#4 2#4) ∧
    decode none true 0x0840100000000123#64 = .ok (.cmpv1 1#4 0x123#44) ∧
    decode none true 0x0841100000000123#64 = .ok (.cmpv2 1#4 0x123#44) ∧
    decode none true 0x0842100000000123#64 = .ok (.cmpv4 1#4 0x123#44) ∧
    decode none true 0x0843100000000123#64 = .ok (.cmpv8 1#4 0x123#44) := by
  refine ⟨?_, ?_, ?_, ?_, ?_, ?_, ?_, ?_, ?_, ?_, ?_, ?_, ?_, ?_, ?_⟩ <;> rfl

theorem test_decode_io :
    decode none true 0x00A0100000000123#64 = .ok (.svio 1#4 0x123#44) ∧
    decode none true 0x00A1100000000123#64 = .ok (.loadio 1#4 0x123#44) ∧
    decode none true 0x00A2000000000123#64 = .ok (.showio 0x123#48) ∧
    decode none true 0x00A3000000000000#64 = .ok .clrio ∧
    decode none true 0x00A4000000000000#64 = .ok .resetio := by
  refine ⟨?_, ?_, ?_, ?_, ?_⟩ <;> rfl

theorem test_decode_alu_sized :
    decode none true 0x0100000000000012#64 = .ok (.add1 1#4 2#4) ∧
    decode none true 0x0101000000000012#64 = .ok (.sub1 1#4 2#4) ∧
    decode none true 0x0102000000000012#64 = .ok (.mul1 1#4 2#4) ∧
    decode none true 0x0103000000000012#64 = .ok (.muls1 1#4 2#4) ∧
    decode none true 0x0104000000000012#64 = .ok (.div1 1#4 2#4) ∧
    decode none true 0x0110100000000123#64 = .ok (.addv1 1#4 0x123#44) ∧
    decode none true 0x0111100000000123#64 = .ok (.subv1 1#4 0x123#44) ∧
    decode none true 0x0200000000000012#64 = .ok (.add2 1#4 2#4) ∧
    decode none true 0x0201000000000012#64 = .ok (.sub2 1#4 2#4) ∧
    decode none true 0x0202000000000012#64 = .ok (.mul2 1#4 2#4) ∧
    decode none true 0x0203000000000012#64 = .ok (.muls2 1#4 2#4) ∧
    decode none true 0x0204000000000012#64 = .ok (.div2 1#4 2#4) ∧
    decode none true 0x0210100000000123#64 = .ok (.addv2 1#4 0x123#44) ∧
    decode none true 0x0211100000000123#64 = .ok (.subv2 1#4 0x123#44) ∧
    decode none true 0x0300000000000012#64 = .ok (.add4 1#4 2#4) ∧
    decode none true 0x0301000000000012#64 = .ok (.sub4 1#4 2#4) ∧
    decode none true 0x0302000000000012#64 = .ok (.mul4 1#4 2#4) ∧
    decode none true 0x0303000000000012#64 = .ok (.muls4 1#4 2#4) ∧
    decode none true 0x0304000000000012#64 = .ok (.div4 1#4 2#4) ∧
    decode none true 0x0310100000000123#64 = .ok (.addv4 1#4 0x123#44) ∧
    decode none true 0x0311100000000123#64 = .ok (.subv4 1#4 0x123#44) := by
  refine ⟨?_, ?_, ?_, ?_, ?_, ?_, ?_, ?_, ?_, ?_, ?_, ?_, ?_, ?_, ?_, ?_, ?_, ?_, ?_, ?_, ?_⟩ <;> rfl

theorem test_decode_mov :
    decode none true 0x0400000000000012#64 = .ok (.mov1 1#4 2#4) ∧
    decode none true 0x0401000000000012#64 = .ok (.mov2 1#4 2#4) ∧
    decode none true 0x0402000000000012#64 = .ok (.mov4 1#4 2#4) ∧
    decode none true 0x0403000000000012#64 = .ok (.mov8 1#4 2#4) ∧
    decode none true 0x0410100000000123#64 = .ok (.movv1 1#4 0x123#44) ∧
    decode none true 0x0411100000000123#64 = .ok (.movv2 1#4 0x123#44) ∧
    decode none true 0x0412100000000123#64 = .ok (.movv4 1#4 0x123#44) ∧
    decode none true 0x0413100000000123#64 = .ok (.movv8 1#4 0x123#44) := by
  refine ⟨?_, ?_, ?_, ?_, ?_, ?_, ?_, ?_⟩ <;> rfl

theorem test_decode_load_store_sized :
    decode none true 0x0500100000000123#64 = .ok (.load1 1#4 0x123#44) ∧
    decode none true 0x0501100000000123#64 = .ok (.load2 1#4 0x123#44) ∧
    decode none true 0x0502100000000123#64 = .ok (.load4 1#4 0x123#44) ∧
    decode none true 0x0503100000000123#64 = .ok (.load8 1#4 0x123#44) ∧
    decode none true 0x0510000000000012#64 = .ok (.loadr1 1#4 2#4) ∧
    decode none true 0x0511000000000012#64 = .ok (.loadr2 1#4 2#4) ∧
    decode none true 0x0512000000000012#64 = .ok (.loadr4 1#4 2#4) ∧
    decode none true 0x0513000000000012#64 = .ok (.loadr8 1#4 2#4) ∧
    decode none true 0x0600100000000123#64 = .ok (.store1 1#4 0x123#44) ∧
    decode none true 0x0601100000000123#64 = .ok (.store2 1#4 0x123#44) ∧
    decode none true 0x0602100000000123#64 = .ok (.store4 1#4 0x123#44) ∧
    decode none true 0x0603100000000123#64 = .ok (.store8 1#4 0x123#44) ∧
    decode none true 0x0610000000000012#64 = .ok (.storer1 1#4 2#4) ∧
    decode none true 0x0611000000000012#64 = .ok (.storer2 1#4 2#4) ∧
    decode none true 0x0612000000000012#64 = .ok (.storer4 1#4 2#4) ∧
    decode none true 0x0613000000000012#64 = .ok (.storer8 1#4 2#4) := by
  refine ⟨?_, ?_, ?_, ?_, ?_, ?_, ?_, ?_, ?_, ?_, ?_, ?_, ?_, ?_, ?_, ?_⟩ <;> rfl

theorem test_decode_fpu :
    decode none true 0x0700000000000012#64 = .ok (.fadd4 1#4 2#4) ∧
    decode none true 0x0701000000000012#64 = .ok (.fsub4 1#4 2#4) ∧
    decode none true 0x0702000000000012#64 = .ok (.fmul4 1#4 2#4) ∧
    decode none true 0x0703000000000012#64 = .ok (.fdiv4 1#4 2#4) ∧
    decode none true 0x0720100000000000#64 = .ok (.fsqrt4 1#4) ∧
    decode none true 0x0722100000000000#64 = .ok (.fsin4 1#4) ∧
    decode none true 0x0723100000000000#64 = .ok (.fcos4 1#4) ∧
    decode none true 0x0710000000000012#64 = .ok (.fadd8 1#4 2#4) ∧
    decode none true 0x0711000000000012#64 = .ok (.fsub8 1#4 2#4) ∧
    decode none true 0x0712000000000012#64 = .ok (.fmul8 1#4 2#4) ∧
    decode none true 0x0713000000000012#64 = .ok (.fdiv8 1#4 2#4) ∧
    decode none true 0x0721100000000000#64 = .ok (.fsqrt8 1#4) ∧
    decode none true 0x0724100000000000#64 = .ok (.fsin8 1#4) ∧
    decode none true 0x0725100000000000#64 = .ok (.fcos8 1#4) := by
  refine ⟨?_, ?_, ?_, ?_, ?_, ?_, ?_, ?_, ?_, ?_, ?_, ?_, ?_, ?_⟩ <;> rfl

theorem test_decode_stack :
    decode none true 0x0800000000000000#64 = .ok .ret ∧
    decode none true 0x0810100000000000#64 = .ok (.pop1 1#4) ∧
    decode none true 0x0811100000000000#64 = .ok (.pop2 1#4) ∧
    decode none true 0x0812100000000000#64 = .ok (.pop4 1#4) ∧
    decode none true 0x0813100000000000#64 = .ok (.pop8 1#4) ∧
    decode none true 0x0820100000000000#64 = .ok (.push1 1#4) ∧
    decode none true 0x0821100000000000#64 = .ok (.push2 1#4) ∧
    decode none true 0x0822100000000000#64 = .ok (.push4 1#4) ∧
    decode none true 0x0823100000000000#64 = .ok (.push8 1#4) := by
  refine ⟨?_, ?_, ?_, ?_, ?_, ?_, ?_, ?_, ?_⟩ <;> rfl
/-- The fields at their extremes: operands that no other field could give. -/
theorem test_decode_fields :
    decode none true 0x00100000000000A5#64 = .ok (.add 0xA#4 0x5#4) ∧
    decode none true 0x0020CFEDCBA98765#64 = .ok (.addv 0xC#4 0xFEDCBA98765#44) ∧
    decode none true 0x0030F00000000000#64 = .ok (.inc 0xF#4) ∧
    decode none true 0x0090FEDCBA987654#64 = .ok (.jmp 0xFEDCBA987654#48) := by
  refine ⟨?_, ?_, ?_, ?_⟩ <;> rfl

/-- R94, R95: an unassigned opcode, and a 1 in a zero field under both settings. -/
theorem test_decode_refuses :
    decode none true 0x0002000000000000#64 = .error .unassignedOpcode ∧
    decode none true 0x0314100000000123#64 = .error .unassignedOpcode ∧
    decode none true 0x0030100000000001#64 = .error .nonzeroZeroField ∧
    decode none false 0x0030100000000001#64 = .ok (.inc 1#4) := by
  refine ⟨?_, ?_, ?_, ?_⟩ <;> rfl

/-- D19, R207 to R213: supplied opcodes are read in the formats RR and RI; a word of R93 keeps its meaning. -/
theorem test_decode_supplied :
    decode (some someAlu8) true 0x0900000000000012#64 = .ok (.add8 1#4 2#4) ∧
    decode (some someAlu8) true 0x0901000000000012#64 = .ok (.sub8 1#4 2#4) ∧
    decode (some someAlu8) true 0x0902000000000012#64 = .ok (.mul8 1#4 2#4) ∧
    decode (some someAlu8) true 0x0903000000000012#64 = .ok (.muls8 1#4 2#4) ∧
    decode (some someAlu8) true 0x0904000000000012#64 = .ok (.div8 1#4 2#4) ∧
    decode (some someAlu8) true 0x0910100000000123#64 = .ok (.addv8 1#4 0x123#44) ∧
    decode (some someAlu8) true 0x0911100000000123#64 = .ok (.subv8 1#4 0x123#44) ∧
    decode (some someAlu8) true 0x0300000000000012#64 = .ok (.add4 1#4 2#4) ∧
    decode none true 0x0900000000000012#64 = .error .unassignedOpcode := by
  refine ⟨?_, ?_, ?_, ?_, ?_, ?_, ?_, ?_, ?_⟩ <;> rfl

/-- The table's numbering of bits: bit 63 of the word is the last bit of its last byte (log 28). -/
theorem test_decodeTableWord :
    decodeTableWord 64 0x0010000000000012 = some (.add 1#4 2#4) ∧ decodeTableWord 64 0x0002000000000000 = none := by
  refine ⟨?_, ?_⟩ <;> rfl

/-- The word that `withFetchWord` places is the first instruction after reset (log 20). -/
theorem test_withFetchWord :
    step (State.reset.withFetchWord 64 0x0090000000000200) =
      .next { State.reset.withFetchWord 64 0x0090000000000200 with pc := 0x200#64 } := rfl

/-! ## Steps -/

/-! Control flow -/

theorem test_parar_cf1 : (ran (small true true) 0x0000000000000000#64).map (fun t => (t.z, t.n, t.pc, t.run)) =
    some (true, true, 0x100#64, .halted) := by decide +kernel

theorem test_nop_cf2 : (ran (small true false) 0x0001000000000000#64).map (fun t => (t.z, t.n, t.pc)) =
    some (true, false, 0x108#64) := by decide +kernel

theorem test_jmp_cf3 : (ran (small true true) 0x0090000000000200#64).map (fun t => (t.z, t.n, t.pc)) =
    some (true, true, 0x200#64) := by decide +kernel

theorem test_jeq_cf8 : (ran (small true false) 0x0091000000000200#64).map (fun t => (t.z, t.n, t.pc)) =
    some (true, false, 0x200#64) := by decide +kernel

theorem test_jeq_cf9 : (ran (small false true) 0x0091000000000200#64).map (fun t => (t.z, t.n, t.pc)) =
    some (false, true, 0x108#64) := by decide +kernel

theorem test_jne_cf10 : (ran (small false false) 0x0092000000000200#64).map (fun t => (t.z, t.n, t.pc)) =
    some (false, false, 0x200#64) := by decide +kernel

theorem test_jne_cf11 : (ran (small true false) 0x0092000000000200#64).map (fun t => (t.z, t.n, t.pc)) =
    some (true, false, 0x108#64) := by decide +kernel

theorem test_jmi_cf12 : (ran (small false true) 0x0093000000000200#64).map (fun t => (t.z, t.n, t.pc)) =
    some (false, true, 0x200#64) := by decide +kernel

theorem test_jmi_cf13 : (ran (small true false) 0x0093000000000200#64).map (fun t => (t.z, t.n, t.pc)) =
    some (true, false, 0x108#64) := by decide +kernel

theorem test_jpl_cf14 : (ran (small true false) 0x0094000000000200#64).map (fun t => (t.z, t.n, t.pc)) =
    some (true, false, 0x200#64) := by decide +kernel

theorem test_jpl_cf16 : (ran (small false true) 0x0094000000000200#64).map (fun t => (t.z, t.n, t.pc)) =
    some (false, true, 0x108#64) := by decide +kernel

/-! Arithmetic -/

theorem test_add_ar2 : (ran (((small false false).setReg 1#4 0xFFFFFFFFFFFFFFFF#64).setReg 2#4 0x1#64)
    0x0010000000000012#64).map (fun t => (t.reg 1#4, t.z, t.n, t.pc)) =
    some (0x0#64, true, false, 0x108#64) := by decide +kernel

theorem test_add_ar5 : (ran (((under { standardParams with aluFlags := .unchanged } (small true true)).setReg 1#4
    0x5#64).setReg 2#4 0x7#64) 0x0010000000000012#64).map (fun t => (t.reg 1#4, t.z, t.n, t.pc)) =
    some (0xC#64, true, true, 0x108#64) := by decide +kernel

theorem test_sub_ar8 : (ran (((small false false).setReg 1#4 0x8000000000000000#64).setReg 2#4 0x1#64)
    0x0011000000000012#64).map (fun t => (t.reg 1#4, t.z, t.n, t.pc)) =
    some (0x7FFFFFFFFFFFFFFF#64, false, false, 0x108#64) := by decide +kernel

theorem test_muls_ar9 : (ran (((small false false).setReg 1#4 0xFFFFFFFFFFFFFFFD#64).setReg 2#4 0x5#64)
    0x0012000000000012#64).map (fun t => (t.reg 1#4, t.z, t.n, t.pc)) =
    some (0xFFFFFFFFFFFFFFF1#64, false, true, 0x108#64) := by decide +kernel

theorem test_mul_ar11 : (ran (((small false false).setReg 1#4 0xFFFFFFFFFFFFFFFF#64).setReg 2#4
    0xFFFFFFFFFFFFFFFF#64) 0x0013000000000012#64).map (fun t => (t.reg 1#4, t.z, t.n, t.pc)) =
    some (0x1#64, false, false, 0x108#64) := by decide +kernel

theorem test_div_ar15 : (ran (((small false false).setReg 1#4 0xFFFFFFFFFFFFFFF9#64).setReg 2#4 0x2#64)
    0x0014000000000012#64).map (fun t => (t.reg 1#4, t.z, t.n, t.pc)) =
    some (0xFFFFFFFFFFFFFFFD#64, false, true, 0x108#64) := by decide +kernel

theorem test_div_ar20 : (ran (((small true true).setReg 1#4 0x5#64).setReg 2#4 0x0#64) 0x0014000000000012#64).map
    (fun t => (t.reg 1#4, t.z, t.n, t.pc, t.run)) =
    some (0x5#64, true, true, 0x100#64, .faulted (.divideByZero 0x100#64)) := by decide +kernel

theorem test_addv_ar25 : (ran ((under { standardParams with immExt := .sign } (small false false)).setReg 1#4 0xA#64)
    0x00201FFFFFFFFFFF#64).map (fun t => (t.reg 1#4, t.z, t.n, t.pc)) =
    some (0x9#64, false, false, 0x108#64) := by decide +kernel

theorem test_subv_ar26 : (ran ((small false false).setReg 1#4 0x0#64) 0x0021100000000001#64).map (fun t => (t.reg
    1#4, t.z, t.n, t.pc)) =
    some (0xFFFFFFFFFFFFFFFF#64, false, true, 0x108#64) := by decide +kernel

theorem test_inc_ar28 : (ran ((small false false).setReg 1#4 0xFFFFFFFFFFFFFFFF#64) 0x0030100000000000#64).map (fun t
    => (t.reg 1#4, t.z, t.n, t.pc)) =
    some (0x0#64, true, false, 0x108#64) := by decide +kernel

theorem test_dec_ar30 : (ran ((small false false).setReg 1#4 0x0#64) 0x0031100000000000#64).map (fun t => (t.reg 1#4,
    t.z, t.n, t.pc)) =
    some (0xFFFFFFFFFFFFFFFF#64, false, true, 0x108#64) := by decide +kernel

/-! Logic and bits -/

theorem test_not_lg3 : (ran ((small false false).setReg 1#4 0xFF00FF00FF00FF#64) 0x0040100000000000#64).map (fun t =>
    (t.reg 1#4, t.z, t.n, t.pc)) =
    some (0xFF00FF00FF00FF00#64, false, true, 0x108#64) := by decide +kernel

theorem test_and_lg4 : (ran (((small false false).setReg 1#4 0xFF00FF00FF00FF00#64).setReg 2#4 0xFF00FF00FF00FF0#64)
    0x0041000000000012#64).map (fun t => (t.reg 1#4, t.z, t.n, t.pc)) =
    some (0xF000F000F000F00#64, false, false, 0x108#64) := by decide +kernel

theorem test_andv_lg8 : (ran ((under { standardParams with immExt := .sign } (small false false)).setReg 1#4
    0xFFFFFFFFFFFFFFFF#64) 0x00421FFFFFFFFFFF#64).map (fun t => (t.reg 1#4, t.z, t.n, t.pc)) =
    some (0xFFFFFFFFFFFFFFFF#64, false, true, 0x108#64) := by decide +kernel

theorem test_or_lg9 : (ran (((small false false).setReg 1#4 0xF0#64).setReg 2#4 0xF#64) 0x0043000000000012#64).map
    (fun t => (t.reg 1#4, t.z, t.n, t.pc)) =
    some (0xFF#64, false, false, 0x108#64) := by decide +kernel

theorem test_orv_lg11 : (ran ((under { standardParams with immExt := .sign } (small false false)).setReg 1#4 0x1#64)
    0x0044180000000000#64).map (fun t => (t.reg 1#4, t.z, t.n, t.pc)) =
    some (0xFFFFF80000000001#64, false, true, 0x108#64) := by decide +kernel

theorem test_xor_lg12 : (ran (((small false false).setReg 1#4 0xFF#64).setReg 2#4 0xF#64) 0x0045000000000012#64).map
    (fun t => (t.reg 1#4, t.z, t.n, t.pc)) =
    some (0xF0#64, false, false, 0x108#64) := by decide +kernel

theorem test_xorv_lg14 : (ran ((small false false).setReg 1#4 0xAA#64) 0x00461000000000FF#64).map (fun t => (t.reg
    1#4, t.z, t.n, t.pc)) =
    some (0x55#64, false, false, 0x108#64) := by decide +kernel

theorem test_shl_lg15 : (ran ((small false false).setReg 1#4 0x8000000000000001#64) 0x0050100000000000#64).map (fun t
    => (t.reg 1#4, t.z, t.n, t.pc)) =
    some (0x2#64, false, false, 0x108#64) := by decide +kernel

theorem test_shr_lg18 : (ran ((small false false).setReg 1#4 0x8000000000000001#64) 0x0051100000000000#64).map (fun t
    => (t.reg 1#4, t.z, t.n, t.pc)) =
    some (0x4000000000000000#64, false, false, 0x108#64) := by decide +kernel

/-! Memory and data -/

theorem test_load_md2 : (ran (withBytes ((under { standardParams with endian := .big } (small false false)).setReg
    1#4 0xA5A5A5A5A5A5A5A5#64) 0x200 [0x88, 0x77, 0x66, 0x55, 0x44, 0x33, 0x22, 0x11]) 0x0060100000000200#64).map
    (fun t => (t.reg 1#4, t.z, t.n, t.pc)) =
    some (0x8877665544332211#64, false, false, 0x108#64) := by decide +kernel

theorem test_load_md5 : (ran ((small false false).setReg 1#4 0xA5A5A5A5A5A5A5A5#64) 0x0060100000000FF9#64).map (fun t
    => (t.reg 1#4, t.z, t.n, t.pc, t.run)) =
    some (0xA5A5A5A5A5A5A5A5#64, false, false, 0x100#64, .faulted (.memoryFault 0xFF9#64 8 .read))
    := by decide +kernel

theorem test_loadv_md9 : (ran ((under { standardParams with immExt := .sign } (small false false)).setReg 1#4
    0xA5A5A5A5A5A5A5A5#64) 0x00611800000000AB#64).map (fun t => (t.reg 1#4, t.z, t.n, t.pc)) =
    some (0xFFFFF800000000AB#64, false, false, 0x108#64) := by decide +kernel

theorem test_store_md11 : (ran (((small false false).setReg 1#4 0x1122334455667788#64).setReg 2#4 0x300#64)
    0x0062000000000012#64).map (fun t => (t.z, t.n, t.pc, readBytes t.mem 0x300 8)) =
    some (false, false, 0x108#64, [0x88, 0x77, 0x66, 0x55, 0x44, 0x33, 0x22, 0x11]) := by decide +kernel

theorem test_store_md14 : (ran (((small false false).setReg 1#4 0x1#64).setReg 2#4 0xFF9#64)
    0x0062000000000012#64).map (fun t => (t.z, t.n, t.pc, t.run)) =
    some (false, false, 0x100#64, .faulted (.memoryFault 0xFF9#64 8 .write)) := by decide +kernel

theorem test_storev_md17 : (ran ((small false false).setReg 1#4 0x1000000000000#64) 0x0063100000000108#64).map (fun t
    => (t.z, t.n, t.pc, readBytes t.mem 0x108 8)) =
    some (false, false, 0x108#64, [0x00, 0x00, 0x00, 0x00, 0x00, 0x00, 0x01, 0x00]) := by decide +kernel

theorem test_clear_md18 : (ran ((small false true).setReg 1#4 0xA5A5A5A5A5A5A5A5#64) 0x0064100000000000#64).map (fun
    t => (t.reg 1#4, t.z, t.n, t.pc)) =
    some (0x0#64, false, true, 0x108#64) := by decide +kernel

theorem test_cmp_md22 : (ran (((small false false).setReg 1#4 0x8000000000000000#64).setReg 2#4 0x1#64)
    0x0070000000000012#64).map (fun t => (t.z, t.n, t.pc)) =
    some (false, false, 0x108#64) := by decide +kernel

theorem test_cmpv_md28 : (ran ((under { standardParams with immExt := .sign } (small false false)).setReg 1#4
    0xFFFFFFFFFFFFFFFF#64) 0x00711FFFFFFFFFFF#64).map (fun t => (t.z, t.n, t.pc)) =
    some (true, false, 0x108#64) := by decide +kernel

theorem test_cmp1_md29 : (ran (((small false false).setReg 1#4 0xAAAAAAAAAAAAAA42#64).setReg 2#4
    0x5555555555555542#64) 0x0830000000000012#64).map (fun t => (t.z, t.n, t.pc)) =
    some (true, false, 0x108#64) := by decide +kernel

theorem test_cmp2_md32 : (ran (((small false false).setReg 1#4 0x18000#64).setReg 2#4 0x28000#64)
    0x0831000000000012#64).map (fun t => (t.z, t.n, t.pc)) =
    some (true, false, 0x108#64) := by decide +kernel

theorem test_cmp4_md34 : (ran (((small false false).setReg 1#4 0x1FFFFFFFF#64).setReg 2#4 0x2FFFFFFFF#64)
    0x0832000000000012#64).map (fun t => (t.z, t.n, t.pc)) =
    some (true, false, 0x108#64) := by decide +kernel

theorem test_cmp8_md36 : (ran (((small false false).setReg 1#4 0x5#64).setReg 2#4 0x7#64) 0x0833000000000012#64).map
    (fun t => (t.z, t.n, t.pc)) =
    some (false, true, 0x108#64) := by decide +kernel

theorem test_cmpv1_md37 : (ran ((small false false).setReg 1#4 0x2FF#64) 0x08401000000001FF#64).map (fun t => (t.z,
    t.n, t.pc)) =
    some (true, false, 0x108#64) := by decide +kernel

theorem test_cmpv2_md39 : (ran ((small false false).setReg 1#4 0x2345#64) 0x0841100000012345#64).map (fun t => (t.z,
    t.n, t.pc)) =
    some (true, false, 0x108#64) := by decide +kernel

theorem test_cmpv4_md40 : (ran ((small false false).setReg 1#4 0xA5A5A5A500000000#64) 0x0842100100000000#64).map (fun
    t => (t.z, t.n, t.pc)) =
    some (true, false, 0x108#64) := by decide +kernel

theorem test_cmpv8_md42 : (ran ((small false false).setReg 1#4 0x7#64) 0x0843100000000005#64).map (fun t => (t.z,
    t.n, t.pc)) =
    some (false, false, 0x108#64) := by decide +kernel

/-! Input and output -/

theorem test_svio_io1 : (ran ((small true true).setReg 1#4 0x2A#64) 0x00A0100000000010#64).map (fun t => (t.z, t.n,
    t.pc, t.ioCell 0x10#48, t.trace)) =
    some (true, true, 0x108#64, 0x2A#64, [.out 0x10#48 0x2A#64]) := by decide +kernel

theorem test_loadio_io3 : (ran (((small false false).setReg 2#4 0xA5A5A5A5A5A5A5A5#64).ioWrite 0x10#48 0x2A#64)
    0x00A1200000000010#64).map (fun t => (t.reg 2#4, t.z, t.n, t.pc, t.trace)) =
    some (0x2A#64, false, false, 0x108#64, [.input 0x10#48 0x2A#64]) := by decide +kernel

theorem test_showio_io6 : (ran ((small false false).ioWrite 0x10#48 0x2A#64) 0x00A2000000000010#64).map (fun t =>
    (t.z, t.n, t.pc, t.trace)) =
    some (false, false, 0x108#64, [.show 0x10#48 0x2A#64]) := by decide +kernel

theorem test_clrio_io9 : (ran (((under { standardParams with inputSet := [⟨0x20, 0x20⟩] } (small false
    false)).ioWrite 0x10#48 0x2A#64).ioWrite 0x20#48 0x7#64) 0x00A3000000000000#64).map (fun t => (t.z, t.n, t.pc,
    t.ioCell 0x20#48, t.trace)) =
    some (false, false, 0x108#64, 0x0#64, [.clrIO]) := by decide +kernel

theorem test_resetio_io10 : (ran (((small true false).ioWrite 0x10#48 0x2A#64).ioWrite 0x20#48 0x7#64)
    0x00A4000000000000#64).map (fun t => (t.pc, t.ioCell 0x10#48, t.ioCell 0x20#48, t.trace)) =
    some (0x108#64, 0x0#64, 0x0#64, [.resetIO]) := by decide +kernel

/-! Sized arithmetic -/

theorem test_add1_as3 : (ran (((under { standardParams with subwordWrite := .signExtend } (small false false)).setReg
    1#4 0xA5A5A5A5A5A5A57F#64).setReg 2#4 0x1#64) 0x0100000000000012#64).map (fun t => (t.reg 1#4, t.z, t.n, t.pc)) =
    some (0xFFFFFFFFFFFFFF80#64, false, true, 0x108#64) := by decide +kernel

theorem test_sub1_as5 : (ran (((small false false).setReg 1#4 0xA5A5A5A5A5A5A500#64).setReg 2#4 0x1#64)
    0x0101000000000012#64).map (fun t => (t.reg 1#4, t.z, t.n, t.pc)) =
    some (0xFF#64, false, true, 0x108#64) := by decide +kernel

theorem test_mul1_as7 : (ran (((small false false).setReg 1#4 0xA5A5A5A5A5A5A5FF#64).setReg 2#4 0xFF#64)
    0x0102000000000012#64).map (fun t => (t.reg 1#4, t.z, t.n, t.pc)) =
    some (0x1#64, false, false, 0x108#64) := by decide +kernel

theorem test_muls1_as8 : (ran (((small false false).setReg 1#4 0xA5A5A5A5A5A5A5FD#64).setReg 2#4 0x5#64)
    0x0103000000000012#64).map (fun t => (t.reg 1#4, t.z, t.n, t.pc)) =
    some (0xF1#64, false, true, 0x108#64) := by decide +kernel

theorem test_div1_as10 : (ran (((small false false).setReg 1#4 0xA5A5A5A5A5A5A5F9#64).setReg 2#4 0x2#64)
    0x0104000000000012#64).map (fun t => (t.reg 1#4, t.z, t.n, t.pc)) =
    some (0xFD#64, false, true, 0x108#64) := by decide +kernel

theorem test_div1_as13 : (ran (((small true false).setReg 1#4 0xA5A5A5A5A5A5A509#64).setReg 2#4 0x100#64)
    0x0104000000000012#64).map (fun t => (t.reg 1#4, t.z, t.n, t.pc, t.run)) =
    some (0xA5A5A5A5A5A5A509#64, true, false, 0x100#64, .faulted (.divideByZero 0x100#64)) := by decide +kernel

theorem test_addv1_as14 : (ran ((small false false).setReg 1#4 0xA5A5A5A5A5A5A501#64) 0x0110100000000102#64).map (fun
    t => (t.reg 1#4, t.z, t.n, t.pc)) =
    some (0x3#64, false, false, 0x108#64) := by decide +kernel

theorem test_subv1_as16 : (ran ((small false false).setReg 1#4 0xA5A5A5A5A5A5A580#64) 0x0111100000000001#64).map (fun
    t => (t.reg 1#4, t.z, t.n, t.pc)) =
    some (0x7F#64, false, false, 0x108#64) := by decide +kernel

theorem test_add2_as18 : (ran (((under { standardParams with subwordWrite := .preserveUpper } (small false
    false)).setReg 1#4 0xA5A5A5A5A5A5FFFF#64).setReg 2#4 0x1#64) 0x0200000000000012#64).map (fun t => (t.reg 1#4,
    t.z, t.n, t.pc)) =
    some (0xA5A5A5A5A5A50000#64, true, false, 0x108#64) := by decide +kernel

theorem test_sub2_as21 : (ran (((small false false).setReg 1#4 0xA5A5A5A5A5A50000#64).setReg 2#4 0x1#64)
    0x0201000000000012#64).map (fun t => (t.reg 1#4, t.z, t.n, t.pc)) =
    some (0xFFFF#64, false, true, 0x108#64) := by decide +kernel

theorem test_mul2_as23 : (ran (((small false false).setReg 1#4 0xA5A5A5A5A5A5FFFF#64).setReg 2#4 0xFFFF#64)
    0x0202000000000012#64).map (fun t => (t.reg 1#4, t.z, t.n, t.pc)) =
    some (0x1#64, false, false, 0x108#64) := by decide +kernel

theorem test_muls2_as24 : (ran (((small false false).setReg 1#4 0xA5A5A5A5A5A5FFFD#64).setReg 2#4 0x5#64)
    0x0203000000000012#64).map (fun t => (t.reg 1#4, t.z, t.n, t.pc)) =
    some (0xFFF1#64, false, true, 0x108#64) := by decide +kernel

theorem test_div2_as26 : (ran (((small false false).setReg 1#4 0xA5A5A5A5A5A5FFF9#64).setReg 2#4 0x2#64)
    0x0204000000000012#64).map (fun t => (t.reg 1#4, t.z, t.n, t.pc)) =
    some (0xFFFD#64, false, true, 0x108#64) := by decide +kernel

theorem test_addv2_as30 : (ran ((small false false).setReg 1#4 0xA5A5A5A5A5A50001#64) 0x0210100000010002#64).map (fun
    t => (t.reg 1#4, t.z, t.n, t.pc)) =
    some (0x3#64, false, false, 0x108#64) := by decide +kernel

theorem test_subv2_as32 : (ran ((small false false).setReg 1#4 0xA5A5A5A5A5A58000#64) 0x0211100000000001#64).map (fun
    t => (t.reg 1#4, t.z, t.n, t.pc)) =
    some (0x7FFF#64, false, false, 0x108#64) := by decide +kernel

theorem test_add4_as36 : (ran (((small false false).setReg 1#4 0xA5A5A5A500000003#64).setReg 2#4 0xFFFF00000004#64)
    0x0300000000000012#64).map (fun t => (t.reg 1#4, t.z, t.n, t.pc)) =
    some (0x7#64, false, false, 0x108#64) := by decide +kernel

theorem test_sub4_as37 : (ran (((small false false).setReg 1#4 0xA5A5A5A500000000#64).setReg 2#4 0x1#64)
    0x0301000000000012#64).map (fun t => (t.reg 1#4, t.z, t.n, t.pc)) =
    some (0xFFFFFFFF#64, false, true, 0x108#64) := by decide +kernel

theorem test_mul4_as39 : (ran (((small false false).setReg 1#4 0xA5A5A5A5FFFFFFFF#64).setReg 2#4 0xFFFFFFFF#64)
    0x0302000000000012#64).map (fun t => (t.reg 1#4, t.z, t.n, t.pc)) =
    some (0x1#64, false, false, 0x108#64) := by decide +kernel

theorem test_muls4_as40 : (ran (((small false false).setReg 1#4 0xA5A5A5A5FFFFFFFD#64).setReg 2#4 0x5#64)
    0x0303000000000012#64).map (fun t => (t.reg 1#4, t.z, t.n, t.pc)) =
    some (0xFFFFFFF1#64, false, true, 0x108#64) := by decide +kernel

theorem test_div4_as43 : (ran (((small false false).setReg 1#4 0xA5A5A5A500000064#64).setReg 2#4 0xFFFFFFF9#64)
    0x0304000000000012#64).map (fun t => (t.reg 1#4, t.z, t.n, t.pc)) =
    some (0xFFFFFFF2#64, false, true, 0x108#64) := by decide +kernel

theorem test_addv4_as46 : (ran ((small false false).setReg 1#4 0xA5A5A5A500000001#64) 0x0310100100000002#64).map (fun
    t => (t.reg 1#4, t.z, t.n, t.pc)) =
    some (0x3#64, false, false, 0x108#64) := by decide +kernel

theorem test_subv4_as48 : (ran ((small false false).setReg 1#4 0xA5A5A5A580000000#64) 0x0311100000000001#64).map (fun
    t => (t.reg 1#4, t.z, t.n, t.pc)) =
    some (0x7FFFFFFF#64, false, false, 0x108#64) := by decide +kernel

/-! Moves -/

theorem test_mov1_mv2 : (ran (((under { standardParams with subwordWrite := .preserveUpper } (small false
    false)).setReg 1#4 0xA5A5A5A5A5A5A5A5#64).setReg 2#4 0x1122334455667788#64) 0x0400000000000012#64).map (fun t =>
    (t.reg 1#4, t.z, t.n, t.pc)) =
    some (0xA5A5A5A5A5A5A588#64, false, false, 0x108#64) := by decide +kernel

theorem test_mov2_mv6 : (ran (((under { standardParams with subwordWrite := .signExtend } (small false false)).setReg
    1#4 0xA5A5A5A5A5A5A5A5#64).setReg 2#4 0x11223344F5F6F7F8#64) 0x0401000000000012#64).map (fun t => (t.reg 1#4,
    t.z, t.n, t.pc)) =
    some (0xFFFFFFFFFFFFF7F8#64, false, false, 0x108#64) := by decide +kernel

theorem test_mov4_mv7 : (ran (((small true true).setReg 1#4 0xA5A5A5A5A5A5A5A5#64).setReg 2#4 0x1122334455667788#64)
    0x0402000000000012#64).map (fun t => (t.reg 1#4, t.z, t.n, t.pc)) =
    some (0x55667788#64, true, true, 0x108#64) := by decide +kernel

theorem test_mov8_mv10 : (ran (((small true true).setReg 1#4 0xA5A5A5A5A5A5A5A5#64).setReg 2#4 0x1122334455667788#64)
    0x0403000000000012#64).map (fun t => (t.reg 1#4, t.z, t.n, t.pc)) =
    some (0x1122334455667788#64, true, true, 0x108#64) := by decide +kernel

theorem test_movv1_mv13 : (ran ((small false false).setReg 1#4 0xA5A5A5A5A5A5A5A5#64) 0x04101123456789AB#64).map (fun
    t => (t.reg 1#4, t.z, t.n, t.pc)) =
    some (0xAB#64, false, false, 0x108#64) := by decide +kernel

theorem test_movv2_mv14 : (ran ((small false false).setReg 1#4 0xA5A5A5A5A5A5A5A5#64) 0x04111123456789AB#64).map (fun
    t => (t.reg 1#4, t.z, t.n, t.pc)) =
    some (0x89AB#64, false, false, 0x108#64) := by decide +kernel

theorem test_movv4_mv16 : (ran ((under { standardParams with subwordWrite := .signExtend } (small false
    false)).setReg 1#4 0xA5A5A5A5A5A5A5A5#64) 0x0412100080000000#64).map (fun t => (t.reg 1#4, t.z, t.n, t.pc)) =
    some (0xFFFFFFFF80000000#64, false, false, 0x108#64) := by decide +kernel

theorem test_movv8_mv19 : (ran ((under { standardParams with immExt := .sign } (small false false)).setReg 1#4
    0xA5A5A5A5A5A5A5A5#64) 0x04131FFFFFFFFFFF#64).map (fun t => (t.reg 1#4, t.z, t.n, t.pc)) =
    some (0xFFFFFFFFFFFFFFFF#64, false, false, 0x108#64) := by decide +kernel

/-! Sized loads and stores -/

theorem test_load1_ls12 : (ran (withBytes ((under { standardParams with subwordWrite := .signExtend } (small false
    false)).setReg 1#4 0xA5A5A5A5A5A5A5A5#64) 0x200 [0x88, 0x77, 0x66, 0x55, 0x44, 0x33, 0x22, 0x11, 0x00, 0xFF,
    0xEE, 0xDD, 0xCC, 0xBB, 0xAA, 0x99]) 0x050010000000020F#64).map (fun t => (t.reg 1#4, t.z, t.n, t.pc)) =
    some (0xFFFFFFFFFFFFFF99#64, false, false, 0x108#64) := by decide +kernel

theorem test_load2_ls5 : (ran (withBytes ((small false false).setReg 1#4 0xA5A5A5A5A5A5A5A5#64) 0x200 [0x88, 0x77,
    0x66, 0x55, 0x44, 0x33, 0x22, 0x11, 0x00, 0xFF, 0xEE, 0xDD, 0xCC, 0xBB, 0xAA, 0x99]) 0x0501100000000203#64).map
    (fun t => (t.reg 1#4, t.z, t.n, t.pc)) =
    some (0x4455#64, false, false, 0x108#64) := by decide +kernel

theorem test_load4_ls7 : (ran (withBytes ((under { standardParams with endian := .big } (small false false)).setReg
    1#4 0xA5A5A5A5A5A5A5A5#64) 0x200 [0x88, 0x77, 0x66, 0x55, 0x44, 0x33, 0x22, 0x11, 0x00, 0xFF, 0xEE, 0xDD, 0xCC,
    0xBB, 0xAA, 0x99]) 0x0502100000000200#64).map (fun t => (t.reg 1#4, t.z, t.n, t.pc)) =
    some (0x88776655#64, false, false, 0x108#64) := by decide +kernel

theorem test_load8_ls11 : (ran (withBytes ((small false false).setReg 1#4 0xA5A5A5A5A5A5A5A5#64) 0x200 [0x88, 0x77,
    0x66, 0x55, 0x44, 0x33, 0x22, 0x11, 0x00, 0xFF, 0xEE, 0xDD, 0xCC, 0xBB, 0xAA, 0x99]) 0x0503100000000203#64).map
    (fun t => (t.reg 1#4, t.z, t.n, t.pc)) =
    some (0xEEFF001122334455#64, false, false, 0x108#64) := by decide +kernel

theorem test_loadr1_ls17 : (ran (withBytes (((small false false).setReg 1#4 0xA5A5A5A5A5A5A5A5#64).setReg 2#4
    0x208#64) 0x200 [0x88, 0x77, 0x66, 0x55, 0x44, 0x33, 0x22, 0x11, 0x00, 0xFF, 0xEE, 0xDD, 0xCC, 0xBB, 0xAA, 0x99])
    0x0510000000000012#64).map (fun t => (t.reg 1#4, t.z, t.n, t.pc)) =
    some (0x0#64, false, false, 0x108#64) := by decide +kernel

theorem test_loadr2_ls18 : (ran (withBytes (((small false false).setReg 1#4 0xA5A5A5A5A5A5A5A5#64).setReg 2#4
    0x208#64) 0x200 [0x88, 0x77, 0x66, 0x55, 0x44, 0x33, 0x22, 0x11, 0x00, 0xFF, 0xEE, 0xDD, 0xCC, 0xBB, 0xAA, 0x99])
    0x0511000000000012#64).map (fun t => (t.reg 1#4, t.z, t.n, t.pc)) =
    some (0xFF00#64, false, false, 0x108#64) := by decide +kernel

theorem test_loadr4_ls21 : (ran (withBytes (((under { standardParams with endian := .big } (small false
    false)).setReg 1#4 0xA5A5A5A5A5A5A5A5#64).setReg 2#4 0x208#64) 0x200 [0x88, 0x77, 0x66, 0x55, 0x44, 0x33, 0x22,
    0x11, 0x00, 0xFF, 0xEE, 0xDD, 0xCC, 0xBB, 0xAA, 0x99]) 0x0512000000000012#64).map (fun t => (t.reg 1#4, t.z, t.n,
    t.pc)) =
    some (0xFFEEDD#64, false, false, 0x108#64) := by decide +kernel

theorem test_loadr8_ls22 : (ran (withBytes ((small false false).setReg 1#4 0x200#64) 0x200 [0x88, 0x77, 0x66, 0x55,
    0x44, 0x33, 0x22, 0x11, 0x00, 0xFF, 0xEE, 0xDD, 0xCC, 0xBB, 0xAA, 0x99]) 0x0513000000000011#64).map (fun t =>
    (t.reg 1#4, t.z, t.n, t.pc)) =
    some (0x1122334455667788#64, false, false, 0x108#64) := by decide +kernel

theorem test_loadr8_ls24 : (ran (withBytes (((small false false).setReg 1#4 0xA5A5A5A5A5A5A5A5#64).setReg 2#4
    0xFFFFFFFFFFFFFFFC#64) 0x200 [0x88, 0x77, 0x66, 0x55, 0x44, 0x33, 0x22, 0x11, 0x00, 0xFF, 0xEE, 0xDD, 0xCC, 0xBB,
    0xAA, 0x99]) 0x0513000000000012#64).map (fun t => (t.reg 1#4, t.z, t.n, t.pc, t.run)) =
    some (0xA5A5A5A5A5A5A5A5#64, false, false, 0x100#64, .faulted (.memoryFault 0xFFFFFFFFFFFFFFFC#64 8 .read))
    := by decide +kernel

theorem test_store1_ls33 : (ran ((small false false).setReg 1#4 0x1122334455667788#64) 0x0600100000000FFF#64).map
    (fun t => (t.z, t.n, t.pc, readBytes t.mem 0xFFF 1)) =
    some (false, false, 0x108#64, [0x88]) := by decide +kernel

theorem test_store2_ls27 : (ran (withBytes ((under { standardParams with endian := .big } (small false false)).setReg
    1#4 0x1122334455667788#64) 0x300 [0xEE, 0xEE, 0xEE, 0xEE, 0xEE, 0xEE, 0xEE, 0xEE]) 0x0601100000000300#64).map
    (fun t => (t.z, t.n, t.pc, readBytes t.mem 0x300 8)) =
    some (false, false, 0x108#64, [0x77, 0x88, 0xEE, 0xEE, 0xEE, 0xEE, 0xEE, 0xEE]) := by decide +kernel

theorem test_store4_ls32 : (ran ((small false false).setReg 1#4 0x1122334455667788#64) 0x0602100000000FFD#64).map
    (fun t => (t.z, t.n, t.pc, t.run)) =
    some (false, false, 0x100#64, .faulted (.memoryFault 0xFFD#64 4 .write)) := by decide +kernel

theorem test_store8_ls31 : (ran (withBytes ((under { standardParams with endian := .big } (small false false)).setReg
    1#4 0x1122334455667788#64) 0x300 [0xEE, 0xEE, 0xEE, 0xEE, 0xEE, 0xEE, 0xEE, 0xEE]) 0x0603100000000300#64).map
    (fun t => (t.z, t.n, t.pc, readBytes t.mem 0x300 8)) =
    some (false, false, 0x108#64, [0x11, 0x22, 0x33, 0x44, 0x55, 0x66, 0x77, 0x88]) := by decide +kernel

theorem test_storer1_ls34 : (ran (withBytes (((small false false).setReg 1#4 0x1122334455667788#64).setReg 2#4
    0x301#64) 0x300 [0xEE, 0xEE, 0xEE, 0xEE, 0xEE, 0xEE, 0xEE, 0xEE, 0xEE, 0xEE]) 0x0610000000000012#64).map (fun t
    => (t.z, t.n, t.pc, readBytes t.mem 0x300 10)) =
    some (false, false, 0x108#64, [0xEE, 0x88, 0xEE, 0xEE, 0xEE, 0xEE, 0xEE, 0xEE, 0xEE, 0xEE]) := by decide +kernel

theorem test_storer2_ls35 : (ran (withBytes (((small false false).setReg 1#4 0x1122334455667788#64).setReg 2#4
    0x301#64) 0x300 [0xEE, 0xEE, 0xEE, 0xEE, 0xEE, 0xEE, 0xEE, 0xEE, 0xEE, 0xEE]) 0x0611000000000012#64).map (fun t
    => (t.z, t.n, t.pc, readBytes t.mem 0x300 10)) =
    some (false, false, 0x108#64, [0xEE, 0x88, 0x77, 0xEE, 0xEE, 0xEE, 0xEE, 0xEE, 0xEE, 0xEE]) := by decide +kernel

theorem test_storer4_ls36 : (ran (withBytes (((small false false).setReg 1#4 0x1122334455667788#64).setReg 2#4
    0x301#64) 0x300 [0xEE, 0xEE, 0xEE, 0xEE, 0xEE, 0xEE, 0xEE, 0xEE, 0xEE, 0xEE]) 0x0612000000000012#64).map (fun t
    => (t.z, t.n, t.pc, readBytes t.mem 0x300 10)) =
    some (false, false, 0x108#64, [0xEE, 0x88, 0x77, 0x66, 0x55, 0xEE, 0xEE, 0xEE, 0xEE, 0xEE]) := by decide +kernel

theorem test_storer8_ls37 : (ran (withBytes (((small false false).setReg 1#4 0x1122334455667788#64).setReg 2#4
    0x301#64) 0x300 [0xEE, 0xEE, 0xEE, 0xEE, 0xEE, 0xEE, 0xEE, 0xEE, 0xEE, 0xEE]) 0x0613000000000012#64).map (fun t
    => (t.z, t.n, t.pc, readBytes t.mem 0x300 10)) =
    some (false, false, 0x108#64, [0xEE, 0x88, 0x77, 0x66, 0x55, 0x44, 0x33, 0x22, 0x11, 0xEE]) := by decide +kernel

/-! Floating point -/

theorem test_fadd4_fp3 : (ran (((under { standardParams with subwordWrite := .preserveUpper } (small false
    false)).setReg 1#4 0xA5A5A5A53F800000#64).setReg 2#4 0x40000000#64) 0x0700000000000012#64).map (fun t => (t.reg
    1#4, t.z, t.n, t.pc)) =
    some (0xA5A5A5A540400000#64, false, false, 0x108#64) := by decide +kernel

theorem test_fadd4_fp8 : (ran (((small false false).setReg 1#4 0x3F800000#64).setReg 2#4 0xBF800000#64)
    0x0700000000000012#64).map (fun t => (t.reg 1#4, t.z, t.n, t.pc)) =
    some (0x0#64, false, false, 0x108#64) := by decide +kernel

theorem test_fsub4_fp9 : (ran (((small false false).setReg 1#4 0x3F800000#64).setReg 2#4 0x40000000#64)
    0x0701000000000012#64).map (fun t => (t.reg 1#4, t.z, t.n, t.pc)) =
    some (0xBF800000#64, false, false, 0x108#64) := by decide +kernel

theorem test_fmul4_fp13 : (ran (((small false false).setReg 1#4 0x800000#64).setReg 2#4 0x3F000000#64)
    0x0702000000000012#64).map (fun t => (t.reg 1#4, t.z, t.n, t.pc)) =
    some (0x400000#64, false, false, 0x108#64) := by decide +kernel

theorem test_fdiv4_fp15 : (ran (((small false false).setReg 1#4 0x3F800000#64).setReg 2#4 0x40400000#64)
    0x0703000000000012#64).map (fun t => (t.reg 1#4, t.z, t.n, t.pc)) =
    some (0x3EAAAAAB#64, false, false, 0x108#64) := by decide +kernel

theorem test_fdiv4_fp16 : (ran (((small false false).setReg 1#4 0x3F800000#64).setReg 2#4 0x0#64)
    0x0703000000000012#64).map (fun t => (t.reg 1#4, t.z, t.n, t.pc)) =
    some (0x7F800000#64, false, false, 0x108#64) := by decide +kernel

theorem test_fsqrt4_fp21 : (ran ((small false false).setReg 1#4 0x40000000#64) 0x0720100000000000#64).map (fun t =>
    (t.reg 1#4, t.z, t.n, t.pc)) =
    some (0x3FB504F3#64, false, false, 0x108#64) := by decide +kernel

theorem test_fadd8_fp25 : (ran (((small false false).setReg 1#4 0x3FB999999999999A#64).setReg 2#4
    0x3FC999999999999A#64) 0x0710000000000012#64).map (fun t => (t.reg 1#4, t.z, t.n, t.pc)) =
    some (0x3FD3333333333334#64, false, false, 0x108#64) := by decide +kernel

theorem test_fsub8_fp27 : (ran (((small false false).setReg 1#4 0x3FF0000000000000#64).setReg 2#4
    0x3FF0000000000001#64) 0x0711000000000012#64).map (fun t => (t.reg 1#4, t.z, t.n, t.pc)) =
    some (0xBCB0000000000000#64, false, false, 0x108#64) := by decide +kernel

theorem test_fmul8_fp29 : (ran (((small false false).setReg 1#4 0x7FEFFFFFFFFFFFFF#64).setReg 2#4
    0x4000000000000000#64) 0x0712000000000012#64).map (fun t => (t.reg 1#4, t.z, t.n, t.pc)) =
    some (0x7FF0000000000000#64, false, false, 0x108#64) := by decide +kernel

theorem test_fdiv8_fp30 : (ran (((small false false).setReg 1#4 0x3FF0000000000000#64).setReg 2#4
    0x4008000000000000#64) 0x0713000000000012#64).map (fun t => (t.reg 1#4, t.z, t.n, t.pc)) =
    some (0x3FD5555555555555#64, false, false, 0x108#64) := by decide +kernel

theorem test_fsqrt8_fp35 : (ran ((small false false).setReg 1#4 0x1#64) 0x0721100000000000#64).map (fun t => (t.reg
    1#4, t.z, t.n, t.pc)) =
    some (0x1E60000000000000#64, false, false, 0x108#64) := by decide +kernel

/-! Stack -/

theorem test_push1_st1 : (ran (withBytes ({ small true true with sp := 0x800#64 }.setReg 1#4 0x1122334455667788#64)
    0x800 [0xEE, 0xEE, 0xEE, 0xEE, 0xEE, 0xEE, 0xEE, 0xEE]) 0x0820100000000000#64).map (fun t => (t.z, t.n, t.pc,
    t.sp, readBytes t.mem 0x800 8)) =
    some (true, true, 0x108#64, 0x801#64, [0x88, 0xEE, 0xEE, 0xEE, 0xEE, 0xEE, 0xEE, 0xEE]) := by decide +kernel

theorem test_push2_st2 : (ran (withBytes ({ small true true with sp := 0x800#64 }.setReg 1#4 0x1122334455667788#64)
    0x800 [0xEE, 0xEE, 0xEE, 0xEE, 0xEE, 0xEE, 0xEE, 0xEE]) 0x0821100000000000#64).map (fun t => (t.z, t.n, t.pc,
    t.sp, readBytes t.mem 0x800 8)) =
    some (true, true, 0x108#64, 0x802#64, [0x88, 0x77, 0xEE, 0xEE, 0xEE, 0xEE, 0xEE, 0xEE]) := by decide +kernel

theorem test_push4_st5 : (ran (withBytes ((under { standardParams with endian := .big } { small false false with sp
    := 0x800#64 }).setReg 1#4 0x1122334455667788#64) 0x800 [0xEE, 0xEE, 0xEE, 0xEE, 0xEE, 0xEE, 0xEE, 0xEE])
    0x0822100000000000#64).map (fun t => (t.z, t.n, t.pc, t.sp, readBytes t.mem 0x800 8)) =
    some (false, false, 0x108#64, 0x804#64, [0x55, 0x66, 0x77, 0x88, 0xEE, 0xEE, 0xEE, 0xEE]) := by decide +kernel

theorem test_push8_st6 : (ran (withBytes ({ small false false with sp := 0x801#64 }.setReg 1#4 0x1122334455667788#64)
    0x800 [0xEE, 0xEE, 0xEE, 0xEE, 0xEE, 0xEE, 0xEE, 0xEE, 0xEE, 0xEE]) 0x0823100000000000#64).map (fun t => (t.z,
    t.n, t.pc, t.sp, readBytes t.mem 0x800 10)) =
    some (false, false, 0x108#64, 0x809#64, [0xEE, 0x88, 0x77, 0x66, 0x55, 0x44, 0x33, 0x22, 0x11, 0xEE])
    := by decide +kernel

theorem test_push8_st9 : (ran ({ small false false with sp := 0xFF9#64 }.setReg 1#4 0x1122334455667788#64)
    0x0823100000000000#64).map (fun t => (t.z, t.n, t.pc, t.sp, t.run)) =
    some (false, false, 0x100#64, 0xFF9#64, .faulted (.memoryFault 0xFF9#64 8 .write)) := by decide +kernel

theorem test_pop1_st15 : (ran (withBytes ((under { standardParams with subwordWrite := .signExtend }
    { small false false with sp := 0x808#64 }).setReg 1#4 0xA5A5A5A5A5A5A5A5#64) 0x800 [0x88, 0x77, 0x66, 0x55, 0x44,
    0x33, 0x22, 0x91]) 0x0810100000000000#64).map (fun t => (t.reg 1#4, t.z, t.n, t.pc, t.sp)) =
    some (0xFFFFFFFFFFFFFF91#64, false, false, 0x108#64, 0x807#64) := by decide +kernel

theorem test_pop2_st16 : (ran (withBytes ((under { standardParams with subwordWrite := .preserveUpper }
    { small false false with sp := 0x808#64 }).setReg 1#4 0xA5A5A5A5A5A5A5A5#64) 0x800 [0x88, 0x77, 0x66, 0x55, 0x44,
    0x33, 0x22, 0x91]) 0x0811100000000000#64).map (fun t => (t.reg 1#4, t.z, t.n, t.pc, t.sp)) =
    some (0xA5A5A5A5A5A59122#64, false, false, 0x108#64, 0x806#64) := by decide +kernel

theorem test_pop4_st14 : (ran (withBytes ((under { standardParams with endian := .big } { small false false with sp
    := 0x808#64 }).setReg 1#4 0xA5A5A5A5A5A5A5A5#64) 0x800 [0x88, 0x77, 0x66, 0x55, 0x44, 0x33, 0x22, 0x91])
    0x0812100000000000#64).map (fun t => (t.reg 1#4, t.z, t.n, t.pc, t.sp)) =
    some (0x44332291#64, false, false, 0x108#64, 0x804#64) := by decide +kernel

theorem test_pop8_st17 : (ran (withBytes ({ small false false with sp := 0x8#64 }.setReg 1#4 0xA5A5A5A5A5A5A5A5#64)
    0x0 [0x88, 0x77, 0x66, 0x55, 0x44, 0x33, 0x22, 0x91]) 0x0813100000000000#64).map (fun t => (t.reg 1#4, t.z, t.n,
    t.pc, t.sp)) =
    some (0x9122334455667788#64, false, false, 0x108#64, 0x0#64) := by decide +kernel

theorem test_pop8_st19 : (ran ({ small false false with sp := 0x4#64 }.setReg 1#4 0xA5A5A5A5A5A5A5A5#64)
    0x0813100000000000#64).map (fun t => (t.reg 1#4, t.pc, t.sp, t.run)) =
    some (0xA5A5A5A5A5A5A5A5#64, 0x100#64, 0x4#64, .faulted (.memoryFault 0xFFFFFFFFFFFFFFFC#64 8 .read))
    := by decide +kernel

theorem test_ret_st20 : (ran (withBytes { small true true with sp := 0x808#64 } 0x800 [0x40, 0x00, 0x00, 0x00, 0x00,
    0x00, 0x00, 0x00]) 0x0800000000000000#64).map (fun t => (t.z, t.n, t.pc, t.sp)) =
    some (true, true, 0x40#64, 0x800#64) := by decide +kernel

theorem test_ret_st23 : (ran { small false false with sp := 0x4#64 } 0x0800000000000000#64).map (fun t => (t.z, t.n,
    t.pc, t.sp, t.run)) =
    some (false, false, 0x100#64, 0x4#64, .faulted (.memoryFault 0xFFFFFFFFFFFFFFFC#64 8 .read)) := by decide +kernel

/-! Fetch -/

theorem test_nop_ft4 : (ran { small false false with pc := 0xFF8#64 } 0x0001000000000000#64).map (fun t => (t.z, t.n,
    t.pc)) =
    some (false, false, 0x1000#64) := by decide +kernel

theorem test_illegal_ft6 : (ran ((small true false).setReg 1#4 0x5#64) 0x0002000000000000#64).map (fun t => (t.z,
    t.n, t.pc, t.run)) =
    some (true, false, 0x100#64, .faulted (.illegalInstruction 0x100#64 0x0002000000000000#64)) := by decide +kernel

theorem test_illegal_ft8 : (ran ((small false false).setReg 1#4 0x5#64) 0x0030100000000001#64).map (fun t => (t.z,
    t.n, t.pc, t.run)) =
    some (false, false, 0x100#64, .faulted (.illegalInstruction 0x100#64 0x0030100000000001#64)) := by decide +kernel
/-- V-FT3: a misaligned `pc` outside `Memoria` reports misaligned. -/
theorem test_fetch_ft3 :
    (match step { small false false with pc := 0x1004#64 } with
      | .next t => t.run
      | _ => .running) = .faulted (.fetchFault 0x1004#64 .misaligned) := by decide +kernel

/-- V-FS1: whatever `FP.sin_4` gives, zero-extended. -/
theorem test_fsin4_fs1 : (did (.fsin4 1#4) ((small true false).setReg 1#4 0xA5A5A5A53F800000#64)).map
    (fun t => t.reg 1#4) = some ((Config.sin4 0x3F800000#32).setWidth 64) := rfl

theorem test_fcos4_fs2 : (did (.fcos4 1#4) ((small true false).setReg 1#4 0#64)).map (fun t => t.reg 1#4) =
    some ((Config.cos4 0#32).setWidth 64) := rfl

theorem test_fsin8_fs3 : (did (.fsin8 1#4) ((small true false).setReg 1#4 0#64)).map (fun t => t.reg 1#4) =
    some ((Config.sin8 0#64).setWidth 64) := rfl

theorem test_fcos8_fs4 : (did (.fcos8 1#4) ((small true false).setReg 1#4 0x3FF0000000000000#64)).map
    (fun t => t.reg 1#4) = some ((Config.cos8 0x3FF0000000000000#64).setWidth 64) := rfl

/-! The 8-byte ALU forms have no word by default (R97); expected results from R130 to R132. -/

/-- R207's example, its word being one of a configuration that supplies the opcodes (D19). -/
theorem test_add8_supplied :
    (ran (((under { standardParams with alu8Opcodes := some someAlu8 } (small false false)).setReg 1#4
      0xFFFFFFFFFFFFFFFF#64).setReg 2#4 1#64) 0x0900000000000012#64).map (fun t => (t.reg 1#4, t.z, t.pc)) =
      some (0#64, true, 0x108#64) := by decide +kernel

theorem test_add8 : (did (.add8 1#4 2#4) (((small false false).setReg 1#4 0xFFFFFFFFFFFFFFFF#64).setReg 2#4 1#64)).map
    (fun t => (t.reg 1#4, t.z, t.n)) = some (0#64, true, false) := by decide +kernel

theorem test_sub8 : (did (.sub8 1#4 2#4) (((small false false).setReg 1#4 5#64).setReg 2#4 7#64)).map
    (fun t => (t.reg 1#4, t.z, t.n)) = some (0xFFFFFFFFFFFFFFFE#64, false, true) := by decide +kernel

theorem test_mul8 : (did (.mul8 1#4 2#4) (((small false false).setReg 1#4 0x100000001#64).setReg 2#4 0x100000000#64)).map
    (fun t => (t.reg 1#4, t.z, t.n)) = some (0x100000000#64, false, false) := by decide +kernel

theorem test_muls8 : (did (.muls8 1#4 2#4) (((small false false).setReg 1#4 0xFFFFFFFFFFFFFFFD#64).setReg 2#4 5#64)).map
    (fun t => (t.reg 1#4, t.z, t.n)) = some (0xFFFFFFFFFFFFFFF1#64, false, true) := by decide +kernel

theorem test_div8 : (did (.div8 1#4 2#4) (((small false false).setReg 1#4 0xFFFFFFFFFFFFFFF9#64).setReg 2#4 2#64)).map
    (fun t => (t.reg 1#4, t.z, t.n)) = some (0xFFFFFFFFFFFFFFFD#64, false, true) := by decide +kernel

theorem test_addv8 : (did (.addv8 1#4 0xFFFFFFFFFFF#44) ((small false false).setReg 1#4 0xA#64)).map
    (fun t => (t.reg 1#4, t.z, t.n)) = some (0x100000000009#64, false, false) := by decide +kernel

theorem test_subv8 : (did (.subv8 1#4 1#44) ((small false false).setReg 1#4 0#64)).map
    (fun t => (t.reg 1#4, t.z, t.n)) = some (0xFFFFFFFFFFFFFFFF#64, false, true) := by decide +kernel

/-! ## Free values: the next state exists and holds the constant, whatever it is -/

/-- U6 and R262: from the same drawn bits, a quiet NaN under `quiet`, the pattern itself under `any`. -/
theorem test_nan_draws :
    nanOf .quiet binary32 32 1 = 0x7FC00001#32 ∧ nanOf .any binary32 32 1 = 0x7F800001#32 ∧
    nanOf .quiet binary32 32 0xFFFFFFFF = 0xFFFFFFFF#32 ∧ nanOf .any binary32 32 0 = 0x7FC00000#32 := by decide +kernel

/-- R176: an input cell latches the environment's answer. -/
theorem test_loadio_free :
    (did (.loadio 2#4 0x20#44) { small false false with params := { standardParams with inputSet := [⟨0x20, 0x20⟩] } }).map
      (fun t => (t.reg 2#4, t.draws)) = some (Config.ioAnswer 0, 1) := rfl

/-- R30 under `ALU_FLAGS = unspecified`: both flags are drawn. -/
theorem test_inc_free_flags :
    (did (.inc 1#4) { small false false with params := { standardParams with aluFlags := .unspecified } }).map
      (fun t => (t.z, t.n, t.draws)) = some (Config.freeZ 0, Config.freeN 0, 1) := rfl

/-! ## Witnesses: states and operands that meet the hypotheses of each obligation, clause by clause

Witness and obligations: MemoryAccess for MemReadAssemblesBytes and MemWriteStoresBytes; NextStates for
NextInstructionIsEightBytesOn, OnlyStackInstructionsMoveSp and EveryInstructionHasANextState; StateInv for
StepKeepsCanonicalMemoryAndIo and ParametersNeverChange; FaultRecord for StepKeepsTheFaultRecord and FaultsArePrecise;
Frames for the three obligations about flags, memory and registers; LoadsAndStores for the loads and the stores; Stack for
the pushes and the pops. The others bear the first words of their obligation's name. -/

/-- The reset state with the word w at address 0, where the first fetch reads. -/
def holding (w : Word) : State := State.reset.placeWord w

/-- The reset state with two registers set. -/
def regs2 (a b : RegId) (u v : Word) : State := (State.reset.setReg a u).setReg b v

/-- One instruction with the default and one of the 8-byte ones with seven legal opcodes. -/
theorem test_witness_DecodeOfEncode :
    ((Instr.add 1#4 2#4).wellFormedIn none = true ∧ encode none (.add 1#4 2#4) = some 0x0010000000000012#64) ∧
    (someAlu8.wellFormed = true ∧ (Instr.add8 1#4 2#4).wellFormedIn (some someAlu8) = true ∧
      encode (some someAlu8) (.add8 1#4 2#4) = some 0x0900000000000012#64) :=
  ⟨⟨rfl, rfl⟩, by decide +kernel, rfl, rfl⟩

theorem test_witness_StrictDecode :
    decode none true 0x0843F00000000064#64 = .ok (.cmpv8 0xF#4 0x64#44) ∧
    decode (some someAlu8) true 0x0904000000000012#64 = .ok (.div8 1#4 2#4) := ⟨rfl, rfl⟩

/-- Both clauses in each format with a zero field: the word itself, and one with every bit of that field set. -/
theorem test_witness_NonStrictDecode :
    (decode none false 0x0010000000000012#64 = .ok (.add 1#4 2#4) ∧
      decode none false 0x0010FFFFFFFFFF12#64 = .ok (.add 1#4 2#4) ∧
      encode none (.add 1#4 2#4) = some 0x0010000000000012#64) ∧
    (decode none false 0x0030100000000000#64 = .ok (.inc 1#4) ∧
      decode none false 0x00301FFFFFFFFFFF#64 = .ok (.inc 1#4) ∧ encode none (.inc 1#4) = some 0x0030100000000000#64) ∧
    (decode none false 0x0001FFFFFFFFFFFF#64 = .ok .nop ∧ encode none .nop = some 0x0001000000000000#64) :=
  ⟨⟨rfl, rfl, rfl⟩, ⟨rfl, rfl, rfl⟩, rfl, rfl⟩

theorem test_witness_ExactlyTheAssignedOpcodes :
    decode none false 0x0843000000000000#64 = .ok (.cmpv8 0#4 0#44) ∧
    (opcodeOf 0x0844000000000000#64).toNat ∉ assignedOpcodes ∧ opcodeOf 0x0844000000000000#64 ∉ someAlu8.opcodes ∧
    opcodeOf 0x0911000000000000#64 ∈ someAlu8.opcodes ∧ someAlu8.wellFormed = true :=
  ⟨rfl, by decide, by decide, by decide, by decide +kernel⟩

theorem test_witness_EightByteAlu :
    decode none false 0x0300000000000012#64 = .ok (.add4 1#4 2#4) ∧ Instr.wellFormed (.add8 1#4 2#4) = false ∧
    someAlu8.wellFormed = true := ⟨rfl, rfl, by decide +kernel⟩

/-- The last instruction address, and the first address outside, for both byte orders. -/
theorem test_witness_Fetch :
    InMemory { State.reset with pc := 0xFF8#64 } 0xFF8#64 8 ∧
    ¬InMemory { State.reset with pc := 0x1000#64 } 0x1000#64 8 ∧ State.reset.run = .running ∧
    { State.reset with params := { standardParams with endian := .big } }.params.endian = .big := by
  unfold InMemory
  decide

/-- Reads and writes of 1 and 8 bytes at the last address inside and the first outside. -/
theorem test_witness_MemoryAccess :
    InMemory State.reset 0xFFF#64 (8 / 8) ∧ ¬InMemory State.reset 0x1000#64 (8 / 8) ∧
    InMemory State.reset 0xFFE#64 (16 / 8) ∧ ¬InMemory State.reset 0xFFF#64 (16 / 8) ∧
    InMemory State.reset 0xFFC#64 (32 / 8) ∧ ¬InMemory State.reset 0xFFD#64 (32 / 8) ∧
    InMemory State.reset 0xFF8#64 (64 / 8) ∧ ¬InMemory State.reset 0xFF9#64 (64 / 8) ∧
    ¬InMemory State.reset 0xFFFFFFFFFFFFFFFF#64 (64 / 8) := by
  unfold InMemory
  decide

theorem test_witness_MixedWidth :
    State.reset.memWrite 0xFF8#64 0x1122334455667788#64 = .ok (State.reset.storeAt 0xFF8#64 0x1122334455667788#64) ∧
    (0xFF8#64).toNat + 4 < 2 ^ 64 ∧ (0xFF0#64).toNat + 8 ≤ (0xFF8#64).toNat := ⟨rfl, by decide, by decide⟩

theorem test_witness_StepRuns : Fetches (holding 0x0010000000000012#64) (.add 1#4 2#4) :=
  ⟨rfl, by decide, by decide, rfl⟩

/-- One state per fault of the fetch. -/
theorem test_witness_FetchFaults :
    (0x1004#64).toNat % 8 ≠ 0 ∧ ((0x1000#64).toNat % 8 = 0 ∧ ¬InMemory State.reset 0x1000#64 8) ∧
    (holding 0x0002000000000000#64).run = .running ∧
    decode none true (holding 0x0002000000000000#64).fetchWord = .error .unassignedOpcode :=
  ⟨by decide, ⟨by decide, by unfold InMemory; decide⟩, rfl, rfl⟩

theorem test_witness_ZeroWord :
    State.reset.fetchWord = 0#64 ∧ (holding 0xFFFFFFFFFFFFFFFF#64).fetchWord = 0xFFFFFFFFFFFFFFFF#64 ∧
    InMemory State.reset State.reset.pc 8 ∧ 0xFFFF#16 ∉ suppliedOpcodes State.reset.params.alu8Opcodes :=
  ⟨rfl, by decide +kernel, by unfold InMemory; decide, by decide⟩

theorem test_witness_Stopped :
    { State.reset with run := .halted }.run = .halted ∧
    step { State.reset with run := .faulted (.divideByZero 0#64) } = .fault (.divideByZero 0#64) := ⟨rfl, rfl⟩

/-- One instruction that goes on, one that halts, one that faults; all start running. -/
theorem test_witness_NextStates :
    exec .nop State.reset = .next State.reset.advance ∧ exec .parar State.reset = .next State.reset.halt ∧
    exec (.div 1#4 2#4) State.reset = .next (State.reset.raise (.divideByZero 0#64)) ∧
    Instr.assignsPc .nop = false := ⟨rfl, rfl, rfl, rfl⟩

theorem test_witness_PlacedWord :
    InMemory State.reset State.reset.pc 8 ∧ decode none true 0x0001000000000000#64 = .ok .nop :=
  ⟨by unfold InMemory; decide, rfl⟩

/-- The stored word is a NOP, stored right after the store itself. -/
theorem test_witness_StoredInstruction :
    (regs2 1#4 2#4 0x0001000000000000#64 8#64).reg 2#4 = State.reset.pc + 8#64 ∧
    decode none true ((regs2 1#4 2#4 0x0001000000000000#64 8#64).reg 1#4) = .ok .nop ∧
    InMemory (regs2 1#4 2#4 0x0001000000000000#64 8#64) 8#64 8 := ⟨by decide, rfl, by unfold InMemory; decide⟩

/-- A state with a byte in memory and a cell in use, in canonical form, that takes a step. -/
theorem test_witness_StateInv :
    StateInv ((holding 0x0001000000000000#64).ioWrite 0x10#48 7#64) ∧
    step ((holding 0x0001000000000000#64).ioWrite 0x10#48 7#64) =
      .next ((holding 0x0001000000000000#64).ioWrite 0x10#48 7#64).advance := ⟨⟨by decide, by decide⟩, rfl⟩

/-- A running state that the next step faults, and the faulted state itself. -/
theorem test_witness_FaultRecord :
    FaultRecorded { State.reset with pc := 4#64 } ∧
    step { State.reset with pc := 4#64 } =
      .next { State.reset with pc := 4#64, run := .faulted (.fetchFault 4#64 .misaligned) } ∧
    FaultRecorded { State.reset with pc := 4#64, run := .faulted (.fetchFault 4#64 .misaligned) } :=
  ⟨trivial, rfl, rfl, by decide⟩

theorem test_witness_Io :
    Instr.isIo .clrio = true ∧ exec .clrio State.reset = .next (State.reset.clearInputs.emit .clrIO).advance ∧
    Instr.isIo .nop = false := ⟨rfl, rfl, rfl⟩

theorem test_witness_Frames :
    Instr.writesFlags .nop = false ∧ writeAccess State.reset .nop = none ∧
    exec .nop State.reset = .next State.reset.advance ∧
    writeAccess State.reset (.push8 1#4) = some (0x800#64, 8) ∧
    exec (.push8 1#4) State.reset = .next (State.reset.push (State.reset.lo 64 1#4)) ∧
    Instr.destination .nop ≠ some 1#4 := ⟨rfl, rfl, rfl, rfl, rfl, by decide⟩

/-- One instruction for each of the three causes. -/
theorem test_witness_ExecuteFaults :
    exec (.load1 1#4 0x1000#44) State.reset = .next (State.reset.raise (.memoryFault 0x1000#64 1 .read)) ∧
    exec (.store1 1#4 0x1000#44) State.reset = .next (State.reset.raise (.memoryFault 0x1000#64 1 .write)) ∧
    zeroDivisor State.reset (.div4 1#4 2#4) = true ∧ zeroDivisor State.reset (.add 1#4 2#4) = false :=
  ⟨rfl, rfl, rfl, rfl⟩

theorem test_witness_Halt : step State.reset = .next { State.reset with run := .halted } := rfl

/-- Both values of both flags. -/
theorem test_witness_Jumps :
    (small true true).z = true ∧ (small false true).z = false ∧ (small true true).n = true ∧
    (small true false).n = false := ⟨rfl, rfl, rfl, rfl⟩

/-- A misaligned target, an aligned target one instruction too far, and a jump to itself. -/
theorem test_witness_BadJump :
    (4#48).toNat % 8 ≠ 0 ∧ ((0x1000#48).toNat % 8 = 0 ∧ State.reset.params.memSize < (0x1000#48).toNat + 8) ∧
    Fetches (holding 0x0090000000000000#64) (.jmp 0#48) ∧ (holding 0x0090000000000000#64).pc = (0#48).setWidth 64 :=
  ⟨by decide, ⟨by decide, by decide⟩, ⟨rfl, by decide, by decide, rfl⟩, by decide⟩

/-- Signed and unsigned division, by 0 and by another number, and a divisor that is 0 in its low byte only. -/
theorem test_witness_Division :
    State.reset.params.div64Signed = true ∧
    { State.reset with params := { standardParams with div64Signed := false } }.params.div64Signed = false ∧
    State.reset.reg 2#4 = 0#64 ∧ (regs2 1#4 2#4 9#64 2#64).reg 2#4 ≠ 0#64 ∧
    (regs2 1#4 2#4 9#64 0x100#64).lo 8 2#4 = 0#8 ∧ (regs2 1#4 2#4 9#64 0x100#64).lo 16 2#4 ≠ 0#16 := by decide

/-- Each corner at every width: the overflow, by 1, by -1, 0 by a number, 7 and 2 with each pair of signs. The last states
are for the unsigned reading of `DIV` and for rounding down. -/
theorem test_witness_DivisionCorners :
    (∀ p ∈ [(8, 0x80#64), (16, 0x8000#64), (32, 0x80000000#64), (64, 0x8000000000000000#64)],
      sval ((regs2 1#4 2#4 p.2 (-1#64)).lo p.1 1#4) = -2 ^ (p.1 - 1) ∧
      sval ((regs2 1#4 2#4 p.2 (-1#64)).lo p.1 2#4) = -1) ∧
    (∀ w ∈ [8, 16, 32, 64],
      (sval ((regs2 1#4 2#4 0#64 1#64).lo w 2#4) = 1 ∧ sval ((regs2 1#4 2#4 0#64 1#64).lo w 1#4) = 0) ∧
      ∀ p ∈ [(7, 2), (7, -2), (-7, 2), (-7, -2)],
        sval ((regs2 1#4 2#4 (BitVec.ofInt 64 p.1) (BitVec.ofInt 64 p.2)).lo w 1#4) = p.1 ∧
        sval ((regs2 1#4 2#4 (BitVec.ofInt 64 p.1) (BitVec.ofInt 64 p.2)).lo w 2#4) = p.2) ∧
    State.reset.params.div64Signed = true ∧ State.reset.params.divRound = .trunc ∧
    (under { standardParams with div64Signed := false } (regs2 1#4 2#4 0#64 1#64)).params.div64Signed = false ∧
    (under { standardParams with div64Signed := false } (regs2 1#4 2#4 0#64 1#64)).reg 2#4 = 1#64 ∧
    (under { standardParams with div64Signed := false } (regs2 1#4 2#4 0#64 1#64)).reg 1#4 = 0#64 ∧
    (under { standardParams with divRound := .floor } (regs2 1#4 2#4 (-7#64) 2#64)).params.divRound = .floor := by
  decide +kernel

/-- Bit 44, the first above the field, after each of the three instructions; and an immediate with bit 43 clear. -/
theorem test_witness_ImmediateUpperBits :
    State.reset.params.immExt = .zero ∧
    (did (.andv 1#4 5#44) State.reset).isSome = true ∧ (did (.orv 1#4 5#44) State.reset).isSome = true ∧
    (did (.xorv 1#4 5#44) State.reset).isSome = true ∧ (0x7FFFFFFFFFF#44).getLsbD 43 = false := by decide

/-- Register and immediate addresses at the last place inside and the first outside. -/
theorem test_witness_LoadsAndStores :
    InMemory State.reset (addr44 0xFF8#44) (64 / 8) ∧ ¬InMemory State.reset (addr44 0xFF9#44) (64 / 8) ∧
    InMemory (State.reset.setReg 2#4 0xFF8#64) ((State.reset.setReg 2#4 0xFF8#64).reg 2#4) (64 / 8) ∧
    ¬InMemory (State.reset.setReg 2#4 0xFF9#64) ((State.reset.setReg 2#4 0xFF9#64).reg 2#4) (64 / 8) := by
  unfold InMemory
  decide

/-- A pair whose difference fits, and one whose unsigned difference is below 2^7. -/
theorem test_witness_CompareOrders :
    sval (0x80#8) - sval (0x01#8) < -(2 ^ (8 - 1)) ∧ -(2 ^ (8 - 1)) ≤ sval (0x80#8) - sval (0#8) ∧
    |uval (0x05#8) - uval (0x84#8)| < 2 ^ (8 - 1) := by decide

/-- A cell outside the default input set, and one inside another. -/
theorem test_witness_InputSet :
    isInput State.reset.params 0x10 = false ∧
    isInput { standardParams with inputSet := [⟨0x10, 0x10⟩] } 0x10 = true := by decide

/-- Operands for each rounding clause: 1 + 1, 1 - 0, 1 * 1, 1 / 1, sqrt 1, in units of binary32. -/
theorem test_witness_Rounding :
    IsFormat binary32 ∧ IsFormat binary64 ∧ fpInt false (2 ^ 149) + fpInt false (2 ^ 149) ≠ 0 ∧
    fpInt false (2 ^ 149) - fpInt true 0 ≠ 0 ∧ (2 ^ 149 : Nat) ≠ 0 :=
  ⟨.inl rfl, .inr rfl, by decide, by decide, by decide⟩

/-- The largest finite magnitude, the next representable one, and a pattern that reads as a number. -/
theorem test_witness_Packing :
    Representable binary32 (fpMaxFinite binary32) ∧
    (Representable binary32 (2 ^ 23 * 2 ^ 254) ∧ fpMaxFinite binary32 < 2 ^ 23 * 2 ^ 254) ∧
    fpDatum binary32 0x80000001 = .fin true 1 ∧ 0x80000001 < 2 ^ (1 + binary32.expBits + binary32.fracBits) :=
  ⟨⟨2 ^ 24 - 1, 253, by decide, by decide +kernel⟩, ⟨⟨2 ^ 23, 254, by decide, rfl⟩, by decide +kernel⟩,
    by decide, by decide⟩

/-- Opposite signs, a nonzero magnitude, and an exact zero sum of operands that are not zeros of one sign. -/
theorem test_witness_FloatSpecial :
    false ≠ true ∧ (1 : Nat) ≠ 0 ∧ fpInt false 5 + fpInt true 5 = 0 ∧ ¬(5 = 0 ∧ 5 = 0 ∧ false = true) ∧
    fpInt false 0 + fpInt true 0 = 0 ∧ fpInt true 5 - fpInt true 5 = 0 ∧ IsFormat binary32 :=
  ⟨by decide, by decide, by decide, by decide, by decide, by decide, .inl rfl⟩

/-- A push at the last place inside and the first outside; a pop from the bottom of `Memoria` and from below it. -/
theorem test_witness_Stack :
    InMemory (State.reset.setSp 0xFF8#64) (State.reset.setSp 0xFF8#64).sp (64 / 8) ∧
    ¬InMemory (State.reset.setSp 0xFF9#64) (State.reset.setSp 0xFF9#64).sp (64 / 8) ∧
    InMemory (State.reset.setSp 8#64) ((State.reset.setSp 8#64).popAddr 64) (64 / 8) ∧
    ¬InMemory (State.reset.setSp 7#64) ((State.reset.setSp 7#64).popAddr 64) (64 / 8) ∧
    ¬InMemory (State.reset.setSp 0#64) ((State.reset.setSp 0#64).popAddr 8) (8 / 8) := by
  unfold InMemory
  decide

/-- Return addresses that the next fetch refuses: misaligned, and outside. -/
theorem test_witness_Ret :
    InMemory State.reset (State.reset.popAddr 64) 8 ∧
    (withBytes State.reset 0x7F8 [0x44]).valueAt 64 (State.reset.popAddr 64) = 0x44#64 ∧ (0x44#64).toNat % 8 ≠ 0 ∧
    (withBytes State.reset 0x7F8 [0, 0x10]).valueAt 64 (State.reset.popAddr 64) = 0x1000#64 ∧
    State.reset.params.memSize < (0x1000#64).toNat + 8 := by
  unfold InMemory
  decide +kernel

theorem test_witness_PushThenPop :
    InMemory (State.reset.setReg 3#4 0x800#64) 0x800#64 8 ∧
    (State.reset.setReg 3#4 0x800#64).reg 3#4 = (State.reset.setReg 3#4 0x800#64).sp := by
  unfold InMemory
  decide

end Sys2Proof.Tests
end

namespace Sys2Proof.Machine

/-! ## Totality of `exec` and of the running step -/

/-- No arm of `exec` refuses or ends in the host's fault outcome: each instruction's meaning is `.next` of a state, the
faults of the spec included (R303). With `execState_shape` this says in which state. -/
theorem exec_eq_next_execState (i : Instr) (s : State) : exec i s = .next (execState i s) := by
  cases i <;> rfl

/-- A running step answers the state of the fetched instruction, or the state that raises the fault of the fetch (R26). -/
theorem step_answers_next {s : State} (h : s.run = .running) : ∃ t, step s = .next t := by
  obtain ⟨i, -, hstep⟩ | ⟨f, -, hstep⟩ := step_running h
  · exact ⟨execState i s, hstep.trans (exec_eq_next_execState i s)⟩
  · exact ⟨s.raise f, hstep⟩

/-- Settles O31: `exec` arm by arm, and the step by the two ways a running step goes. -/
theorem everyInstructionHasANextState : Obligations.EveryInstructionHasANextState :=
  ⟨fun i s => ⟨execState i s, exec_eq_next_execState i s⟩, fun _ h => step_answers_next h⟩

end Sys2Proof.Machine

section
/-! The frame of an instruction: what a completed instruction may have changed, by its class, said once by the cases of
`Shape`; then what a step can do. The frame statements of 10_state.md read their part off these. -/

namespace Sys2Proof.Machine

variable {w : Nat}

/-! ## The invariant of memory and I/O under the shared operations -/

theorem StateInv.raise {s : State} (f : Fault) (h : StateInv s) : StateInv (s.raise f) := h.congr rfl rfl rfl

theorem StateInv.halt {s : State} (h : StateInv s) : StateInv s.halt := h.congr rfl rfl rfl

theorem StateInv.advance {s : State} (h : StateInv s) : StateInv s.advance := h.congr rfl rfl rfl

theorem StateInv.drawn {s : State} (h : StateInv s) : StateInv s.drawn := h.congr rfl rfl rfl

theorem StateInv.setSp {s : State} (v : Word) (h : StateInv s) : StateInv (s.setSp v) := h.congr rfl rfl rfl

theorem StateInv.jumpTo {s : State} (v : Word) (h : StateInv s) : StateInv (s.jumpTo v) := h.congr rfl rfl rfl

theorem StateInv.setReg {s : State} (d : RegId) (v : Word) (h : StateInv s) : StateInv (s.setReg d v) :=
  h.congr rfl rfl rfl

theorem StateInv.emit {s : State} (e : Event) (h : StateInv s) : StateInv (s.emit e) := h.congr rfl rfl rfl

theorem StateInv.writeSized {s : State} (d : RegId) (r : BitVec w) (h : StateInv s) : StateInv (s.writeSized d r) :=
  h.congr (by simp) (by simp) (by simp)

theorem StateInv.aluResult {s : State} (d : RegId) (r : BitVec w) (h : StateInv s) : StateInv (s.aluResult d r) :=
  h.congr (by simp [State.aluResult]) (by simp [State.aluResult]) (by simp [State.aluResult])

theorem StateInv.compare {s : State} (d : RegId) (b : BitVec w) (h : StateInv s) : StateInv (s.compare d b) :=
  h.congr rfl rfl rfl

theorem StateInv.jumpIf {s : State} (c : Bool) (k : Imm48) (h : StateInv s) : StateInv (s.jumpIf c k) := by
  cases c
  · exact h.advance
  · exact h.jumpTo _

theorem StateInv.fpWrite {s : State} (f : FpFormat) (w : Nat) (d : RegId) (out : FpOut) (h : StateInv s) :
    StateInv (s.fpWrite f w d out) := by
  obtain ⟨v, -, he⟩ | ⟨-, he⟩ := s.fpWrite_cases f w d out <;> rw [he]
  · exact (h.writeSized d _).advance
  · exact (h.drawn.writeSized d _).advance

theorem StateInv.loadInto {s : State} (w : Nat) (d : RegId) (a : Word) (h : StateInv s) :
    StateInv (s.loadInto w d a) := by
  obtain ⟨-, he⟩ | ⟨-, he⟩ := s.loadInto_cases w d a <;> rw [he]
  · exact (h.writeSized d _).advance
  · exact h.raise _

/-- A store keeps the invariant: it reaches `Memoria` only when all its bytes are inside (R52, R54). -/
theorem StateInv.storeTo {s : State} (a : Word) (v : BitVec w) (h : StateInv s) : StateInv (s.storeTo a v) := by
  obtain ⟨hin, he⟩ | ⟨-, he⟩ := s.storeTo_cases a v <;> rw [he]
  · exact (h.storeAt a v hin).advance
  · exact h.raise _

/-- A push keeps the invariant: it reaches `Memoria` only when all its bytes are inside (R52, R286). -/
theorem StateInv.push {s : State} (v : BitVec w) (h : StateInv s) : StateInv (s.push v) := by
  obtain ⟨hin, he⟩ | ⟨-, he⟩ := s.push_cases v <;> rw [he]
  · exact ((h.storeAt s.sp v hin).setSp _).advance
  · exact h.raise _

theorem StateInv.popInto {s : State} (w : Nat) (d : RegId) (h : StateInv s) : StateInv (s.popInto w d) := by
  obtain ⟨-, he⟩ | ⟨-, he⟩ := s.popInto_cases w d <;> rw [he]
  · exact ((h.setSp _).writeSized d _).advance
  · exact h.raise _

theorem StateInv.popPc {s : State} (h : StateInv s) : StateInv s.popPc := by
  obtain ⟨-, he⟩ | ⟨-, he⟩ := s.popPc_cases <;> rw [he]
  · exact (h.setSp _).jumpTo _
  · exact h.raise _

theorem StateInv.ioReadState {s : State} (c : IoCell) (h : StateInv s) : StateInv (s.ioReadState c) := by
  obtain ⟨-, -, he⟩ | ⟨-, -, he⟩ := s.ioRead_cases c <;> rw [he]
  · exact (h.ioWrite c _).drawn
  · exact h

/-- Every instruction keeps `Memoria` and `IO` canonical and inside their spaces, in whatever shape it ends. -/
theorem Shape.keeps_stateInv {i : Instr} {s t : State} (hs : Shape s i t) (h : StateInv s) : StateInv t := by
  cases hs with
  | halt => exact h.halt
  | nop => exact h.advance
  | jump c k => exact h.jumpIf c k
  | alu d r => exact h.aluResult d r
  | divideByZero d => exact h.raise _
  | compare d b => exact h.compare d b
  | move d r => exact (h.writeSized d r).advance
  | fp f w d out => exact h.fpWrite f w d out
  | load w d a => exact h.loadInto w d a
  | store a v => exact h.storeTo a v
  | push v => exact h.push v
  | pop w d => exact h.popInto w d
  | ret => exact h.popPc
  | svio rd a => exact ((h.ioWrite _ _).emit _).advance
  | loadio rd a => exact (((h.ioReadState _).setReg rd _).emit _).advance
  | showio k => exact (h.emit _).advance
  | clrio => exact (h.clearInputs.emit _).advance
  | resetio => exact (h.clearIo.emit _).advance

/-! ## The frame of a completed instruction -/

/-- What an instruction that completes leaves, by its class: it goes on running, and `pc`, `SP`, the flags, the registers,
`IO` and the trace change only where its class says so. -/
structure InstrFrame (i : Instr) (s t : State) : Prop where
  /-- PARAR does not go on: it halts. -/
  not_parar : i ≠ .parar
  run : t.run = s.run
  pc : i.assignsPc = false → t.pc = s.pc + 8#64
  sp : t.sp = s.sp + i.spStep
  flags : i.writesFlags = false → FlagsKept s t
  regs : ∀ r, i.destination ≠ some r → t.reg r = s.reg r
  io : i.isIo = false → IoKept s t
  event : i.isIo = true → ∃ e, t.trace = s.trace ++ [e]

/-- A register other than d is kept by an instruction whose destination is d. -/
theorem OtherRegsKept.of_destination {s t : State} {i : Instr} {d : RegId} (h : OtherRegsKept d s t)
    (hd : i.destination = some d) : ∀ r, i.destination ≠ some r → t.reg r = s.reg r :=
  fun r hr => h r fun e => hr (e ▸ hd)

theorem AluEffect.frame {i : Instr} {s t : State} {d : RegId} {r : BitVec w} {rd wr : Option (Word × Nat)} {zero : Bool}
    (he : AluEffect s t d r) (hc : Classified s i (some d) true false false 0#64 rd wr zero) (hp : i ≠ .parar) :
    InstrFrame i s t := by
  obtain ⟨-, -, hpc, hregs, hsp, -, hio, hrun, -⟩ := he
  obtain ⟨hd, hf, hi, -, hst, -⟩ := hc
  exact ⟨hp, hrun, fun _ => hpc, by simp [hsp, hst], by simp [hf], hregs.of_destination hd, fun _ => hio, by simp [hi]⟩

theorem MoveEffect.frame {i : Instr} {s t : State} {d : RegId} {r : BitVec w} {rd wr : Option (Word × Nat)} {zero : Bool}
    (he : MoveEffect s t d r) (hc : Classified s i (some d) false false false 0#64 rd wr zero) (hp : i ≠ .parar) :
    InstrFrame i s t := by
  obtain ⟨-, hfl, hpc, hregs, hsp, -, hio, hrun, -⟩ := he
  obtain ⟨hd, -, hi, -, hst, -⟩ := hc
  exact ⟨hp, hrun, fun _ => hpc, by simp [hsp, hst], fun _ => hfl, hregs.of_destination hd, fun _ => hio, by simp [hi]⟩

theorem CompareEffect.frame {i : Instr} {s t : State} {r : BitVec w} {rd wr : Option (Word × Nat)} {zero : Bool}
    (he : CompareEffect s t r) (hc : Classified s i none true false false 0#64 rd wr zero) (hp : i ≠ .parar) :
    InstrFrame i s t := by
  obtain ⟨-, hpc, hregs, hsp, -, hio, hrun, -⟩ := he
  obtain ⟨-, hf, hi, -, hst, -⟩ := hc
  exact ⟨hp, hrun, fun _ => hpc, by simp [hsp, hst], by simp [hf], fun r _ => hregs r, fun _ => hio, by simp [hi]⟩

theorem StoreEffect.frame {i : Instr} {s t : State} {a : Word} {v : BitVec w} {rd wr : Option (Word × Nat)} {zero : Bool}
    (he : StoreEffect s t a v) (hc : Classified s i none false false false 0#64 rd wr zero) (hp : i ≠ .parar) :
    InstrFrame i s t := by
  obtain ⟨-, -, hpc, hregs, hfl, hsp, hio, hrun, -⟩ := he
  obtain ⟨-, -, hi, -, hst, -⟩ := hc
  exact ⟨hp, hrun, fun _ => hpc, by simp [hsp, hst], fun _ => hfl, fun r _ => hregs r, fun _ => hio, by simp [hi]⟩

theorem PushEffect.frame {i : Instr} {s t : State} {v : BitVec w} {rd wr : Option (Word × Nat)} {zero : Bool}
    (he : PushEffect s t v) (hc : Classified s i none false false false (BitVec.ofNat 64 (w / 8)) rd wr zero)
    (hp : i ≠ .parar) : InstrFrame i s t := by
  obtain ⟨-, -, hsp, hpc, hregs, hfl, hio, hrun, -⟩ := he
  obtain ⟨-, -, hi, -, hst, -⟩ := hc
  exact ⟨hp, hrun, fun _ => hpc, hsp.trans (by rw [hst]), fun _ => hfl, fun r _ => hregs r, fun _ => hio, by simp [hi]⟩

theorem PopEffect.frame {i : Instr} {s t : State} {d : RegId} {v : BitVec w} {rd wr : Option (Word × Nat)} {zero : Bool}
    (he : PopEffect s t d v) (hc : Classified s i (some d) false false false (-BitVec.ofNat 64 (w / 8)) rd wr zero)
    (hp : i ≠ .parar) : InstrFrame i s t := by
  obtain ⟨-, hsp, hpc, hregs, hfl, -, hio, hrun, -⟩ := he
  obtain ⟨hd, -, hi, -, hst, -⟩ := hc
  exact ⟨hp, hrun, fun _ => hpc, hsp.trans (by rw [hst, BitVec.sub_eq_add_neg]), fun _ => hfl, hregs.of_destination hd,
    fun _ => hio, by simp [hi]⟩

/-- A floating-point write is a data transfer of some pattern of the width (R264). -/
theorem State.fpWrite_effect (s : State) (f : FpFormat) (w : Nat) (d : RegId) (out : FpOut) (h0 : 0 < w) (h : w ≤ 64) :
    ∃ r : BitVec w, MoveEffect s (s.fpWrite f w d out) d r := by
  obtain ⟨v, -, he⟩ | ⟨-, he⟩ := s.fpWrite_cases f w d out <;> rw [he]
  · exact ⟨_, s.writeSized_effect d _ h0 h⟩
  · exact ⟨_, s.drawn.writeSized_effect d _ h0 h⟩

/-- A jump assigns `pc` and nothing else, whether it is taken or not (R110). -/
theorem State.jumpIf_frame {i : Instr} (s : State) (c : Bool) (k : Imm48) {rd wr : Option (Word × Nat)} {zero : Bool}
    (hc : Classified s i none false false true 0#64 rd wr zero) (hp : i ≠ .parar) :
    InstrFrame i s (s.jumpIf c k) := by
  obtain ⟨-, -, hi, hpc, hst, -⟩ := hc
  have hsp (t : State) (h : t.sp = s.sp) : t.sp = s.sp + i.spStep := by simp [h, hst]
  cases c
  · exact ⟨hp, rfl, by simp [hpc], hsp s.advance rfl, fun _ => ⟨rfl, rfl⟩, fun _ _ => rfl, fun _ => ⟨fun _ => rfl, rfl⟩,
      by simp [hi]⟩
  · exact ⟨hp, rfl, by simp [hpc], hsp (s.jumpTo _) rfl, fun _ => ⟨rfl, rfl⟩, fun _ _ => rfl,
      fun _ => ⟨fun _ => rfl, rfl⟩, by simp [hi]⟩

/-- An I/O instruction reaches a state u that differs from s in `IO` and its destination alone, emits one event and goes
on (R177 to R182). -/
theorem emit_frame {i : Instr} {s u : State} {e : Event} (hp : i ≠ .parar) (hi : i.isIo = true)
    (hst : i.spStep = 0#64)
    (hu : u.run = s.run ∧ u.pc = s.pc ∧ u.sp = s.sp ∧ FlagsKept s u ∧ u.trace = s.trace)
    (hregs : ∀ r, i.destination ≠ some r → u.reg r = s.reg r) : InstrFrame i s (u.emit e).advance := by
  obtain ⟨hrun, hupc, hsp, hfl, htrace⟩ := hu
  exact ⟨hp, hrun, fun _ => by simp [hupc], by simp [hsp, hst], fun _ => hfl, hregs, by simp [hi],
    fun _ => ⟨e, by simp [htrace]⟩⟩

/-- The widths of `Memoria` accesses are widths of a register. -/
theorem pos_and_le_of_mem_widths {w : Nat} (hm : w ∈ [8, 16, 32, 64]) : 0 < w ∧ w ≤ 64 := by
  simp only [List.mem_cons, List.not_mem_nil, or_false] at hm
  omega

/-- i ends at s in t by raising a fault, and nothing else; it is then neither PARAR nor an I/O instruction (R302). -/
def RaisesFault (i : Instr) (s t : State) : Prop := i ≠ .parar ∧ i.isIo = false ∧ ∃ f, t = s.raise f

theorem Classified.raisesFault {i : Instr} {s t : State} {dest : Option RegId} {flags pc zero : Bool} {sp : Word}
    {rd wr : Option (Word × Nat)} {f : Fault} (hc : Classified s i dest flags false pc sp rd wr zero)
    (hp : i ≠ .parar) (ht : t = s.raise f) : RaisesFault i s t := by
  obtain ⟨-, -, hi, -⟩ := hc
  exact ⟨hp, hi, f, ht⟩

/-- All an instruction can do: PARAR halts; any other raises a fault and changes nothing else, or completes within its
frame. -/
theorem Shape.outcome {i : Instr} {s t : State} (hs : Shape s i t) :
    (i = .parar ∧ t = s.halt) ∨ RaisesFault i s t ∨ InstrFrame i s t := by
  cases hs with
  | halt => exact .inl ⟨rfl, rfl⟩
  | nop =>
    exact .inr (.inr ⟨by simp, rfl, fun _ => rfl, (BitVec.add_zero _).symm, fun _ => ⟨rfl, rfl⟩, fun _ _ => rfl,
      fun _ => ⟨fun _ => rfl, rfl⟩, nofun⟩)
  | jump c k hc hp => exact .inr (.inr (s.jumpIf_frame c k hc hp))
  | alu d r h0 hw hc hp => exact .inr (.inr ((s.aluResult_effect d r h0 hw).frame hc hp))
  | divideByZero d hc hp => exact .inr (.inl (hc.raisesFault hp rfl))
  | compare d b hc hp => exact .inr (.inr ((s.compare_effect d b).frame hc hp))
  | move d r h0 hw hc hp => exact .inr (.inr ((s.writeSized_effect d r h0 hw).frame hc hp))
  | fp f w d out h0 hw hc hp =>
    obtain ⟨r, he⟩ := s.fpWrite_effect f w d out h0 hw
    exact .inr (.inr (he.frame hc hp))
  | load w d a hm hc hp =>
    obtain ⟨h0, hw⟩ := pos_and_le_of_mem_widths hm
    obtain ⟨-, he⟩ | ⟨-, he⟩ := s.loadInto_cases w d a
    · exact .inr (.inr (he ▸ (s.writeSized_effect d _ h0 hw).frame hc hp))
    · exact .inr (.inl (hc.raisesFault hp he))
  | store a v hm hc hp =>
    obtain ⟨hin, -⟩ | ⟨-, he⟩ := s.storeTo_cases a v
    · exact .inr (.inr ((s.storeTo_effect a v hin).frame hc hp))
    · exact .inr (.inl (hc.raisesFault hp he))
  | push v hm hc hp =>
    obtain ⟨hin, -⟩ | ⟨-, he⟩ := s.push_cases v
    · exact .inr (.inr ((s.push_effect v hin).frame hc hp))
    · exact .inr (.inl (hc.raisesFault hp he))
  | pop w d hm hc hp =>
    obtain ⟨h0, hw⟩ := pos_and_le_of_mem_widths hm
    obtain ⟨hin, -⟩ | ⟨-, he⟩ := s.popInto_cases w d
    · exact .inr (.inr ((s.popInto_effect w d h0 hw hin).frame hc hp))
    · exact .inr (.inl (hc.raisesFault hp he))
  | ret =>
    obtain ⟨-, he⟩ | ⟨-, he⟩ := s.popPc_cases
    · rw [he]
      exact .inr (.inr ⟨by simp, rfl, nofun, BitVec.sub_eq_add_neg _ _, fun _ => ⟨rfl, rfl⟩, fun _ _ => rfl,
        fun _ => ⟨fun _ => rfl, rfl⟩, nofun⟩)
    · exact .inr (.inl ⟨by simp, rfl, _, he⟩)
  | svio rd a =>
    exact .inr (.inr (emit_frame (by simp) rfl rfl ⟨rfl, rfl, rfl, ⟨rfl, rfl⟩, rfl⟩ fun _ _ => rfl))
  | loadio rd a =>
    have hothers : OtherRegsKept rd s ((s.ioReadState (cell44 a)).setReg rd (s.ioReadValue (cell44 a))) :=
      fun r hr => by simp [State.reg_setReg_ne _ _ hr]
    exact .inr (.inr (emit_frame (by simp) rfl rfl (by simp [FlagsKept]) (hothers.of_destination rfl)))
  | showio k =>
    exact .inr (.inr (emit_frame (by simp) rfl rfl ⟨rfl, rfl, rfl, ⟨rfl, rfl⟩, rfl⟩ fun _ _ => rfl))
  | clrio =>
    exact .inr (.inr (emit_frame (by simp) rfl rfl ⟨rfl, rfl, rfl, ⟨rfl, rfl⟩, rfl⟩ fun _ _ => rfl))
  | resetio =>
    exact .inr (.inr (emit_frame (by simp) rfl rfl ⟨rfl, rfl, rfl, ⟨rfl, rfl⟩, rfl⟩ fun _ _ => rfl))

/-- All `exec` can do, by `Shape.outcome`. -/
theorem exec_outcome {i : Instr} {s t : State} (h : exec i s = .next t) :
    (i = .parar ∧ t = s.halt) ∨ RaisesFault i s t ∨ InstrFrame i s t := (exec_shape h).outcome

/-! ## What a step can do (R26) -/

theorem step_of_fetch_ok {s : State} {i : Instr} (hr : s.run = .running) (hf : fetchInstr s = .ok i) :
    step s = exec i s := by
  obtain ⟨j, hj, hstep⟩ | ⟨f, hj, -⟩ := step_running hr
  · obtain rfl : j = i := Except.ok.inj (hj.symm.trans hf)
    exact hstep
  · exact nomatch hj.symm.trans hf

theorem step_of_fetch_error {s : State} {f : Fault} (hr : s.run = .running) (hf : fetchInstr s = .error f) :
    step s = .next (s.raise f) := by
  obtain ⟨j, hj, -⟩ | ⟨g, hj, hstep⟩ := step_running hr
  · exact nomatch hj.symm.trans hf
  · obtain rfl : g = f := Except.error.inj (hj.symm.trans hf)
    exact hstep

/-- A step that answers a next state ran the fetched instruction, raised the fault of the fetch, or kept the state of a
halted machine. -/
theorem step_next_cases {s t : State} (h : step s = .next t) :
    (∃ i, s.run = .running ∧ fetchInstr s = .ok i ∧ exec i s = .next t) ∨
    (∃ f, s.run = .running ∧ t = s.raise f) ∨ (s.run = .halted ∧ t = s) := by
  cases hr : s.run with
  | running =>
    obtain ⟨i, hf, hstep⟩ | ⟨f, -, hstep⟩ := step_running hr
    · exact .inl ⟨i, rfl, hf, hstep.symm.trans h⟩
    · exact .inr (.inl ⟨f, rfl, Host.Outcome.next.inj (h.symm.trans hstep)⟩)
  | halted => exact .inr (.inr ⟨rfl, Host.Outcome.next.inj (h.symm.trans (step_halted hr))⟩)
  | faulted f => exact nomatch h.symm.trans (step_faulted hr)

/-! ## The fetch, case by case (R304) -/

theorem fetchInstr_misaligned {s : State} (ha : s.pc.toNat % 8 ≠ 0) :
    fetchInstr s = .error (.fetchFault s.pc .misaligned) := by
  obtain ⟨-, hf⟩ | ⟨h, -⟩ | ⟨h, -⟩ | ⟨h, -⟩ := fetchInstr_cases s
  · exact hf
  all_goals exact absurd h ha

theorem fetchInstr_outOfRange {s : State} (ha : s.pc.toNat % 8 = 0) (hm : ¬InMemory s s.pc 8) :
    fetchInstr s = .error (.fetchFault s.pc .outOfRange) := by
  obtain ⟨h, -⟩ | ⟨-, -, hf⟩ | ⟨-, h, -⟩ | ⟨-, h, -⟩ := fetchInstr_cases s
  · exact absurd ha h
  · exact hf
  all_goals exact absurd h hm

theorem fetchInstr_illegal {s : State} (ha : s.pc.toNat % 8 = 0) (hm : InMemory s s.pc 8)
    (hd : ∀ i, s.decodeWord s.fetchWord ≠ .ok i) :
    fetchInstr s = .error (.illegalInstruction s.pc s.fetchWord) := by
  obtain ⟨h, -⟩ | ⟨-, h, -⟩ | ⟨-, -, -, -, hf⟩ | ⟨-, -, i, hi, -⟩ := fetchInstr_cases s
  · exact absurd ha h
  · exact absurd hm (Nat.not_le.2 h)
  · exact hf
  · exact absurd hi (hd i)

theorem fetchInstr_of_fetches {s : State} {i : Instr} (h : Fetches s i) : fetchInstr s = .ok i := by
  obtain ⟨-, ha, hm, hd⟩ := h
  obtain ⟨h, -⟩ | ⟨-, h, -⟩ | ⟨-, -, e, he, -⟩ | ⟨-, -, j, hj, hf⟩ := fetchInstr_cases s
  · exact absurd ha h
  · exact absurd hm (Nat.not_le.2 h)
  · exact nomatch he.symm.trans hd
  · obtain rfl : j = i := Except.ok.inj (hj.symm.trans hd)
    exact hf

end Sys2Proof.Machine
end

section
/-! The statements of 10_state.md: fetch and step, the stopped machine, reset, the frames, and the canonical form. -/

namespace Sys2Proof.Machine

/-! ## The canonical form of the two spaces (R35, R175) -/

/-- Settles O20: by the cases of the step; an instruction keeps the invariant by its shape. -/
theorem stepKeepsCanonicalMemoryAndIo : Obligations.StepKeepsCanonicalMemoryAndIo := by
  intro s t hinv h
  obtain ⟨i, -, -, hex⟩ | ⟨f, -, rfl⟩ | ⟨-, rfl⟩ := step_next_cases h
  · exact (exec_shape hex).keeps_stateInv hinv
  · exact hinv.raise f
  · exact hinv

/-! ## Fetch and step (R26, R304) -/

/-- Settles O12: each clause is one case of the fetch. -/
theorem fetchFaultsInPriorityOrder : Obligations.FetchFaultsInPriorityOrder := fun _ hr =>
  ⟨fun ha => step_of_fetch_error hr (fetchInstr_misaligned ha),
    fun ha hm => step_of_fetch_error hr (fetchInstr_outOfRange ha hm),
    fun ha hm hd => step_of_fetch_error hr (fetchInstr_illegal ha hm hd)⟩

/-- Settles O11: the fetch answers the instruction, and the step runs it. -/
theorem stepRunsTheDecodedInstruction : Obligations.StepRunsTheDecodedInstruction :=
  fun _ _ h => step_of_fetch_ok h.1 (fetchInstr_of_fetches h)

/-! ## The stopped machine (R33) -/

/-- A halted machine keeps its state, by induction on the number of steps. -/
theorem run_of_halted {s : State} (h : s.run = .halted) (k : Nat) : Sys2Proof.core.run k s = .next s := by
  induction k with
  | zero => rfl
  | succ k ih => exact (run_next Sys2Proof.core k s s (step_halted h)).trans ih

/-- Settles O14. -/
theorem stoppedMachineStaysStopped : Obligations.StoppedMachineStaysStopped := fun s k =>
  ⟨fun h => run_of_halted h k, fun f h => run_fault Sys2Proof.core k s f (step_faulted h)⟩

/-! ## Reset (R39) -/

/-- Reset leaves a reset state, for any parameters, any image and any of the unspecified values. -/
theorem resetState_resetWith (p : Params) (image : Memory) (regs : Vector Word 16) (z n : Bool) (k : Nat) :
    ResetState (State.resetWith p image regs z n k) := ⟨rfl, rfl, rfl, fun _ => rfl, rfl⟩

/-- Reset meets the memory invariant whenever the image does: every I/O cell is 0. -/
theorem stateInv_resetWith {p : Params} {image : Memory} (h : Memory.wf p.memSize image = true)
    (regs : Vector Word 16) (z n : Bool) (k : Nat) : StateInv (State.resetWith p image regs z n k) := ⟨h, rfl⟩

/-- Settles O18: `State.reset` is the reset with the standard parameters and an empty image. -/
theorem resetMeetsTheInvariants : Obligations.ResetMeetsTheInvariants :=
  ⟨stateInv_resetWith rfl _ _ _ _, trivial, resetState_resetWith _ _ _ _ _ _⟩

/-- Settles O19: the specified values by `resetState_resetWith`, the others are those given. -/
theorem resetGivesTheValuesOfR39 : Obligations.ResetGivesTheValuesOfR39 := by
  intro p image regs z n k
  obtain ⟨hpc, hsp, hrun, hio, htrace⟩ := resetState_resetWith p image regs z n k
  exact ⟨_, rfl, rfl, hpc, hsp, hrun, hio, htrace, fun _ => rfl, fun _ => rfl, rfl, rfl⟩

/-! ## The frames (R21, R25, R27, R31, R36, R314) -/

/-- A completed instruction of a running machine leaves it running. -/
theorem InstrFrame.running {i : Instr} {s t : State} (h : InstrFrame i s t) (hr : s.run = .running) :
    t.run = .running := h.run.trans hr

/-- Settles O15: PARAR and a fault stop the machine and keep `pc`; a completed instruction advances it. -/
theorem nextInstructionIsEightBytesOn : Obligations.NextInstructionIsEightBytesOn := by
  intro i s t h hr
  obtain ⟨-, rfl⟩ | ⟨-, -, f, rfl⟩ | hframe := exec_outcome h
  · exact ⟨nofun, fun _ => rfl⟩
  · exact ⟨nofun, fun _ => rfl⟩
  · exact ⟨fun _ => hframe.pc, fun hstop => absurd (hframe.running hr) hstop⟩

/-- Settles O25: PARAR and a fault stop the machine and keep `SP`; a completed instruction moves it by its step. -/
theorem onlyStackInstructionsMoveSp : Obligations.OnlyStackInstructionsMoveSp := by
  intro i s t h hr
  obtain ⟨-, rfl⟩ | ⟨-, -, f, rfl⟩ | hframe := exec_outcome h
  · exact ⟨nofun, fun _ => rfl⟩
  · exact ⟨nofun, fun _ => rfl⟩
  · exact ⟨fun _ => hframe.sp, fun hstop => absurd (hframe.running hr) hstop⟩

/-- Settles O24: neither PARAR nor a fault touches the flags. -/
theorem onlyListedInstructionsWriteFlags : Obligations.OnlyListedInstructionsWriteFlags := by
  intro i s t h hf
  obtain ⟨-, rfl⟩ | ⟨-, -, f, rfl⟩ | hframe := exec_outcome h
  · exact ⟨rfl, rfl⟩
  · exact ⟨rfl, rfl⟩
  · exact hframe.flags hf

/-- Settles O27: neither PARAR nor a fault touches a register. -/
theorem onlyTheDestinationRegisterChanges : Obligations.OnlyTheDestinationRegisterChanges := by
  intro i s t h r hr
  obtain ⟨-, rfl⟩ | ⟨-, -, f, rfl⟩ | hframe := exec_outcome h
  · rfl
  · rfl
  · exact hframe.regs r hr

/-- An I/O instruction appends one event; no other instruction reaches `IO` or the trace (R36, R37). -/
theorem exec_trace_and_io {i : Instr} {s t : State} (h : exec i s = .next t) :
    (i.isIo = true → ∃ e, t.trace = s.trace ++ [e]) ∧ (i.isIo = false → IoKept s t) := by
  obtain ⟨rfl, rfl⟩ | ⟨-, hi, f, rfl⟩ | hframe := exec_outcome h
  · exact ⟨nofun, fun _ => ⟨fun _ => rfl, rfl⟩⟩
  · exact ⟨fun h => (nomatch hi.symm.trans h), fun _ => ⟨fun _ => rfl, rfl⟩⟩
  · exact ⟨hframe.event, hframe.io⟩

/-- A step appends at most one event: that of an I/O instruction. -/
theorem step_trace {s t : State} (h : step s = .next t) : ∃ es, t.trace = s.trace ++ es ∧ es.length ≤ 1 := by
  obtain ⟨i, -, -, hex⟩ | ⟨f, -, rfl⟩ | ⟨-, rfl⟩ := step_next_cases h
  · obtain ⟨hevent, hkept⟩ := exec_trace_and_io hex
    cases hi : i.isIo with
    | true =>
      obtain ⟨e, he⟩ := hevent hi
      exact ⟨[e], he, le_rfl⟩
    | false => exact ⟨[], by simp [(hkept hi).2], Nat.zero_le 1⟩
  · exact ⟨[], by simp, Nat.zero_le 1⟩
  · exact ⟨[], by simp, Nat.zero_le 1⟩

/-- Settles O23. -/
theorem onlyIoInstructionsReachIo : Obligations.OnlyIoInstructionsReachIo :=
  ⟨fun _ _ _ h => exec_trace_and_io h, fun _ _ h => step_trace h⟩

/-- Only PARAR ends in `Halted`: a fault ends in `Faulted`, and a completed instruction leaves the machine running. -/
theorem exec_halted_iff {i : Instr} {s t : State} (h : exec i s = .next t) (hr : s.run = .running) :
    t.run = .halted ↔ i = .parar := by
  obtain ⟨hi, rfl⟩ | ⟨hi, -, f, rfl⟩ | hframe := exec_outcome h
  · exact ⟨fun _ => hi, fun _ => rfl⟩
  · exact ⟨nofun, fun he => absurd he hi⟩
  · exact ⟨fun hh => (nomatch hh.symm.trans (hframe.running hr)), fun he => absurd he hframe.not_parar⟩

/-- Settles O30: the halting step ran an instruction, which `exec_halted_iff` says is PARAR. -/
theorem onlyPararHalts : Obligations.OnlyPararHalts := by
  refine ⟨fun i s t h hr => exec_halted_iff h hr, fun s t hr h hh => ?_⟩
  obtain ⟨i, -, hf, hex⟩ | ⟨f, -, rfl⟩ | ⟨hstop, -⟩ := step_next_cases h
  · obtain rfl := (exec_halted_iff hex hr).1 hh
    exact ⟨hf, (Host.Outcome.next.inj hex).symm⟩
  · exact nomatch hh
  · exact nomatch hr.symm.trans hstop

/-- Settles O32: the two words are the rows of PARAR and NOP with a zero field. -/
theorem pararHaltsAndNopAdvances : Obligations.PararHaltsAndNopAdvances :=
  ⟨fun alu8 strict => decode_encodeOP (rowOf_assigned rfl alu8) strict, rfl,
    fun alu8 strict => decode_encodeOP (rowOf_assigned rfl alu8) strict, rfl,
    fun _ => ⟨rfl, step_halted rfl, rfl⟩⟩

end Sys2Proof.Machine
end

section
/-! The flags of a compare (R166): the sign of the wrapped difference against the order of the operands. -/

namespace Sys2Proof.Machine

variable {w : Nat}

/-- The two halves of the signed reading (R8). -/
theorem sval_cases (v : BitVec w) :
    (v.toNat < 2 ^ (w - 1) ∧ sval v = v.toNat) ∨ (2 ^ (w - 1) ≤ v.toNat ∧ sval v = v.toNat - 2 ^ w) := by
  have hm : v.getLsbD (w - 1) = decide (2 ^ (w - 1) ≤ v.toNat) := by
    rw [← BitVec.msb_eq_getLsbD_last, BitVec.msb_eq_decide]
  unfold sval uval
  by_cases h : 2 ^ (w - 1) ≤ v.toNat
  · exact .inr ⟨h, by simp [hm, h]⟩
  · exact .inl ⟨Nat.lt_of_not_le h, by simp [hm, h]⟩

/-- The wrapped difference is the true one, or the true one plus 2^w. -/
theorem toNat_sub_cases (a b : BitVec w) :
    (b.toNat ≤ a.toNat ∧ (a - b).toNat = a.toNat - b.toNat) ∨
    (a.toNat < b.toNat ∧ (a - b).toNat = 2 ^ w + a.toNat - b.toNat) := by
  rcases Nat.lt_or_ge a.toNat b.toNat with h | h
  · refine .inr ⟨h, ?_⟩
    have ha := a.isLt
    have hb := b.isLt
    rw [BitVec.toNat_sub, Nat.mod_eq_of_lt (by omega)]
    omega
  · exact .inl ⟨h, BitVec.toNat_sub_of_le h⟩

/-- Half the modulus as one number, in the naturals and in the integers, for linear arithmetic. -/
theorem exists_half_modulus (h0 : 0 < w) :
    ∃ p : Nat, 2 ^ (w - 1) = p ∧ 2 ^ w = 2 * p ∧ (2 : Int) ^ (w - 1) = p ∧ (2 : Int) ^ w = 2 * p := by
  have hw : 2 ^ w = 2 * 2 ^ (w - 1) := by rw [Nat.mul_comm, Nat.two_pow_pred_mul_two h0]
  exact ⟨2 ^ (w - 1), rfl, hw, by push_cast; rfl, by exact_mod_cast hw⟩

/-- The sign of the wrapped difference, by the wrapped difference itself. -/
theorem msb_sub_iff (a b : BitVec w) : (a - b).msb = true ↔ 2 ^ (w - 1) ≤ (a - b).toNat := by
  rw [BitVec.msb_eq_decide, decide_eq_true_iff]

/-- The sign of the wrapped difference is the signed order exactly when the true difference fits in w bits. -/
theorem msb_sub_iff_sval_lt_iff (h0 : 0 < w) (a b : BitVec w) :
    ((a - b).msb = true ↔ sval a < sval b) ↔
      (-(2 ^ (w - 1)) ≤ sval a - sval b ∧ sval a - sval b < 2 ^ (w - 1)) := by
  obtain ⟨p, hp, hm, hpi, hmi⟩ := exists_half_modulus h0
  have ha := a.isLt
  have hb := b.isLt
  have hsa := sval_cases a
  have hsb := sval_cases b
  rw [msb_sub_iff, hp, hpi]
  rw [hm] at ha hb
  rw [hp, hmi] at hsa hsb
  obtain ⟨hle, hd⟩ | ⟨hle, hd⟩ := toNat_sub_cases a b
  · omega
  · rw [hm] at hd
    omega

/-- The sign of the wrapped difference is the unsigned order when the operands are close. -/
theorem msb_sub_iff_uval_lt (h0 : 0 < w) (a b : BitVec w) (h : |uval a - uval b| < 2 ^ (w - 1)) :
    (a - b).msb = true ↔ uval a < uval b := by
  obtain ⟨p, hp, hm, hpi, -⟩ := exists_half_modulus h0
  rw [hpi] at h
  obtain ⟨hlow, hhigh⟩ := abs_lt.1 h
  rw [msb_sub_iff, hp]
  unfold uval at *
  obtain ⟨hle, hd⟩ | ⟨hle, hd⟩ := toNat_sub_cases a b
  · omega
  · rw [hm] at hd
    omega

/-- A compare at any positive width tells equality and order as R166 says. -/
theorem State.compare_orders {i : Instr} (s : State) (d : RegId) (b : BitVec w) (h0 : 0 < w)
    (h : exec i s = .next (s.compare d b)) : CompareOrders i s (s.lo w d) b := by
  have hz : (s.compare d b).z = decide (s.lo w d - b = 0#w) := by simp [State.compare]
  have hn : (s.compare d b).n = (s.lo w d - b).msb := by simp [State.compare]
  refine ⟨_, h, ?_, ?_, ?_, ?_⟩
  · rw [hz, decide_eq_true_iff, BitVec.sub_eq_iff_eq_add, BitVec.zero_add]
  · rintro rfl
    rw [hn]
    simp
  · rw [hn]
    exact msb_sub_iff_sval_lt_iff h0 _ _
  · rw [hn]
    exact msb_sub_iff_uval_lt h0 _ _

/-- A compare of whole registers: its operand is the register. -/
theorem State.compare_orders_reg {i : Instr} (s : State) (d : RegId) (b : Word)
    (h : exec i s = .next (s.compare d b)) : CompareOrders i s (s.reg d) b := by
  simpa [State.lo] using s.compare_orders d b (by decide) h

/-- `immv(8)` is the field widened by `IMM_EXT` (R89). -/
theorem State.imm_64 (s : State) (v : Imm44) : s.imm 64 v = DataImm8 s v := by
  unfold State.imm immv DataImm8
  cases s.params.immExt
  · rfl
  · rfl

/-- `immv(n)` below 8 bytes is the low bits of the field (R89). -/
theorem State.imm_of_le (s : State) (v : Imm44) (hw : w ≤ 44) : s.imm w v = v.extractLsb' 0 w := by
  unfold State.imm immv
  rw [if_neg (by omega), BitVec.setWidth_eq_extractLsb' hw]

/-- Settles O48: each compare is `State.compare` at its width with its operand. -/
theorem compareFlagsTellEqualityAndOrder : Obligations.CompareFlagsTellEqualityAndOrder := by
  intro s rd rs v
  have hlo : s.lo 64 rs = s.reg rs := by simp [State.lo]
  refine ⟨?_, ?_, ?_, ?_, ?_, ?_, ?_, ?_, ?_, ?_⟩
  · exact hlo ▸ s.compare_orders_reg rd (s.lo 64 rs) rfl
  · exact s.compare_orders rd (s.lo 8 rs) (by decide) rfl
  · exact s.compare_orders rd (s.lo 16 rs) (by decide) rfl
  · exact s.compare_orders rd (s.lo 32 rs) (by decide) rfl
  · exact hlo ▸ s.compare_orders_reg rd (s.lo 64 rs) rfl
  · exact s.imm_64 v ▸ s.compare_orders_reg rd (s.imm 64 v) rfl
  · exact s.imm_of_le (w := 8) v (by decide) ▸ s.compare_orders rd (s.imm 8 v) (by decide) rfl
  · exact s.imm_of_le (w := 16) v (by decide) ▸ s.compare_orders rd (s.imm 16 v) (by decide) rfl
  · exact s.imm_of_le (w := 32) v (by decide) ▸ s.compare_orders rd (s.imm 32 v) (by decide) rfl
  · exact s.imm_64 v ▸ s.compare_orders_reg rd (s.imm 64 v) rfl

end Sys2Proof.Machine
end

section
/-! What a read, a write and the fetch do in terms of single bytes (R52 to R56). -/

namespace Sys2Proof.Machine

variable {w : Nat}

/-! ## Whole registers -/

@[simp] theorem State.lo_64 (s : State) (r : RegId) : s.lo 64 r = s.reg r := by simp [State.lo]

/-! ## A value and its bytes (R53, R54) -/

theorem eight_dvd_of_mem_widths (hm : w ∈ [8, 16, 32, 64]) : 8 ∣ w := by
  simp only [List.mem_cons, List.not_mem_nil, or_false] at hm
  omega

/-- The value at a has the bytes of `Memoria` from a upward, at every width of whole bytes. -/
theorem State.bytesAt_valueAt (s : State) (a : Word) (h8 : 8 ∣ w) : BytesAt s a (s.valueAt w a) := by
  obtain ⟨n, rfl⟩ := h8
  exact s.valueAt_bytes n a

/-- The value stored at a is the value there, at every width of whole bytes. -/
theorem State.valueAt_storeAt_self (s : State) (a : Word) (v : BitVec w) (h8 : 8 ∣ w) :
    (s.storeAt a v).valueAt w a = v := by
  obtain ⟨n, rfl⟩ := h8
  exact s.valueAt_storeAt a n v

theorem BytesAt.byteAt_little {s : State} {a : Word} {v : BitVec w} {i : Nat} (h : BytesAt s a v)
    (he : s.params.endian = .little) (hi : i < w / 8) : s.byteAt (a.toNat + i) = v.extractLsb' (8 * i) 8 := by
  have hb := h i hi
  rwa [he] at hb

theorem BytesAt.byteAt_big {s : State} {a : Word} {v : BitVec w} {i : Nat} (h : BytesAt s a v)
    (he : s.params.endian = .big) (hi : i < w / 8) :
    s.byteAt (a.toNat + i) = v.extractLsb' (8 * (w / 8 - 1 - i)) 8 := by
  have hb := h i hi
  rwa [he] at hb

/-- Two values with the same whole bytes are equal. -/
theorem eq_of_bytes_eq {u v : BitVec w} (h8 : 8 ∣ w)
    (h : ∀ i, i < w / 8 → u.extractLsb' (8 * i) 8 = v.extractLsb' (8 * i) 8) : u = v := by
  apply BitVec.eq_of_getLsbD_eq
  intro b hb
  have hbit := congrArg (fun x : BitVec 8 => x.getLsbD (b % 8)) (h (b / 8) (by omega))
  simpa [BitVec.getLsbD_extractLsb', Nat.mod_lt, Nat.div_add_mod] using hbit

/-- The bytes at a determine the value there. -/
theorem BytesAt.valueAt_eq {s : State} {a : Word} {v : BitVec w} (h : BytesAt s a v) (h8 : 8 ∣ w) :
    s.valueAt w a = v := by
  have hv := s.bytesAt_valueAt a h8
  refine eq_of_bytes_eq h8 fun i hi => ?_
  cases he : s.params.endian with
  | little => exact (hv.byteAt_little he hi).symm.trans (h.byteAt_little he hi)
  | big =>
    have hj : w / 8 - 1 - i < w / 8 := by omega
    have hbytes := (hv.byteAt_big he hj).symm.trans (h.byteAt_big he hj)
    rwa [show w / 8 - 1 - (w / 8 - 1 - i) = i by omega] at hbytes

/-- A part of a part is a part: the starts add up. -/
theorem extractLsb'_of_part (v : BitVec w) (p : Nat) {q j n : Nat} (h : j + n ≤ q) :
    (v.extractLsb' p q).extractLsb' j n = v.extractLsb' (p + j) n := by
  apply BitVec.eq_of_getLsbD_eq
  intro b hb
  simp [hb, show j + b < q by omega, Nat.add_assoc]

/-- The m bytes that stand k bytes above a, in the value at a: counted from its low end under `little`. -/
theorem BytesAt.part_little {s : State} {a b : Word} {v : BitVec w} {k m : Nat} (h : BytesAt s a v)
    (he : s.params.endian = .little) (hb : b.toNat = a.toNat + k) (hk : k + m ≤ w / 8) :
    BytesAt s b (v.extractLsb' (8 * k) (8 * m)) := by
  intro i hi
  have hbyte := h.byteAt_little he (i := k + i) (by omega)
  rw [Nat.mul_add, ← extractLsb'_of_part v (8 * k) (q := 8 * m) (by omega)] at hbyte
  rw [he, hb, Nat.add_assoc]
  exact hbyte

/-- The m bytes that stand k bytes above a, in the value at a: counted from its high end under `big`. -/
theorem BytesAt.part_big {s : State} {a b : Word} {v : BitVec w} {k m : Nat} (h : BytesAt s a v)
    (he : s.params.endian = .big) (hb : b.toNat = a.toNat + k) (hk : k + m ≤ w / 8) :
    BytesAt s b (v.extractLsb' (8 * (w / 8 - k - m)) (8 * m)) := by
  intro i hi
  have hbyte := h.byteAt_big he (i := k + i) (by omega)
  have hstart : 8 * (w / 8 - k - m) + 8 * (8 * m / 8 - 1 - i) = 8 * (w / 8 - 1 - (k + i)) := by omega
  rw [← hstart, ← extractLsb'_of_part v _ (q := 8 * m) (by omega)] at hbyte
  rw [he, hb, Nat.add_assoc]
  exact hbyte

/-! ## `MemRead` and `MemWrite` (R52 to R54) -/

theorem State.memRead_inside {s : State} {a : Word} (h : InMemory s a (w / 8)) :
    s.memRead w a = .ok (s.valueAt w a) := by
  obtain ⟨-, he⟩ | ⟨hout, -⟩ := s.memRead_cases w a
  · exact he
  · exact absurd h (Nat.not_le.2 hout)

theorem State.memRead_outside {s : State} {a : Word} (h : ¬InMemory s a (w / 8)) :
    s.memRead w a = .error (.memoryFault a (w / 8) .read) := by
  obtain ⟨hin, -⟩ | ⟨-, he⟩ := s.memRead_cases w a
  · exact absurd hin h
  · exact he

theorem State.memWrite_inside {s : State} {a : Word} {v : BitVec w} (h : InMemory s a (w / 8)) :
    s.memWrite a v = .ok (s.storeAt a v) := by
  obtain ⟨-, he⟩ | ⟨hout, -⟩ := s.memWrite_cases a v
  · exact he
  · exact absurd h (Nat.not_le.2 hout)

theorem State.memWrite_outside {s : State} {a : Word} {v : BitVec w} (h : ¬InMemory s a (w / 8)) :
    s.memWrite a v = .error (.memoryFault a (w / 8) .write) := by
  obtain ⟨hin, -⟩ | ⟨-, he⟩ := s.memWrite_cases a v
  · exact absurd hin h
  · exact he

/-- A write that answers a state was inside, and stored. -/
theorem State.memWrite_eq_ok {s t : State} {a : Word} {v : BitVec w} (h : s.memWrite a v = .ok t) :
    InMemory s a (w / 8) ∧ t = s.storeAt a v := by
  obtain ⟨hin, he⟩ | ⟨-, he⟩ := s.memWrite_cases a v
  · exact ⟨hin, Except.ok.inj (h.symm.trans he)⟩
  · exact nomatch h.symm.trans he

/-- A read inside gives the value whose bytes stand there. -/
theorem BytesAt.memRead_eq {s : State} {a : Word} {v : BitVec w} (h : BytesAt s a v) (h8 : 8 ∣ w)
    (hin : InMemory s a (w / 8)) : s.memRead w a = .ok v := by
  rw [State.memRead_inside hin, h.valueAt_eq h8]

/-- A read of bytes that a store does not reach answers what it answered before, fault or value. -/
theorem State.memRead_storeAt_outside (s : State) (a b : Word) (v : BitVec w) (k : Nat)
    (h : b.toNat + k / 8 ≤ a.toNat ∨ a.toNat + w / 8 ≤ b.toNat) : (s.storeAt a v).memRead k b = s.memRead k b := by
  unfold State.memRead
  rw [s.valueAt_storeAt_outside a b v k h]
  rfl

/-! ## Placed and stored words at the fetch (R56, R66) -/

theorem State.fetchWord_placeWord (s : State) (v : Word) : (s.placeWord v).fetchWord = v :=
  s.valueAt_storeAt_self s.pc v (by decide)

theorem State.storeTo_inside {s : State} {a : Word} {v : BitVec w} (h : InMemory s a (w / 8)) :
    s.storeTo a v = (s.storeAt a v).advance := by
  obtain ⟨-, he⟩ | ⟨hout, -⟩ := s.storeTo_cases a v
  · exact he
  · exact absurd h (Nat.not_le.2 hout)

/-- A word stored at the address of the next instruction is the word fetched there. -/
theorem State.fetchWord_storeAt_advance (s : State) (v : Word) :
    (s.storeAt (s.pc + 8#64) v).advance.fetchWord = v :=
  s.valueAt_storeAt_self (s.pc + 8#64) v (by decide)

end Sys2Proof.Machine
end

section
/-! What an instruction may fault for and which bytes it leaves alone, by the cases of `Shape`. -/

namespace Sys2Proof.Machine

variable {w n : Nat} {i : Instr} {s t : State} {a : Word} {f : Fault} {dest : Option RegId} {flags io pc zero : Bool}
  {sp : Word} {rd wr : Option (Word × Nat)}

/-! ## The causes of a fault at execution (R302) -/

/-- f is the fault i raises at s: of its read, of its write, or of its zero divisor. -/
def FaultCause (s : State) (i : Instr) (f : Fault) : Prop :=
  (∃ a n, readAccess s i = some (a, n) ∧ ¬InMemory s a n ∧ f = .memoryFault a n .read) ∨
  (∃ a n, writeAccess s i = some (a, n) ∧ ¬InMemory s a n ∧ f = .memoryFault a n .write) ∨
  (zeroDivisor s i = true ∧ f = .divideByZero s.pc)

theorem Classified.not_faultCause (hc : Classified s i dest flags io pc sp none none false) : ¬FaultCause s i f := by
  obtain ⟨-, -, -, -, -, hr, hw, hz⟩ := hc
  simp [FaultCause, hr, hw, hz]

theorem Classified.faultCause_read_iff (hc : Classified s i dest flags io pc sp (some (a, n)) none false) :
    FaultCause s i f ↔ ¬InMemory s a n ∧ f = .memoryFault a n .read := by
  obtain ⟨-, -, -, -, -, hr, hw, hz⟩ := hc
  simp [FaultCause, hr, hw, hz]

theorem Classified.faultCause_write_iff (hc : Classified s i dest flags io pc sp none (some (a, n)) false) :
    FaultCause s i f ↔ ¬InMemory s a n ∧ f = .memoryFault a n .write := by
  obtain ⟨-, -, -, -, -, hr, hw, hz⟩ := hc
  simp [FaultCause, hr, hw, hz]

theorem Classified.faultCause_zero_iff (hc : Classified s i dest flags io pc sp none none true) :
    FaultCause s i f ↔ f = .divideByZero s.pc := by
  obtain ⟨-, -, -, -, -, hr, hw, hz⟩ := hc
  simp [FaultCause, hr, hw, hz]

/-! ## The bytes an instruction may store to (R51, R54, R58) -/

/-- From s to t no byte changed but those of the write access of i. -/
def StoresOnlyItsAccess (i : Instr) (s t : State) : Prop :=
  (writeAccess s i = none → BytesKept s t) ∧ ∀ a n, writeAccess s i = some (a, n) → BytesKeptOutside a n s t

theorem BytesKept.storesOnlyItsAccess (h : BytesKept s t) : StoresOnlyItsAccess i s t :=
  ⟨fun _ => h, fun _ _ _ k _ => h k⟩

theorem BytesKeptOutside.storesOnlyItsAccess (h : BytesKeptOutside a n s t)
    (hc : Classified s i dest flags io pc sp rd (some (a, n)) zero) : StoresOnlyItsAccess i s t := by
  obtain ⟨-, -, -, -, -, -, hw, -⟩ := hc
  refine ⟨fun hn => (nomatch hn.symm.trans hw), fun b m he => ?_⟩
  obtain ⟨rfl, rfl⟩ : a = b ∧ n = m := by simpa using hw.symm.trans he
  exact h

/-! ## How an instruction ends (R302, R303) -/

/-- i ends in the one fault it has a cause for, and changes nothing else. -/
def Faults (i : Instr) (s t : State) : Prop := ∃ f, (∀ g, FaultCause s i g ↔ g = f) ∧ t = s.raise f

/-- i ends without a fault, having no cause for one: the parameters are kept, and every byte outside its write access. -/
structure EndsWithoutFault (i : Instr) (s t : State) : Prop where
  no_cause : ∀ f, ¬FaultCause s i f
  run : t.run = s.run ∨ t.run = .halted
  params : t.params = s.params
  bytes : StoresOnlyItsAccess i s t

theorem AluEffect.memory_kept {d : RegId} {r : BitVec w} (h : AluEffect s t d r) :
    BytesKept s t ∧ ControlKept s t := by
  obtain ⟨-, -, -, -, -, hb, -, hk⟩ := h
  exact ⟨hb, hk⟩

theorem MoveEffect.memory_kept {d : RegId} {r : BitVec w} (h : MoveEffect s t d r) :
    BytesKept s t ∧ ControlKept s t := by
  obtain ⟨-, -, -, -, -, hb, -, hk⟩ := h
  exact ⟨hb, hk⟩

theorem CompareEffect.memory_kept {r : BitVec w} (h : CompareEffect s t r) : BytesKept s t ∧ ControlKept s t := by
  obtain ⟨-, -, -, -, hb, -, hk⟩ := h
  exact ⟨hb, hk⟩

theorem PopEffect.memory_kept {d : RegId} {v : BitVec w} (h : PopEffect s t d v) :
    BytesKept s t ∧ ControlKept s t := by
  obtain ⟨-, -, -, -, -, hb, -, hk⟩ := h
  exact ⟨hb, hk⟩

theorem State.jumpIf_memory_kept (s : State) (c : Bool) (k : Imm48) :
    BytesKept s (s.jumpIf c k) ∧ ControlKept s (s.jumpIf c k) := by
  obtain ⟨-, he⟩ | ⟨-, he⟩ := s.jumpIf_cases c k <;> rw [he]
  · exact ⟨fun _ => rfl, rfl, rfl⟩
  · exact ⟨fun _ => rfl, rfl, rfl⟩

/-- An instruction without an access or a zero divisor has no cause for a fault. -/
theorem Classified.ends_of_kept (hc : Classified s i dest flags io pc sp none none false)
    (h : BytesKept s t ∧ ControlKept s t) : Faults i s t ∨ EndsWithoutFault i s t := by
  obtain ⟨hb, hrun, hp⟩ := h
  exact .inr ⟨fun _ => hc.not_faultCause, .inl hrun, hp, hb.storesOnlyItsAccess⟩

/-- A read ends without a fault when it is inside, else in its `MemoryFault`. -/
theorem Classified.read_ends (hc : Classified s i dest flags io pc sp (some (a, n)) none false)
    (h : (InMemory s a n ∧ BytesKept s t ∧ ControlKept s t) ∨
      (¬InMemory s a n ∧ t = s.raise (.memoryFault a n .read))) : Faults i s t ∨ EndsWithoutFault i s t := by
  obtain ⟨hin, hb, hrun, hp⟩ | ⟨hout, ht⟩ := h
  · exact .inr ⟨fun f hf => (hc.faultCause_read_iff.1 hf).1 hin, .inl hrun, hp, hb.storesOnlyItsAccess⟩
  · exact .inl ⟨_, fun g => by simp [hc.faultCause_read_iff, hout], ht⟩

/-- A write ends without a fault when it is inside, else in its `MemoryFault`. -/
theorem Classified.write_ends (hc : Classified s i dest flags io pc sp none (some (a, n)) false)
    (h : (InMemory s a n ∧ BytesKeptOutside a n s t ∧ ControlKept s t) ∨
      (¬InMemory s a n ∧ t = s.raise (.memoryFault a n .write))) : Faults i s t ∨ EndsWithoutFault i s t := by
  obtain ⟨hin, hb, hrun, hp⟩ | ⟨hout, ht⟩ := h
  · exact .inr ⟨fun f hf => (hc.faultCause_write_iff.1 hf).1 hin, .inl hrun, hp, hb.storesOnlyItsAccess hc⟩
  · exact .inl ⟨_, fun g => by simp [hc.faultCause_write_iff, hout], ht⟩

/-- An instruction ends in the one fault it has a cause for, or has none and stores to its write access alone. -/
theorem Shape.ends (hs : Shape s i t) : Faults i s t ∨ EndsWithoutFault i s t := by
  cases hs with
  | halt =>
    exact .inr ⟨fun _ => Classified.not_faultCause classified_rfl, .inr rfl, rfl,
      BytesKept.storesOnlyItsAccess fun _ => rfl⟩
  | nop => exact Classified.ends_of_kept classified_rfl ⟨fun _ => rfl, rfl, rfl⟩
  | jump c k hc => exact hc.ends_of_kept (s.jumpIf_memory_kept c k)
  | alu d r h0 hw hc => exact hc.ends_of_kept (s.aluResult_effect d r h0 hw).memory_kept
  | divideByZero d hc => exact .inl ⟨_, fun _ => hc.faultCause_zero_iff, rfl⟩
  | compare d b hc => exact hc.ends_of_kept (s.compare_effect d b).memory_kept
  | move d r h0 hw hc => exact hc.ends_of_kept (s.writeSized_effect d r h0 hw).memory_kept
  | fp f w d out h0 hw hc =>
    obtain ⟨r, he⟩ := s.fpWrite_effect f w d out h0 hw
    exact hc.ends_of_kept he.memory_kept
  | load w d a hm hc =>
    obtain ⟨h0, hw⟩ := pos_and_le_of_mem_widths hm
    refine hc.read_ends ((s.loadInto_cases w d a).imp (fun ⟨hin, he⟩ => ?_) fun ⟨hout, he⟩ => ⟨Nat.not_le.2 hout, he⟩)
    rw [he]
    exact ⟨hin, (s.writeSized_effect d (s.valueAt w a) h0 hw).memory_kept⟩
  | store a v hm hc =>
    refine hc.write_ends ((s.storeTo_cases a v).imp (fun ⟨hin, _⟩ => ?_) fun ⟨hout, he⟩ => ⟨Nat.not_le.2 hout, he⟩)
    obtain ⟨-, hb, -, -, -, -, -, hk⟩ := s.storeTo_effect a v hin
    exact ⟨hin, hb, hk⟩
  | push v hm hc =>
    refine hc.write_ends ((s.push_cases v).imp (fun ⟨hin, _⟩ => ?_) fun ⟨hout, he⟩ => ⟨Nat.not_le.2 hout, he⟩)
    obtain ⟨-, hb, -, -, -, -, -, hk⟩ := s.push_effect v hin
    exact ⟨hin, hb, hk⟩
  | pop w d hm hc =>
    obtain ⟨h0, hw⟩ := pos_and_le_of_mem_widths hm
    refine hc.read_ends ((s.popInto_cases w d).imp (fun ⟨hin, _⟩ => ?_) fun ⟨hout, he⟩ => ⟨Nat.not_le.2 hout, he⟩)
    exact ⟨hin, (s.popInto_effect w d h0 hw hin).memory_kept⟩
  | ret =>
    refine Classified.read_ends classified_rfl (s.popPc_cases.imp (fun ⟨hin, he⟩ => ?_)
      fun ⟨hout, he⟩ => ⟨Nat.not_le.2 hout, he⟩)
    rw [he]
    exact ⟨hin, fun _ => rfl, rfl, rfl⟩
  | svio rd a => exact Classified.ends_of_kept classified_rfl ⟨fun _ => rfl, rfl, rfl⟩
  | loadio rd a =>
    exact Classified.ends_of_kept classified_rfl ⟨by simp [BytesKept], by simp [ControlKept]⟩
  | showio k => exact Classified.ends_of_kept classified_rfl ⟨fun _ => rfl, rfl, rfl⟩
  | clrio => exact Classified.ends_of_kept classified_rfl ⟨fun _ => rfl, rfl, rfl⟩
  | resetio => exact Classified.ends_of_kept classified_rfl ⟨fun _ => rfl, rfl, rfl⟩

/-- All `exec` can do to `Memoria`, the parameters and the run state, by `Shape.ends`. -/
theorem exec_ends (h : exec i s = .next t) : Faults i s t ∨ EndsWithoutFault i s t := (exec_shape h).ends

end Sys2Proof.Machine
end

section
/-! The stack is `Memoria` (R61, R286): what a push stores is what stands at the old `SP`. -/

namespace Sys2Proof.Machine

variable {w : Nat}

theorem State.push_inside {s : State} {v : BitVec w} (h : InMemory s s.sp (w / 8)) :
    s.push v = ((s.storeAt s.sp v).setSp (s.sp + BitVec.ofNat 64 (w / 8))).advance := by
  obtain ⟨-, he⟩ | ⟨hout, -⟩ := s.push_cases v
  · exact he
  · exact absurd h (Nat.not_le.2 hout)

/-- After a push inside, the value stands at the old `SP`, which is inside and where a pop of the same size reads; the
registers are kept. -/
theorem State.push_top {s : State} (v : BitVec w) (h8 : 8 ∣ w) (hin : InMemory s s.sp (w / 8)) :
    (s.push v).popAddr w = s.sp ∧ (s.push v).valueAt w s.sp = v ∧ InMemory (s.push v) s.sp (w / 8) ∧
      RegsKept s (s.push v) := by
  rw [State.push_inside hin]
  exact ⟨BitVec.add_sub_cancel _ _, s.valueAt_storeAt_self s.sp v h8, hin, fun _ => rfl⟩

/-- A pop of the size of the push gives the value back and restores `SP` (R286). -/
theorem State.popInto_push {s : State} (v : BitVec w) (d : RegId) (hm : w ∈ [8, 16, 32, 64])
    (hin : InMemory s s.sp (w / 8)) :
    ((s.push v).popInto w d).lo w d = v ∧ ((s.push v).popInto w d).sp = s.sp := by
  obtain ⟨h0, hw⟩ := pos_and_le_of_mem_widths hm
  obtain ⟨haddr, hval, hin', -⟩ := State.push_top v (eight_dvd_of_mem_widths hm) hin
  obtain ⟨⟨hlow, -⟩, hsp, -⟩ := (s.push v).popInto_effect w d h0 hw (by rw [haddr]; exact hin')
  rw [haddr, hval] at hlow
  exact ⟨hlow, hsp.trans haddr⟩

/-- `RET` after a push of 8 bytes jumps to the value pushed and restores `SP` (R285, R295). -/
theorem State.popPc_push {s : State} (v : Word) (hin : InMemory s s.sp 8) :
    (s.push v).popPc.pc = v ∧ (s.push v).popPc.sp = s.sp := by
  obtain ⟨haddr, hval, hin', -⟩ := State.push_top v (by decide) hin
  obtain ⟨-, he⟩ | ⟨hout, -⟩ := (s.push v).popPc_cases
  · rw [he, haddr]
    exact ⟨hval, rfl⟩
  · rw [haddr] at hout
    exact absurd hin' (Nat.not_le.2 hout)

/-- A load of 8 bytes at the old `SP` reads what was pushed: `Stack[a]` is `Memoria[a]` (R61). -/
theorem State.loadInto_push {s : State} (v : Word) (d : RegId) (hin : InMemory s s.sp 8) :
    ((s.push v).loadInto 64 d s.sp).reg d = v := by
  obtain ⟨-, hval, hin', -⟩ := State.push_top v (by decide) hin
  obtain ⟨-, he⟩ | ⟨hout, -⟩ := (s.push v).loadInto_cases 64 d s.sp
  · simp [he, hval]
  · exact absurd hin' (Nat.not_le.2 hout)

end Sys2Proof.Machine
end

section
/-! The statements of 20_memory.md: reads and writes by bytes, the fetch, what every instruction keeps and faults for, and the
stack. -/

namespace Sys2Proof.Machine

/-! ## Reads, writes and the fetch (R53 to R56, R66) -/

/-- Settles O8: the value at a has the bytes of `Memoria`, read off from its end by `ENDIAN`. -/
theorem memReadAssemblesBytes : Obligations.MemReadAssemblesBytes := by
  intro s a w hm
  refine ⟨State.memRead_outside, fun hin => ⟨s.valueAt w a, State.memRead_inside hin, fun i hi => ?_⟩⟩
  have hbytes := s.bytesAt_valueAt a (eight_dvd_of_mem_widths hm)
  cases he : s.params.endian with
  | little => exact (hbytes.byteAt_little he hi).symm
  | big =>
    have hbyte := hbytes.byteAt_big he (i := w / 8 - 1 - i) (by omega)
    rw [show w / 8 - 1 - (w / 8 - 1 - i) = i by omega] at hbyte
    exact hbyte.symm

/-- Settles O9: a write inside is `State.storeAt`, which touches `Memoria` alone. -/
theorem memWriteStoresBytes : Obligations.MemWriteStoresBytes := by
  intro s a w v _
  refine ⟨State.memWrite_outside, fun hin => ⟨s.storeAt a v, State.memWrite_inside hin, ?_⟩⟩
  exact ⟨s.storeAt_stored a v, s.storeAt_outside a v, rfl, fun _ => rfl, ⟨rfl, rfl⟩, rfl, ⟨fun _ => rfl, rfl⟩, rfl, rfl⟩

/-- Settles O10: each narrower read is of a part of the stored bytes. -/
theorem mixedWidthReadAfterWrite : Obligations.MixedWidthReadAfterWrite := by
  intro s t a b v h
  obtain ⟨hin, rfl⟩ := State.memWrite_eq_ok h
  have hin8 : a.toNat + 8 ≤ s.params.memSize := hin
  have hbytes := s.storeAt_stored a v
  refine ⟨hbytes.memRead_eq (by decide) hin, ?_, fun hwrap => ?_, s.memRead_storeAt_outside a b v 64⟩
  · have hin1 : InMemory (s.storeAt a v) a 1 := Nat.le_trans (by omega) hin8
    cases he : s.params.endian with
    | little => exact (hbytes.part_little he (k := 0) (m := 1) rfl (by decide)).memRead_eq (by decide) hin1
    | big => exact (hbytes.part_big he (k := 0) (m := 1) rfl (by decide)).memRead_eq (by decide) hin1
  · have hb : (a + 4#64).toNat = a.toNat + 4 := by
      rw [BitVec.toNat_add]
      exact Nat.mod_eq_of_lt hwrap
    have hin4 : InMemory (s.storeAt a v) (a + 4#64) 4 := by
      unfold InMemory
      rw [hb]
      exact hin8
    cases he : s.params.endian with
    | little => exact (hbytes.part_little he (m := 4) hb (by decide)).memRead_eq (by decide) hin4
    | big => exact (hbytes.part_big he (m := 4) hb (by decide)).memRead_eq (by decide) hin4

/-- Settles O7: the fetched word is the value of the 8 bytes at `pc`. -/
theorem fetchAssemblesTheWordByEndian : Obligations.FetchAssemblesTheWordByEndian := by
  intro s
  have hbytes : BytesAt s s.pc s.fetchWord := s.bytesAt_valueAt s.pc (by decide)
  exact ⟨hbytes, State.memRead_inside (w := 64), fun hr ha hm => step_of_fetch_error hr (fetchInstr_outOfRange ha hm)⟩

/-- Settles O16: the placed word is the one fetched. -/
theorem placedWordIsTheNextInstruction : Obligations.PlacedWordIsTheNextInstruction := by
  intro s v i hr ha hm hd
  have hword : (s.placeWord v).decodeWord (s.placeWord v).fetchWord = .ok i := by
    rw [s.fetchWord_placeWord, placeWord_decodeWord, hd]
  exact stepRunsTheDecodedInstruction _ _ ⟨hr, ha, hm, hword⟩

/-- Settles O17: the store completes at the next instruction, whose fetch reads the stored word. -/
theorem storedInstructionIsFetched : Obligations.StoredInstructionIsFetched := by
  intro s rd rs i hr ha hal hm hd
  have hstore : exec (.storer8 rd rs) s = .next (s.storeAt (s.reg rs) (s.reg rd)).advance := by
    rw [← State.storeTo_inside hm, ← s.lo_64 rd]
    rfl
  rw [ha] at hstore hal hm
  refine ⟨_, hstore, stepRunsTheDecodedInstruction _ _ ⟨hr, hal, hm, ?_⟩⟩
  rw [s.fetchWord_storeAt_advance]
  exact (decodeWord_of_params rfl _).trans hd

/-! ## What every step keeps, and the faults (R51, R54, R55, R302) -/

/-- Settles O26: a fault changes no byte; else the bytes outside the write access are kept. -/
theorem onlyStoresChangeMemory : Obligations.OnlyStoresChangeMemory := by
  intro i s t h
  obtain ⟨f, -, rfl⟩ | hends := exec_ends h
  · exact BytesKept.storesOnlyItsAccess fun _ => rfl
  · exact hends.bytes

/-- Settles O22: by the cases of the step; a fault writes the run state alone. -/
theorem parametersNeverChange : Obligations.ParametersNeverChange := by
  intro s t h
  obtain ⟨i, -, -, hex⟩ | ⟨f, -, rfl⟩ | ⟨-, rfl⟩ := step_next_cases h
  · obtain ⟨f, -, rfl⟩ | hends := exec_ends hex
    · rfl
    · exact hends.params
  · rfl
  · rfl

/-- Settles O29: an instruction ends in the one fault it has a cause for, or has no cause and does not end in a fault. -/
theorem executeFaultsAreExactlyThese : Obligations.ExecuteFaultsAreExactlyThese := by
  intro i s t f h hr
  obtain ⟨g, hcause, rfl⟩ | hends := exec_ends h
  · have hrun : (s.raise g).run = .faulted f ↔ f = g := by simp [eq_comm]
    exact hrun.trans (hcause f).symm
  · have hrun : t.run ≠ .faulted f := by
      obtain hkept | hhalted := hends.run
      · simp [hkept, hr]
      · simp [hhalted]
    exact ⟨fun hf => absurd hf hrun, fun hf => absurd hf (hends.no_cause f)⟩

/-! ## The stack is `Memoria` (R61, R286) -/

/-- Settles O59: each pop, RET and load reads the value the push left at the old `SP`. -/
theorem pushThenPopRestores : Obligations.PushThenPopRestores := by
  intro s ra rb rc
  refine ⟨fun h => ⟨_, _, rfl, rfl, State.popInto_push _ rb (by decide) h⟩,
    fun h => ⟨_, _, rfl, rfl, State.popInto_push _ rb (by decide) h⟩,
    fun h => ⟨_, _, rfl, rfl, State.popInto_push _ rb (by decide) h⟩, fun h => ⟨_, _, rfl, rfl, ?_⟩,
    fun h => ⟨_, _, rfl, rfl, ?_⟩, fun h hrc => ⟨_, _, rfl, rfl, ?_⟩⟩
  · simpa using State.popInto_push (s.lo 64 ra) rb (by decide) h
  · simpa using State.popPc_push (s.lo 64 ra) h
  · obtain ⟨-, -, -, hregs⟩ := State.push_top (s.lo 64 ra) (by decide) h
    rw [hregs rc, hrc, State.loadInto_push _ rb h, s.lo_64]

end Sys2Proof.Machine
end

section
/-! The decoder against the encoder (R92): a row reads an instruction from a word, and the encoder gives that instruction the
same word with the row's zero field cleared. -/

namespace Sys2Proof

open Sys2Proof.Machine (zeroFieldMask SameOperands SpelledR SpelledRR SpelledRI)

variable {alu8 : Option Alu8Opcodes} {op : Opcode} {row : Row} {w : Word} {i : Instr}

/-! ## What a row reads (R82 to R86, R95) -/

/-- The instruction that a row's fields make in a word, the zero field left aside. -/
def Row.instrOf : Row → Word → Instr
  | .op make, _ => make
  | .r make, w => make (rdHighOf w)
  | .rr make, w => make (rdLowOf w) (rsOf w)
  | .ri make, w => make (rdHighOf w) (imm44Of w)
  | .i make, w => make (imm48Of w)

/-- Without the zero-field check a row gives its instruction for every word. -/
theorem Row.decode_false (row : Row) (w : Word) : row.decode false w = .ok (row.instrOf w) := by
  cases row <;> rfl

/-- With the check it gives the same instruction when the zero field is zero. -/
theorem Row.decode_of_zeroFieldIsZero (h : Laws.ZeroFieldIsZero row w) (strict : Bool) :
    row.decode strict w = .ok (row.instrOf w) := by
  cases row <;> simp_all [Row.decode, Row.instrOf, checkZeros, Laws.ZeroFieldIsZero]

/-- With the check it refuses every other word, by the name of the zero field. -/
theorem Row.decode_true_of_nonzero (h : ¬Laws.ZeroFieldIsZero row w) :
    row.decode true w = .error .nonzeroZeroField := by
  cases row <;> simp_all [Row.decode, checkZeros, Laws.ZeroFieldIsZero]

theorem decode_of_rowOf (h : rowOf alu8 (opcodeOf w) = some row) (strict : Bool) :
    decode alu8 strict w = row.decode strict w := by simp [decode, h]

theorem decode_of_rowOf_none (h : rowOf alu8 (opcodeOf w) = none) (strict : Bool) :
    decode alu8 strict w = .error .unassignedOpcode := by simp [decode, h]

/-- A word decodes without the zero-field check exactly to what the row of its opcode makes of it. -/
theorem decode_false_iff :
    decode alu8 false w = .ok i ↔ ∃ row, rowOf alu8 (opcodeOf w) = some row ∧ row.instrOf w = i := by
  cases h : rowOf alu8 (opcodeOf w) with
  | none => simp [decode_of_rowOf_none h]
  | some row => simp [decode_of_rowOf h, row.decode_false]

/-- The zero-field check refuses words; it changes no instruction. -/
theorem decode_false_of_decode {strict : Bool} (h : decode alu8 strict w = .ok i) : decode alu8 false w = .ok i := by
  cases hrow : rowOf alu8 (opcodeOf w) with
  | none => exact nomatch h.symm.trans (decode_of_rowOf_none hrow strict)
  | some row =>
    rw [decode_of_rowOf hrow] at h ⊢
    cases strict with
    | false => exact h
    | true =>
      by_cases hz : Laws.ZeroFieldIsZero row w
      · rw [row.decode_false, ← h, Row.decode_of_zeroFieldIsZero hz]
      · exact nomatch h.symm.trans (Row.decode_true_of_nonzero hz)

/-! ## A word with its zero field cleared -/

/-- A word with the bits that a row's format draws as 0 cleared. -/
def Row.cleared (row : Row) (w : Word) : Word := w &&& ~~~zeroFieldMask row

theorem Row.cleared_op (make : Instr) (w : Word) : (Row.op make).cleared w = encodeOP (opcodeOf w) := by
  have hmask : ~~~zeroFieldMask (.op make) = BitVec.allOnes 16 ++ 0#48 :=
    (by decide : ~~~0x0000FFFFFFFFFFFF#64 = _)
  apply BitVec.eq_of_getLsbD_eq
  intro b hb
  simp only [Row.cleared, hmask, encodeOP, opcodeOf, BitVec.getLsbD_and, BitVec.getLsbD_append,
    BitVec.getLsbD_extractLsb', BitVec.getLsbD_allOnes]
  grind

theorem Row.cleared_r (make : RegId → Instr) (w : Word) :
    (Row.r make).cleared w = encodeR (opcodeOf w) (rdHighOf w) := by
  have hmask : ~~~zeroFieldMask (.r make) = BitVec.allOnes 20 ++ 0#44 :=
    (by decide : ~~~0x00000FFFFFFFFFFF#64 = _)
  apply BitVec.eq_of_getLsbD_eq
  intro b hb
  simp only [Row.cleared, hmask, encodeR, opcodeOf, rdHighOf, BitVec.getLsbD_and, BitVec.getLsbD_append,
    BitVec.getLsbD_extractLsb', BitVec.getLsbD_allOnes]
  grind

theorem Row.cleared_rr (make : RegId → RegId → Instr) (w : Word) :
    (Row.rr make).cleared w = encodeRR (opcodeOf w) (rdLowOf w) (rsOf w) := by
  have hmask : ~~~zeroFieldMask (.rr make) = BitVec.allOnes 16 ++ 0#40 ++ BitVec.allOnes 8 :=
    (by decide : ~~~0x0000FFFFFFFFFF00#64 = _)
  apply BitVec.eq_of_getLsbD_eq
  intro b hb
  simp only [Row.cleared, hmask, encodeRR, opcodeOf, rdLowOf, rsOf, BitVec.getLsbD_and, BitVec.getLsbD_append,
    BitVec.getLsbD_extractLsb', BitVec.getLsbD_allOnes]
  grind

theorem Row.cleared_ri (make : RegId → Imm44 → Instr) (w : Word) :
    (Row.ri make).cleared w = encodeRI (opcodeOf w) (rdHighOf w) (imm44Of w) := by
  have hmask : ~~~zeroFieldMask (.ri make) = BitVec.allOnes 64 := (by decide : ~~~0#64 = _)
  rw [← eq_encodeRI, Row.cleared, hmask, BitVec.and_allOnes]

theorem Row.cleared_i (make : Imm48 → Instr) (w : Word) : (Row.i make).cleared w = encodeI (opcodeOf w) (imm48Of w) := by
  have hmask : ~~~zeroFieldMask (.i make) = BitVec.allOnes 64 := (by decide : ~~~0#64 = _)
  rw [← eq_encodeI, Row.cleared, hmask, BitVec.and_allOnes]

/-- Clearing the zero field changes neither the opcode nor an operand, and leaves the field zero. -/
theorem Row.cleared_fields (row : Row) (w : Word) :
    opcodeOf (row.cleared w) = opcodeOf w ∧ SameOperands row (row.cleared w) w ∧
      Laws.ZeroFieldIsZero row (row.cleared w) := by
  cases row with
  | op make => simp [Row.cleared_op, SameOperands, Laws.ZeroFieldIsZero]
  | r make => simp [Row.cleared_r, SameOperands, Laws.ZeroFieldIsZero]
  | rr make => simp [Row.cleared_rr, SameOperands, Laws.ZeroFieldIsZero]
  | ri make => simp [Row.cleared_ri, SameOperands, Laws.ZeroFieldIsZero]
  | i make => simp [Row.cleared_i, SameOperands, Laws.ZeroFieldIsZero]

/-- A word whose zero field is zero is unchanged by clearing it. -/
theorem Row.cleared_eq_self (h : Laws.ZeroFieldIsZero row w) : row.cleared w = w := by
  cases row with
  | op make => exact (Row.cleared_op make w).trans (eq_encodeOP h).symm
  | r make => exact (Row.cleared_r make w).trans (eq_encodeR h).symm
  | rr make => exact (Row.cleared_rr make w).trans (eq_encodeRR h).symm
  | ri make => exact (Row.cleared_ri make w).trans (eq_encodeRI w).symm
  | i make => exact (Row.cleared_i make w).trans (eq_encodeI w).symm

/-- A row makes one instruction of two words with the same operands. -/
theorem Row.instrOf_congr {v : Word} (h : SameOperands row v w) : row.instrOf v = row.instrOf w := by
  cases row <;> simp_all [SameOperands, Row.instrOf]

/-! ## The word of what a row reads (R92) -/

/-- The encoder gives what a row makes the row's opcode, in the row's format, for all operands. -/
def Row.Spells (alu8 : Option Alu8Opcodes) (op : Opcode) : Row → Prop
  | .op make => encode alu8 make = some (encodeOP op)
  | .r make => ∀ rd, encode alu8 (make rd) = some (encodeR op rd)
  | .rr make => ∀ rd rs, encode alu8 (make rd rs) = some (encodeRR op rd rs)
  | .ri make => ∀ rd v, encode alu8 (make rd v) = some (encodeRI op rd v)
  | .i make => ∀ k, encode alu8 (make k) = some (encodeI op k)

/-- The 113 rows of R93, each by the encoder's arm for the instruction it makes. -/
theorem opcodeRows_spell : ∀ p ∈ opcodeRows, p.2.Spells alu8 p.1 := by
  simp only [opcodeRows, rowsBase, rowsAlu1, rowsAlu2, rowsAlu4, rowsMov, rowsLoad, rowsStore, rowsFpu, rowsStack,
    List.forall_mem_append, List.forall_mem_cons, List.not_mem_nil, false_implies, implies_true, and_true, Row.Spells]
  and_intros <;> intros <;> rfl

/-- The seven supplied rows, whatever their opcodes. -/
theorem alu8Rows_spell (alu8 : Option Alu8Opcodes) : ∀ p ∈ alu8Rows alu8, p.2.Spells alu8 p.1 := by
  cases alu8 with
  | none => nofun
  | some o =>
    simp only [alu8Rows, List.forall_mem_cons, Row.Spells]
    exact ⟨fun _ _ => rfl, fun _ _ => rfl, fun _ _ => rfl, fun _ _ => rfl, fun _ _ => rfl, fun _ _ => rfl,
      fun _ _ => rfl, nofun⟩

theorem spells_of_rowOf (h : rowOf alu8 op = some row) : row.Spells alu8 op := by
  obtain ⟨before, after, hrows, -⟩ := List.lookup_eq_some_iff.1 h
  have hmem : (op, row) ∈ opcodeRows ++ alu8Rows alu8 := hrows ▸ List.mem_append_right before List.mem_cons_self
  obtain hp | hp := List.mem_append.1 hmem
  · exact opcodeRows_spell _ hp
  · exact alu8Rows_spell alu8 _ hp

/-- What the row of a word's opcode makes of the word is encoded as the word with its zero field cleared. -/
theorem encode_instrOf (h : rowOf alu8 (opcodeOf w) = some row) :
    encode alu8 (row.instrOf w) = some (row.cleared w) := by
  have hs := spells_of_rowOf h
  cases row with
  | op make => exact Row.cleared_op make w ▸ hs
  | r make => exact Row.cleared_r make w ▸ hs _
  | rr make => exact Row.cleared_rr make w ▸ hs _ _
  | ri make => exact Row.cleared_ri make w ▸ hs _ _
  | i make => exact Row.cleared_i make w ▸ hs _

/-- A word whose zero field is zero is the word of the instruction it decodes to. -/
theorem encode_of_zeroFieldIsZero (h : rowOf alu8 (opcodeOf w) = some row) (hz : Laws.ZeroFieldIsZero row w) :
    encode alu8 (row.instrOf w) = some w := by rw [encode_instrOf h, Row.cleared_eq_self hz]

/-! ## The rows of the table as spellings (R82 to R86, R93) -/

theorem spelledR_of_row {make : RegId → Instr} (h : opcodeRows.lookup op = some (.r make)) : SpelledR op make :=
  fun alu8 strict rd => decode_encodeR (rowOf_assigned h alu8) strict rd

theorem spelledRR_of_row {make : RegId → RegId → Instr} (h : opcodeRows.lookup op = some (.rr make)) :
    SpelledRR op make := fun alu8 strict rd rs => decode_encodeRR (rowOf_assigned h alu8) strict rd rs

theorem spelledRI_of_row {make : RegId → Imm44 → Instr} (h : opcodeRows.lookup op = some (.ri make)) :
    SpelledRI op make := fun alu8 strict rd v => decode_encodeRI (rowOf_assigned h alu8) strict rd v

end Sys2Proof
end

section
/-! The statements of 30_encoding.md. -/

namespace Sys2Proof

open Sys2Proof.Machine

/-! ## Encode, then decode (R92, R93, R97) -/

/-- A row of R93 is encoded, under every `ALU8_OPCODES`, and its word decodes to it. -/
theorem decode_encode_of_wellFormed (alu8 : Option Alu8Opcodes) {i : Instr} (h : i.wellFormed = true) :
    ∃ w, encode alu8 i = some w ∧ ∀ strict, decode alu8 strict w = .ok i := by
  cases i with
  | parar | nop | clrio | resetio | ret => exact ⟨_, rfl, decode_encodeOP (rowOf_assigned rfl alu8)⟩
  | inc rd | dec rd | not rd | shl rd | shr rd | clear rd | fsqrt4 rd | fsqrt8 rd | fsin4 rd | fcos4 rd | fsin8 rd
  | fcos8 rd | pop1 rd | pop2 rd | pop4 rd | pop8 rd | push1 rd | push2 rd | push4 rd | push8 rd =>
    exact ⟨_, rfl, fun strict => decode_encodeR (rowOf_assigned rfl alu8) strict rd⟩
  | add rd rs | sub rd rs | muls rd rs | mul rd rs | div rd rs | and rd rs | or rd rs | xor rd rs | store rd rs
  | cmp rd rs | add1 rd rs | sub1 rd rs | mul1 rd rs | muls1 rd rs | div1 rd rs | add2 rd rs | sub2 rd rs | mul2 rd rs
  | muls2 rd rs | div2 rd rs | add4 rd rs | sub4 rd rs | mul4 rd rs | muls4 rd rs | div4 rd rs | mov1 rd rs
  | mov2 rd rs | mov4 rd rs | mov8 rd rs | loadr1 rd rs | loadr2 rd rs | loadr4 rd rs | loadr8 rd rs | storer1 rd rs
  | storer2 rd rs | storer4 rd rs | storer8 rd rs | fadd4 rd rs | fsub4 rd rs | fmul4 rd rs | fdiv4 rd rs
  | fadd8 rd rs | fsub8 rd rs | fmul8 rd rs | fdiv8 rd rs | cmp1 rd rs | cmp2 rd rs | cmp4 rd rs | cmp8 rd rs =>
    exact ⟨_, rfl, fun strict => decode_encodeRR (rowOf_assigned rfl alu8) strict rd rs⟩
  | addv rd v | subv rd v | andv rd v | orv rd v | xorv rd v | load rd v | loadv rd v | storev rd v | cmpv rd v
  | svio rd v | loadio rd v | addv1 rd v | subv1 rd v | addv2 rd v | subv2 rd v | addv4 rd v | subv4 rd v | movv1 rd v
  | movv2 rd v | movv4 rd v | movv8 rd v | load1 rd v | load2 rd v | load4 rd v | load8 rd v | store1 rd v
  | store2 rd v | store4 rd v | store8 rd v | cmpv1 rd v | cmpv2 rd v | cmpv4 rd v | cmpv8 rd v =>
    exact ⟨_, rfl, fun strict => decode_encodeRI (rowOf_assigned rfl alu8) strict rd v⟩
  | jmp k | jeq k | jne k | jmi k | jpl k | showio k =>
    exact ⟨_, rfl, fun strict => decode_encodeI (rowOf_assigned rfl alu8) strict k⟩
  | add8 | sub8 | mul8 | muls8 | div8 | addv8 | subv8 => exact nomatch h

/-- Seven legal opcodes give the seven 8-byte mnemonics words that decode to them. -/
theorem decode_encode_of_supplied {o : Alu8Opcodes} (ho : o.wellFormed = true) {i : Instr} (h : i.wellFormed = false) :
    ∃ w, encode (some o) i = some w ∧ ∀ strict, decode (some o) strict w = .ok i := by
  obtain ⟨hadd, hsub, hmul, hmuls, hdiv, haddv, hsubv⟩ := rowOf_supplied ho
  cases i with
  | add8 rd rs => exact ⟨_, rfl, fun strict => decode_encodeRR hadd strict rd rs⟩
  | sub8 rd rs => exact ⟨_, rfl, fun strict => decode_encodeRR hsub strict rd rs⟩
  | mul8 rd rs => exact ⟨_, rfl, fun strict => decode_encodeRR hmul strict rd rs⟩
  | muls8 rd rs => exact ⟨_, rfl, fun strict => decode_encodeRR hmuls strict rd rs⟩
  | div8 rd rs => exact ⟨_, rfl, fun strict => decode_encodeRR hdiv strict rd rs⟩
  | addv8 rd v => exact ⟨_, rfl, fun strict => decode_encodeRI haddv strict rd v⟩
  | subv8 rd v => exact ⟨_, rfl, fun strict => decode_encodeRI hsubv strict rd v⟩
  | _ => exact nomatch h

/-- Settles O1: an instruction with a word is a row of R93 or a supplied one. -/
theorem decodeOfEncodeIsTheInstruction : Obligations.DecodeOfEncodeIsTheInstruction := by
  intro alu8 i hlegal hi
  cases h : i.wellFormed with
  | true => exact decode_encode_of_wellFormed alu8 h
  | false =>
    cases alu8 with
    | none => simp [Instr.wellFormedIn, h] at hi
    | some o => exact decode_encode_of_supplied hlegal h

/-! ## Decode, then encode (R92, R94, R95) -/

/-- Settles O2: the strict decoder read the word by a row whose zero field is zero in it. -/
theorem strictDecodeAcceptsOnlyEncodedWords : Obligations.StrictDecodeAcceptsOnlyEncodedWords := by
  intro alu8 w i h
  obtain ⟨row, hrow, rfl⟩ := decode_false_iff.1 (decode_false_of_decode h)
  by_cases hz : Laws.ZeroFieldIsZero row w
  · exact encode_of_zeroFieldIsZero hrow hz
  · rw [decode_of_rowOf hrow, Row.decode_true_of_nonzero hz] at h
    exact nomatch h

/-- Settles O3: the word of what was read is the word read with its zero field cleared. -/
theorem nonStrictDecodeIgnoresOnlyZeroFields : Obligations.NonStrictDecodeIgnoresOnlyZeroFields := by
  intro alu8 w i h
  obtain ⟨row, hrow, rfl⟩ := decode_false_iff.1 h
  obtain ⟨hop, hsame, hzero⟩ := row.cleared_fields w
  have hstrict : decode alu8 true (row.cleared w) = .ok (row.instrOf w) := by
    rw [decode_of_rowOf (hop ▸ hrow), Row.decode_of_zeroFieldIsZero hzero, Row.instrOf_congr hsame]
  refine ⟨row, row.cleared w, hrow, encode_instrOf hrow, rfl, hop, hsame, hstrict, fun hw => ?_, fun hw => ?_⟩
  · rw [← hw] at hstrict
    exact hstrict
  · rw [decode_of_rowOf hrow]
    exact Row.decode_true_of_nonzero fun hz => hw (Row.cleared_eq_self hz).symm

/-! ## The assigned opcodes (R91, R93, R94, R97) -/

/-- The groups of R91 are the opcodes of the decoder's table, in its order. -/
theorem opcodeRows_opcodes : (opcodeRows.map Prod.fst).map BitVec.toNat = assignedOpcodes := rfl

/-- The assigned opcodes are listed in rising order. -/
theorem assignedOpcodes_sorted : assignedOpcodes.Pairwise (· < ·) := by decide

/-- A table of rows has a row for exactly the opcodes in it. -/
theorem exists_lookup_iff_mem (rows : List (Opcode × Row)) (op : Opcode) :
    (∃ row, rows.lookup op = some row) ↔ op ∈ rows.map Prod.fst := by
  simp only [← Option.isSome_iff_exists, List.lookup_isSome_iff, beq_iff_eq, List.mem_map]
  exact exists_congr fun p => and_congr_right fun _ => eq_comm

theorem mem_opcodeRows_iff (op : Opcode) : op ∈ opcodeRows.map Prod.fst ↔ op.toNat ∈ assignedOpcodes := by
  rw [← opcodeRows_opcodes, List.mem_map_of_injective BitVec.toNat_injective]

/-- An opcode has a row of R93 exactly when it is assigned. -/
theorem exists_opcodeRows_lookup_iff (op : Opcode) :
    (∃ row, opcodeRows.lookup op = some row) ↔ op.toNat ∈ assignedOpcodes :=
  (exists_lookup_iff_mem _ op).trans (mem_opcodeRows_iff op)

theorem alu8Rows_opcodes (alu8 : Option Alu8Opcodes) : (alu8Rows alu8).map Prod.fst = suppliedOpcodes alu8 := by
  cases alu8 <;> rfl

/-- An opcode has a row exactly when it is assigned or supplied. -/
theorem exists_rowOf_iff (alu8 : Option Alu8Opcodes) (op : Opcode) :
    (∃ row, rowOf alu8 op = some row) ↔ op.toNat ∈ assignedOpcodes ∨ op ∈ suppliedOpcodes alu8 := by
  rw [rowOf, exists_lookup_iff_mem, List.map_append, List.mem_append, mem_opcodeRows_iff, alu8Rows_opcodes]

/-- A word decodes, the zero field left aside, exactly when its opcode is assigned or supplied. -/
theorem exists_decode_iff (alu8 : Option Alu8Opcodes) (w : Word) :
    (∃ i, decode alu8 false w = .ok i) ↔
      (opcodeOf w).toNat ∈ assignedOpcodes ∨ opcodeOf w ∈ suppliedOpcodes alu8 := by
  rw [← exists_rowOf_iff]
  constructor
  · rintro ⟨i, h⟩
    obtain ⟨row, hrow, -⟩ := decode_false_iff.1 h
    exact ⟨row, hrow⟩
  · rintro ⟨row, hrow⟩
    exact ⟨_, decode_false_iff.2 ⟨row, hrow, rfl⟩⟩

/-- Any other word is refused as unassigned, strict or not. -/
theorem decode_of_not_assigned {alu8 : Option Alu8Opcodes} {w : Word} (ha : (opcodeOf w).toNat ∉ assignedOpcodes)
    (hs : opcodeOf w ∉ suppliedOpcodes alu8) (strict : Bool) : decode alu8 strict w = .error .unassignedOpcode := by
  apply decode_of_rowOf_none
  rw [Option.eq_none_iff_forall_ne_some]
  intro row hrow
  exact ((exists_rowOf_iff alu8 (opcodeOf w)).1 ⟨row, hrow⟩).elim ha hs

/-- Settles O4. -/
theorem exactlyTheAssignedOpcodesDecode : Obligations.ExactlyTheAssignedOpcodesDecode :=
  ⟨rfl, assignedOpcodes_sorted.imp Nat.ne_of_lt,
    fun w => ⟨by simpa [suppliedOpcodes] using exists_decode_iff none w, fun ha => decode_of_not_assigned ha nofun⟩,
    fun o w _ => ⟨exists_decode_iff (some o) w, fun ha hs => decode_of_not_assigned ha hs⟩⟩

/-! ## The 8-byte ALU mnemonics (R97, R207 to R214) -/

/-- By default exactly the instructions of R93 have a word. -/
theorem isSome_encode_none (i : Instr) : (encode none i).isSome = i.wellFormed := by
  cases i <;> rfl

/-- By default the decoder reads only instructions that have a word (`encode_instrOf`). -/
theorem wellFormed_of_decode {strict : Bool} {w : Word} {i : Instr} (h : decode none strict w = .ok i) :
    i.wellFormed = true := by
  obtain ⟨row, hrow, rfl⟩ := decode_false_iff.1 (decode_false_of_decode h)
  rw [← isSome_encode_none, encode_instrOf hrow, Option.isSome_some]

/-- Legal values are distinct and meet no assigned opcode (D19). -/
theorem alu8Opcodes_wellFormed_iff (o : Alu8Opcodes) :
    o.wellFormed = true ↔ o.opcodes.Nodup ∧ ∀ op ∈ o.opcodes, op.toNat ∉ assignedOpcodes := by
  have hfree (op : Opcode) : (opcodeRows.lookup op).isNone = true ↔ op.toNat ∉ assignedOpcodes := by
    rw [← exists_opcodeRows_lookup_iff, ← Option.isSome_iff_exists, Option.not_isSome_iff_eq_none,
      Option.isNone_iff_eq_none]
  simp only [Alu8Opcodes.wellFormed, Bool.and_eq_true, decide_eq_true_eq, List.all_eq_true, hfree]

/-- Settles O5: the seven supplied words are read by the rows of `rowOf_supplied`. -/
theorem eightByteAluIsEncodedOnlyWhereSupplied : Obligations.EightByteAluIsEncodedOnlyWhereSupplied := by
  refine ⟨fun strict w i h => wellFormed_of_decode h, fun rd rs v => ⟨rfl, rfl, rfl, rfl, rfl, rfl, rfl⟩,
    fun i h => ?_, spelledRR_of_row rfl, spelledRR_of_row rfl, spelledRR_of_row rfl, spelledRR_of_row rfl,
    spelledRR_of_row rfl, spelledRI_of_row rfl, spelledRI_of_row rfl,
    fun o => ⟨alu8Opcodes_wellFormed_iff o, fun ho strict rd rs v => ?_⟩⟩
  · rw [← isSome_encode_none] at h
    exact Option.isNone_iff_eq_none.1 (Option.isSome_eq_false_iff.1 h)
  · obtain ⟨hadd, hsub, hmul, hmuls, hdiv, haddv, hsubv⟩ := rowOf_supplied ho
    exact ⟨decode_encodeRR hadd strict rd rs, decode_encodeRR hsub strict rd rs, decode_encodeRR hmul strict rd rs,
      decode_encodeRR hmuls strict rd rs, decode_encodeRR hdiv strict rd rs, decode_encodeRI haddv strict rd v,
      decode_encodeRI hsubv strict rd v⟩

/-! ## Sample words, the all-zero word and the all-ones word (R96) -/

/-- Settles O6: each word by evaluation. -/
theorem sampleWordsDecode : Obligations.SampleWordsDecode :=
  ⟨rfl, rfl, rfl, rfl, rfl, rfl, rfl, rfl, rfl, rfl, rfl, rfl, rfl⟩

/-- The all-zero word is PARAR under every configuration. -/
theorem decode_zero_word (alu8 : Option Alu8Opcodes) (strict : Bool) :
    decode alu8 strict 0x0000000000000000#64 = .ok .parar :=
  decode_encodeOP (op := 0x0000#16) (rowOf_assigned rfl alu8) strict

/-- The all-ones word is refused unless its opcode is supplied. -/
theorem decode_ones_word {alu8 : Option Alu8Opcodes} (h : 0xFFFF#16 ∉ suppliedOpcodes alu8) (strict : Bool) :
    decode alu8 strict 0xFFFFFFFFFFFFFFFF#64 = .error .unassignedOpcode :=
  decode_of_not_assigned (by decide) h strict

/-- Settles O13: the fetched word is PARAR, or is no instruction and the fetch faults. -/
theorem zeroWordHaltsAndOnesWordIsIllegal : Obligations.ZeroWordHaltsAndOnesWordIsIllegal := by
  refine ⟨decode_zero_word, rfl, fun s hr ha hm => ⟨fun hw => ?_, fun hw hs => ?_⟩⟩
  · have hf : Fetches s .parar := ⟨hr, ha, hm, hw ▸ decode_zero_word _ _⟩
    exact stepRunsTheDecodedInstruction s .parar hf
  · have hd : s.decodeWord s.fetchWord = .error .unassignedOpcode := hw ▸ decode_ones_word hs _
    have hf := fetchInstr_illegal ha hm fun i hi => nomatch hd.symm.trans hi
    rw [hw] at hf
    exact step_of_fetch_error hr hf

/-! ## Functional duplicates (R98) -/

theorem encodeRR_ne {op op' : Opcode} (h : op ≠ op') (rd rs : RegId) :
    some (encodeRR op rd rs) ≠ some (encodeRR op' rd rs) := fun he =>
  h (by simpa using congrArg opcodeOf (Option.some.inj he))

theorem encodeRI_ne {op op' : Opcode} (h : op ≠ op') (rd : RegId) (v : Imm44) :
    some (encodeRI op rd v) ≠ some (encodeRI op' rd v) := fun he =>
  h (by simpa using congrArg opcodeOf (Option.some.inj he))

/-- The signed and the unsigned product have the same low bits (R131). -/
theorem mulsLaw_eq_mulLaw (w : Nat) : @mulsLaw w = mulLaw := by
  funext a b
  rw [mulsLaw_eq, mulLaw_eq]

/-- Settles O60: two names of one shared operation; a store takes all 64 bits of its register, a move of 8 bytes writes all
of its own, and the two products agree. -/
theorem functionalDuplicates : Obligations.FunctionalDuplicates := by
  intro s rd rs v alu8
  have hstorev : exec (.storev rd v) s = exec (.store8 rd v) s :=
    congrArg (fun d => Host.Outcome.next (s.storeTo (addr44 v) d)) (s.lo_64 rd).symm
  have hstore : exec (.store rd rs) s = exec (.storer8 rd rs) s :=
    congrArg (fun d => Host.Outcome.next (s.storeTo (s.reg rs) d)) (s.lo_64 rd).symm
  have hloadv : exec (.loadv rd v) s = exec (.movv8 rd v) s :=
    congrArg (fun t : State => Host.Outcome.next t.advance) (s.writeSized_64 rd (s.imm 64 v)).symm
  have hmuls : exec (.muls rd rs) s = exec (.mul rd rs) s :=
    congrArg (fun f => Host.Outcome.next (s.alu f rd (s.lo 64 rs))) (mulsLaw_eq_mulLaw 64)
  exact ⟨⟨rfl, encodeRR_ne (by decide) rd rs⟩, ⟨rfl, encodeRI_ne (by decide) rd v⟩, ⟨rfl, encodeRI_ne (by decide) rd v⟩,
    ⟨hstorev, encodeRI_ne (by decide) rd v⟩, ⟨hstore, encodeRR_ne (by decide) rd rs⟩,
    ⟨hloadv, encodeRI_ne (by decide) rd v⟩, ⟨hmuls, encodeRR_ne (by decide) rd rs⟩, spelledRR_of_row rfl,
    spelledRR_of_row rfl, spelledRI_of_row rfl, spelledRI_of_row rfl, spelledRI_of_row rfl, spelledRI_of_row rfl,
    spelledRI_of_row rfl, spelledRI_of_row rfl, spelledRR_of_row rfl, spelledRR_of_row rfl, spelledRI_of_row rfl,
    spelledRI_of_row rfl, spelledRR_of_row rfl, spelledRR_of_row rfl⟩

/-! ## The widened immediate (R89, R135) -/

/-- Under `IMM_EXT = zero` an 8-byte immediate has no bit from 44 on. -/
theorem imm_zero_high {s : State} (h : s.params.immExt = .zero) (v : Imm44) {b : Nat} (hb : 44 ≤ b) :
    (s.imm 64 v).getLsbD b = false := by
  have himm : s.imm 64 v = v.setWidth 64 := by simp [State.imm, immv, h]
  rw [himm, BitVec.getLsbD_setWidth, BitVec.getLsbD_of_ge v b hb, Bool.and_false]

/-- What a 64-bit two-operand ALU instruction leaves in `Rd` (R120, R135). -/
theorem reg_of_exec_alu {i : Instr} {s t : State} {f : Word → Word → Word} {rd : RegId} {b : Word}
    (h : exec i s = .next (s.alu f rd b)) (ht : exec i s = .next t) : t.reg rd = f (s.reg rd) b := by
  obtain rfl : s.alu f rd b = t := Host.Outcome.next.inj (h.symm.trans ht)
  simp [State.alu, State.aluResult, State.lo]

/-- The two extensions agree on a field whose sign bit is clear (R89). -/
theorem immv_zero_eq_sign {v : Imm44} (h : v.getLsbD 43 = false) : immv .zero 64 v = immv .sign 64 v := by
  have hmsb : v.msb = false := by rw [BitVec.msb_eq_getLsbD_last]; exact h
  exact (BitVec.signExtend_eq_setWidth_of_msb_false hmsb).symm

/-- Settles O43: the high bits of the operand are 0, which ANDV makes 0 and ORV and XORV leave. -/
theorem immediateUpperBitsUnderZeroExtension : Obligations.ImmediateUpperBitsUnderZeroExtension := by
  refine ⟨fun s t rd v b hp hb => ?_, fun v h => immv_zero_eq_sign h⟩
  have hhigh := imm_zero_high hp v hb
  refine ⟨fun ht => ?_, fun ht => ?_, fun ht => ?_⟩
  · rw [reg_of_exec_alu (f := (· &&& ·)) (b := s.imm 64 v) rfl ht, BitVec.getLsbD_and, hhigh, Bool.and_false]
  · rw [reg_of_exec_alu (f := (· ||| ·)) (b := s.imm 64 v) rfl ht, BitVec.getLsbD_or, hhigh, Bool.or_false]
  · rw [reg_of_exec_alu (f := (· ^^^ ·)) (b := s.imm 64 v) rfl ht, BitVec.getLsbD_xor, hhigh, Bool.xor_false]

end Sys2Proof
end

section
/-! The statements of 40_control_flow.md: the five jumps, a bad target, the jump to itself, and the jump after a compare. -/

namespace Sys2Proof.Machine

variable {s : State} {i : Instr} {k : Imm48} {c : Bool}

/-! ## The jumps (R110, R113 to R117) -/

theorem spelledI_of_row {op : Opcode} {make : Imm48 → Instr} (h : opcodeRows.lookup op = some (.i make)) :
    SpelledI op make := fun alu8 strict k => decode_encodeI (rowOf_assigned h alu8) strict k

/-- A jump whose condition holds assigns its target to `pc` (R110). -/
theorem onlyPc_of_taken (h : exec i s = .next (s.jumpIf c k)) (hc : c = true) : OnlyPc i s (k.setWidth 64) := by
  subst hc
  exact h

/-- A jump whose condition fails goes on to the next instruction (R110). -/
theorem onlyPc_of_not_taken (h : exec i s = .next (s.jumpIf c k)) (hc : c = false) : OnlyPc i s (s.pc + 8#64) := by
  subst hc
  exact h

/-- Settles O33: the condition of JNE and of JPL is the complement of its flag. -/
theorem jumpsAssignPcByTheirFlag : Obligations.JumpsAssignPcByTheirFlag := by
  refine ⟨spelledI_of_row rfl, spelledI_of_row rfl, spelledI_of_row rfl, spelledI_of_row rfl, spelledI_of_row rfl,
    fun s k => ⟨onlyPc_of_taken rfl rfl, onlyPc_of_taken rfl, onlyPc_of_not_taken rfl, fun hz => ?_, fun hz => ?_,
      onlyPc_of_taken rfl, onlyPc_of_not_taken rfl, fun hn => ?_, fun hn => ?_⟩⟩
  · exact onlyPc_of_taken rfl (congrArg not hz)
  · exact onlyPc_of_not_taken rfl (congrArg not hz)
  · exact onlyPc_of_taken rfl (congrArg not hn)
  · exact onlyPc_of_not_taken rfl (congrArg not hn)

/-! ## The step after a jump (R110, R113) -/

/-- A jump target is the number of its field (R51, R88). -/
theorem toNat_target (k : Imm48) : (k.setWidth 64 : Word).toNat = k.toNat :=
  BitVec.toNat_setWidth_of_le (by decide)

/-- A JMP to its own address changes nothing (R113). -/
theorem step_jmp_self (h : Fetches s (.jmp k)) (hpc : s.pc = k.setWidth 64) : step s = .next s := by
  have hjump : OnlyPc (.jmp k) s (k.setWidth 64) := onlyPc_of_taken rfl rfl
  rw [OnlyPc, ← hpc] at hjump
  exact (stepRunsTheDecodedInstruction s _ h).trans hjump

/-- A state that steps to itself is the end of a run of any length. -/
theorem run_of_step_self (h : step s = .next s) (m : Nat) : Sys2Proof.core.run m s = .next s := by
  induction m with
  | zero => rfl
  | succ m ih => exact (run_next Sys2Proof.core m s s h).trans ih

/-- Settles O34: the jump does not check its target, the fetch at it does. -/
theorem badJumpTargetFaultsAtTheNextFetch : Obligations.BadJumpTargetFaultsAtTheNextFetch := by
  refine ⟨fun s k hr => ⟨{ s with pc := k.setWidth 64 }, onlyPc_of_taken rfl rfl, rfl, fun hmis => ?_, fun ha hout => ?_⟩,
    fun _ _ m h hpc => run_of_step_self (step_jmp_self h hpc) m⟩
  · refine step_of_fetch_error hr (fetchInstr_misaligned ?_)
    rwa [toNat_target]
  · refine step_of_fetch_error hr (fetchInstr_outOfRange ?_ ?_)
    · rwa [toNat_target]
    · rw [InMemory, toNat_target]
      exact Nat.not_le.2 hout

/-! ## The jump after a compare (R114, R115, R166, R334) -/

variable {w : Nat} {d : RegId} {b : BitVec w}

/-- A compare sets Z exactly when its operands are equal (R166). -/
theorem State.compare_z (s : State) (d : RegId) (b : BitVec w) : (s.compare d b).z = decide (s.lo w d = b) := by
  simp [State.compare, BitVec.sub_eq_iff_eq_add]

/-- After a compare at any width JEQ jumps exactly when the operands are equal, JNE exactly when they differ. -/
theorem jump_after_compare (h : exec i s = .next (s.compare d b)) (k : Imm48) :
    ∃ t, exec i s = .next t ∧ RegsKept s t ∧
      OnlyPc (.jeq k) t (if s.lo w d = b then k.setWidth 64 else s.pc + 16#64) ∧
      OnlyPc (.jne k) t (if s.lo w d = b then s.pc + 16#64 else k.setWidth 64) := by
  obtain ⟨-, hpc, hregs, -⟩ := s.compare_effect d b
  have hz := s.compare_z d b
  have hnext : (s.compare d b).pc + 8#64 = s.pc + 16#64 := by rw [hpc, BitVec.add_assoc]; rfl
  refine ⟨s.compare d b, h, hregs, ?_⟩
  by_cases heq : s.lo w d = b
  · simp only [heq, decide_true] at hz
    rw [if_pos heq, if_pos heq, ← hnext]
    exact ⟨onlyPc_of_taken rfl hz, onlyPc_of_not_taken rfl (congrArg not hz)⟩
  · simp only [heq, decide_false] at hz
    rw [if_neg heq, if_neg heq, ← hnext]
    exact ⟨onlyPc_of_not_taken rfl hz, onlyPc_of_taken rfl (congrArg not hz)⟩

/-- Settles O49: each compare is `State.compare` at its width; CMP compares whole registers. -/
theorem jumpAfterCompareTestsEquality : Obligations.JumpAfterCompareTestsEquality := fun s rd rs k =>
  have hcmp := jump_after_compare (s := s) (i := .cmp rd rs) (b := s.lo 64 rs) rfl k
  ⟨by simpa only [State.lo_64] using hcmp, jump_after_compare (b := s.lo 8 rs) rfl k,
    jump_after_compare (b := s.lo 16 rs) rfl k, jump_after_compare (b := s.lo 32 rs) rfl k⟩

end Sys2Proof.Machine
end

section
/-! The integer laws as the rules write them: sums, products and quotients of the readings of the operands, truncated
(R8, R130 to R132). -/

namespace Sys2Proof.Machine

variable {w : Nat}

/-! ## The signed reading and truncation (R8) -/

/-- The signed reading is core's two's complement. -/
theorem sval_eq_toInt (v : BitVec w) : sval v = v.toInt := by
  rw [sval, BitVec.toInt_eq_msb_cond, BitVec.msb_eq_getLsbD_last, uval, Nat.cast_pow, Nat.cast_ofNat]

@[simp] theorem truncTo_sval (v : BitVec w) : truncTo w (sval v) = v := by
  rw [truncTo, sval_eq_toInt, BitVec.ofInt_toInt]

@[simp] theorem truncTo_uval (v : BitVec w) : truncTo w (uval v) = v := by
  rw [truncTo, uval, BitVec.ofInt_natCast, BitVec.ofNat_toNat, BitVec.setWidth_eq]

theorem truncTo_neg (k : Int) : truncTo w (-k) = -truncTo w k := BitVec.ofInt_neg

/-- Only 0 reads as 0. -/
theorem ne_zero_of_sval_ne_zero {v : BitVec w} (h : sval v ≠ 0) : v ≠ 0#w := by
  rintro rfl
  exact h (by rw [sval_eq_toInt, BitVec.toInt_zero])

/-- A number that is not negative as signed reads the same either way. -/
theorem sval_eq_uval_of_nonneg {v : BitVec w} (h : 0 ≤ sval v) : sval v = uval v := by
  rw [sval_eq_toInt] at *
  exact BitVec.toInt_eq_toNat_of_lt (BitVec.toInt_pos_iff.1 h)

/-- The least number of each width is its own negation. -/
theorem neg_eq_self_of_sval_least {v : BitVec w} (h0 : 0 < w) (h : sval v = -2 ^ (w - 1)) : -v = v := by
  obtain rfl : v = BitVec.intMin w :=
    BitVec.eq_of_toInt_eq (by rw [← sval_eq_toInt, h, BitVec.toInt_intMin_of_pos h0])
  exact BitVec.neg_intMin

/-! ## Sums, differences and products (R130, R131) -/

theorem addLaw_eq_truncTo (a b : BitVec w) : addLaw a b = truncTo w (uval a + uval b) :=
  (BitVec.ofInt_natCast w _).symm

theorem subLaw_eq_truncTo (a b : BitVec w) : subLaw a b = truncTo w (uval a - uval b) := rfl

theorem mulLaw_eq_truncTo (a b : BitVec w) : mulLaw a b = truncTo w (uval a * uval b) :=
  (BitVec.ofInt_natCast w _).symm

theorem mulsLaw_eq_truncTo (a b : BitVec w) : mulsLaw a b = truncTo w (sval a * sval b) := by
  rw [sval_eq_toInt, sval_eq_toInt]
  rfl

/-! ## Quotients (R132) -/

theorem divuLaw_eq_truncTo (a b : BitVec w) : divuLaw a b = truncTo w (uval a / uval b) :=
  (BitVec.ofInt_natCast w _).symm

/-- Rounding toward zero: the sign of the quotient is the product of the signs, unless the magnitude is 0. -/
theorem roundedQuotient_trunc (a b : Int) : roundedQuotient .trunc a b = a.tdiv b := by
  rw [← Int.sign_mul_natAbs (a.tdiv b), Int.sign_tdiv, Int.natAbs_tdiv]
  split
  · next hlt =>
    have hzero : a.natAbs / b.natAbs = 0 := Nat.div_eq_of_lt hlt
    rw [roundedQuotient, hzero, Nat.cast_zero, mul_zero, zero_mul]
  · rfl

/-- Rounding down: a negative divisor is turned positive with the dividend. -/
theorem roundedQuotient_floor (a b : Int) : roundedQuotient .floor a b = a.fdiv b := by
  have hpos : ∀ (c : Int) (n : Nat), ⌊(c : ℚ) / (n : ℚ)⌋ = c.fdiv n := fun c n => by
    rw [Rat.floor_intCast_div_natCast, Int.fdiv_eq_ediv_of_nonneg _ (Int.natCast_nonneg n)]
  obtain ⟨n, rfl | rfl⟩ := b.eq_nat_or_neg
  · exact hpos a n
  · calc ⌊(a : ℚ) / ((-(n : Int) : Int) : ℚ)⌋ = ⌊((-a : Int) : ℚ) / (n : ℚ)⌋ := by
          rw [Int.cast_neg, Int.cast_neg, Int.cast_natCast, div_neg, neg_div]
      _ = (-a).fdiv n := hpos (-a) n
      _ = a.fdiv (-n) := by rw [← Int.neg_fdiv_neg, neg_neg]

theorem divsLaw_eq_truncTo (round : DivRound) (a b : BitVec w) :
    divsLaw round a b = truncTo w (roundedQuotient round (sval a) (sval b)) := by
  cases round with
  | trunc => rw [roundedQuotient_trunc, sval_eq_toInt, sval_eq_toInt]; rfl
  | floor => rw [roundedQuotient_floor, sval_eq_toInt, sval_eq_toInt]; rfl

theorem roundedQuotient_one (round : DivRound) (a : Int) : roundedQuotient round a 1 = a := by
  cases round with
  | trunc => rw [roundedQuotient_trunc, Int.tdiv_one]
  | floor => rw [roundedQuotient_floor, Int.fdiv_one]

theorem roundedQuotient_neg_one (round : DivRound) (a : Int) : roundedQuotient round a (-1) = -a := by
  cases round with
  | trunc => rw [roundedQuotient_trunc, Int.tdiv_neg, Int.tdiv_one]
  | floor => rw [roundedQuotient_floor, ← Int.neg_fdiv_neg, neg_neg, Int.fdiv_one]

theorem roundedQuotient_zero_left (round : DivRound) (b : Int) : roundedQuotient round 0 b = 0 := by
  cases round with
  | trunc => rw [roundedQuotient_trunc, Int.zero_tdiv]
  | floor => rw [roundedQuotient_floor, Int.zero_fdiv]

/-- 7 and 2 with equal signs: both roundings agree. -/
theorem roundedQuotient_seven_two (round : DivRound) :
    roundedQuotient round 7 2 = 3 ∧ roundedQuotient round (-7) (-2) = 3 := by
  cases round with
  | trunc => exact ⟨roundedQuotient_trunc 7 2, roundedQuotient_trunc (-7) (-2)⟩
  | floor => exact ⟨roundedQuotient_floor 7 2, roundedQuotient_floor (-7) (-2)⟩

/-- 7 and 2 with different signs: the roundings differ. -/
theorem roundedQuotient_seven_two_mixed {a b : Int} (h : a = -7 ∧ b = 2 ∨ a = 7 ∧ b = -2) :
    roundedQuotient .trunc a b = -3 ∧ roundedQuotient .floor a b = -4 := by
  rw [roundedQuotient_trunc, roundedQuotient_floor]
  obtain ⟨rfl, rfl⟩ | ⟨rfl, rfl⟩ := h
  · exact ⟨rfl, rfl⟩
  · exact ⟨rfl, rfl⟩

/-- Of numbers that are not negative the signed quotient rounded toward zero is the unsigned one. -/
theorem divuLaw_eq_truncTo_sval {a b : BitVec w} (ha : 0 ≤ sval a) (hb : 0 ≤ sval b) :
    divuLaw a b = truncTo w (roundedQuotient .trunc (sval a) (sval b)) := by
  rw [roundedQuotient_trunc, Int.tdiv_eq_ediv_of_nonneg ha, sval_eq_uval_of_nonneg ha, sval_eq_uval_of_nonneg hb,
    divuLaw_eq_truncTo]

@[simp] theorem divuLaw_one (a : BitVec w) (h0 : 0 < w) : divuLaw a 1#w = a := by
  rw [divuLaw, BitVec.toNat_one h0, Nat.div_one, BitVec.ofNat_toNat, BitVec.setWidth_eq]

@[simp] theorem divuLaw_zero_left (b : BitVec w) : divuLaw 0#w b = 0#w := by
  rw [divuLaw, BitVec.toNat_zero, Nat.zero_div]

end Sys2Proof.Machine
end

section
/-! How an integer instruction completes, by the law it hands to `State.alu` or `State.divide`. The operands `a` and `b` are
the registers' own spelling of what the instruction reads: `s.reg rd` for `s.lo 64 rd`, and so on. -/

namespace Sys2Proof.Machine

variable {w : Nat} {i : Instr} {s : State} {d : RegId} {a b c : BitVec w} {f q : BitVec w → BitVec w → BitVec w}

/-! ## `State.alu` (R120, R185) -/

theorem aluCompletes_alu (h : exec i s = .next (s.alu f d c)) (hw : w ∈ [8, 16, 32, 64]) (ha : s.lo w d = a)
    (hc : c = b) : AluCompletes i s d (f a b) := by
  subst ha hc
  obtain ⟨hpos, hle⟩ := pos_and_le_of_mem_widths hw
  exact ⟨_, h, s.alu_effect f d c hpos hle⟩

theorem aluCompletes_add (h : exec i s = .next (s.alu addLaw d c)) (hw : w ∈ [8, 16, 32, 64]) (ha : s.lo w d = a)
    (hc : c = b) : AluCompletes i s d (truncTo w (uval a + uval b)) :=
  addLaw_eq_truncTo a b ▸ aluCompletes_alu h hw ha hc

theorem aluCompletes_sub (h : exec i s = .next (s.alu subLaw d c)) (hw : w ∈ [8, 16, 32, 64]) (ha : s.lo w d = a)
    (hc : c = b) : AluCompletes i s d (truncTo w (uval a - uval b)) :=
  subLaw_eq_truncTo a b ▸ aluCompletes_alu h hw ha hc

theorem aluCompletes_mul (h : exec i s = .next (s.alu mulLaw d c)) (hw : w ∈ [8, 16, 32, 64]) (ha : s.lo w d = a)
    (hc : c = b) : AluCompletes i s d (truncTo w (uval a * uval b)) :=
  mulLaw_eq_truncTo a b ▸ aluCompletes_alu h hw ha hc

theorem aluCompletes_muls (h : exec i s = .next (s.alu mulsLaw d c)) (hw : w ∈ [8, 16, 32, 64]) (ha : s.lo w d = a)
    (hc : c = b) : AluCompletes i s d (truncTo w (sval a * sval b)) :=
  mulsLaw_eq_truncTo a b ▸ aluCompletes_alu h hw ha hc

/-- Which of the two products an instruction takes makes no difference to the state it leaves (R131). -/
theorem State.alu_mul_eq_alu_muls (s : State) (d : RegId) (b : BitVec w) : s.alu mulLaw d b = s.alu mulsLaw d b := by
  rw [mulsLaw_eq_mulLaw]

/-! ## `State.divide` (R132) -/

theorem aluCompletes_divide (h : exec i s = .next (s.divide q d c)) (hw : w ∈ [8, 16, 32, 64]) (ha : s.lo w d = a)
    (hc : c = b) (hb : b ≠ 0#w) : AluCompletes i s d (q a b) := by
  subst ha hc
  obtain ⟨hpos, hle⟩ := pos_and_le_of_mem_widths hw
  exact ⟨_, h, s.divide_effect q d hb hpos hle⟩

theorem takesFault_divide (h : exec i s = .next (s.divide q d c)) (hc : c = 0#w) :
    TakesFault i s (.divideByZero s.pc) := by
  subst hc
  exact h.trans (congrArg _ (s.divide_zero q d))

theorem dividesSigned_divide (h : exec i s = .next (s.divide (divsLaw s.params.divRound) d c))
    (hw : w ∈ [8, 16, 32, 64]) (ha : s.lo w d = a) (hc : c = b) : DividesSigned i s d a b :=
  ⟨fun hb => divsLaw_eq_truncTo s.params.divRound a b ▸ aluCompletes_divide h hw ha hc hb,
    fun hb => takesFault_divide h (hc.trans hb)⟩

/-- `DIV` under `DIV64_SIGNED` is the signed division (R132). -/
theorem exec_div_signed (rd rs : RegId) (h : s.params.div64Signed = true) :
    exec (.div rd rs) s = .next (s.divide (divsLaw s.params.divRound) rd (s.lo 64 rs)) := by
  have hq : div64Law s.params = divsLaw s.params.divRound := by
    funext x y
    rw [div64Law, if_pos h]
  exact congrArg (fun q => Host.Outcome.next (s.divide q rd (s.lo 64 rs))) hq

/-- `DIV` under `DIV64_SIGNED = false` is the unsigned division (R132). -/
theorem exec_div_unsigned (rd rs : RegId) (h : s.params.div64Signed = false) :
    exec (.div rd rs) s = .next (s.divide divuLaw rd (s.lo 64 rs)) := by
  have hq : div64Law s.params = divuLaw := by
    funext x y
    rw [div64Law, h, if_neg Bool.false_ne_true]
  exact congrArg (fun q => Host.Outcome.next (s.divide q rd (s.lo 64 rs))) hq

theorem aluCompletes_div_unsigned (rd rs : RegId) (h : s.params.div64Signed = false) (hb : s.reg rs ≠ 0#64) :
    AluCompletes (.div rd rs) s rd (divuLaw (s.reg rd) (s.reg rs)) :=
  aluCompletes_divide (exec_div_unsigned rd rs h) (by decide) (s.lo_64 rd) (s.lo_64 rs) hb

/-! ## The corner cases (R132) -/

/-- A signed division whose rounded quotient is known. -/
theorem DividesSigned.completes (h : DividesSigned i s d a b) {x y k : Int} (ha : sval a = x) (hb : sval b = y)
    (hy : y ≠ 0) (hk : roundedQuotient s.params.divRound x y = k) : AluCompletes i s d (truncTo w k) := by
  subst ha hb hk
  exact h.1 (ne_zero_of_sval_ne_zero hy)

/-- Every corner is a value of the rounded quotient; the overflowing one wraps to the dividend. -/
theorem DividesSigned.corners (h : DividesSigned i s d a b) (h0 : 0 < w) : DivisionCorners i s d a b := by
  have hneg (hb : sval b = -1) : AluCompletes i s d (truncTo w (-sval a)) :=
    h.completes rfl hb (by decide) (roundedQuotient_neg_one _ _)
  refine ⟨fun ha hb => ?_, fun hb => ?_, hneg, fun ha hb => ?_, fun ha hb => ?_, fun ha hb => ?_, fun hab => ?_⟩
  · simpa only [truncTo_neg, truncTo_sval, neg_eq_self_of_sval_least h0 ha] using hneg hb
  · simpa only [truncTo_sval] using h.completes rfl hb (by decide) (roundedQuotient_one _ _)
  · exact h.completes ha rfl hb (roundedQuotient_zero_left _ _)
  · exact h.completes ha hb (by decide) (roundedQuotient_seven_two _).1
  · exact h.completes ha hb (by decide) (roundedQuotient_seven_two _).2
  · obtain ⟨htrunc, hfloor⟩ := roundedQuotient_seven_two_mixed hab
    have hy : sval b ≠ 0 := by omega
    cases hr : s.params.divRound with
    | trunc => exact h.completes rfl rfl hy (hr ▸ htrunc)
    | floor => exact h.completes rfl rfl hy (hr ▸ hfloor)

end Sys2Proof.Machine
end

section
/-! The statements of 41_arithmetic.md: sums, products, quotients, and the corner cases of division. -/

namespace Sys2Proof.Machine

/-- Settles O35: each is the sum or the difference law at 64 bits with its operand. -/
theorem unsizedAddAndSubtract : Obligations.UnsizedAddAndSubtract := by
  refine ⟨spelledRR_of_row rfl, spelledRR_of_row rfl, spelledRI_of_row rfl, spelledRI_of_row rfl, spelledR_of_row rfl,
    spelledR_of_row rfl, fun s rd rs v => ?_⟩
  have hd := s.lo_64 rd
  exact ⟨aluCompletes_add rfl (by decide) hd (s.lo_64 rs), aluCompletes_sub rfl (by decide) hd (s.lo_64 rs),
    aluCompletes_add rfl (by decide) hd (s.imm_64 v), aluCompletes_sub rfl (by decide) hd (s.imm_64 v),
    aluCompletes_add (b := 1#64) rfl (by decide) hd rfl, aluCompletes_sub (b := 1#64) rfl (by decide) hd rfl⟩

/-- Settles O36: each is a product law at its width; at 8 bytes the operands are whole registers. -/
theorem multiplyKeepsTheLowBits : Obligations.MultiplyKeepsTheLowBits := by
  refine ⟨spelledRR_of_row rfl, spelledRR_of_row rfl, spelledRR_of_row rfl, spelledRR_of_row rfl, spelledRR_of_row rfl,
    spelledRR_of_row rfl, spelledRR_of_row rfl, spelledRR_of_row rfl, fun s rd rs => ?_⟩
  have hd := s.lo_64 rd
  have hs := s.lo_64 rs
  exact ⟨⟨rfl, rfl⟩, aluCompletes_mul rfl (by decide) hd hs, aluCompletes_muls rfl (by decide) hd hs,
    aluCompletes_mul rfl (by decide) rfl rfl, aluCompletes_muls rfl (by decide) rfl rfl,
    aluCompletes_mul rfl (by decide) rfl rfl, aluCompletes_muls rfl (by decide) rfl rfl,
    aluCompletes_mul rfl (by decide) rfl rfl, aluCompletes_muls rfl (by decide) rfl rfl,
    aluCompletes_mul rfl (by decide) hd hs, aluCompletes_muls rfl (by decide) hd hs⟩

/-- Settles O37: each signed division is `State.divide` with the signed law; `DIV64_SIGNED` chooses the law of DIV. -/
theorem divisionQuotientOrDivideByZero : Obligations.DivisionQuotientOrDivideByZero := by
  refine ⟨spelledRR_of_row rfl, spelledRR_of_row rfl, spelledRR_of_row rfl, spelledRR_of_row rfl, fun s rd rs => ?_⟩
  have hd := s.lo_64 rd
  have hs := s.lo_64 rs
  exact ⟨rfl, fun h => dividesSigned_divide (exec_div_signed rd rs h) (by decide) hd hs,
    fun h hb => divuLaw_eq_truncTo (s.reg rd) (s.reg rs) ▸ aluCompletes_div_unsigned rd rs h hb,
    fun h hb => takesFault_divide (exec_div_unsigned rd rs h) (hs.trans hb),
    dividesSigned_divide rfl (by decide) rfl rfl, dividesSigned_divide rfl (by decide) rfl rfl,
    dividesSigned_divide rfl (by decide) rfl rfl, dividesSigned_divide rfl (by decide) hd hs⟩

/-- Settles O40: the two product laws are one function. -/
theorem signedAndUnsignedMultiplyAgree : Obligations.SignedAndUnsignedMultiplyAgree := by
  refine ⟨fun w a b _ => ?_, fun s rd rs => ?_⟩
  · rw [← mulLaw_eq_truncTo, ← mulsLaw_eq_truncTo, mulsLaw_eq_mulLaw]
  · obtain ⟨t, ht, hreg, -⟩ : AluCompletes (.mul rd rs) s rd (truncTo 64 (uval (s.reg rd) * uval (s.reg rs))) :=
      aluCompletes_mul rfl (by decide) (s.lo_64 rd) (s.lo_64 rs)
    have hagree {w : Nat} (b : BitVec w) : (.next (s.alu mulLaw rd b) : Result) = .next (s.alu mulsLaw rd b) :=
      congrArg _ (s.alu_mul_eq_alu_muls rd b)
    exact ⟨⟨t, ht, hreg⟩, hagree (s.lo 64 rs), hagree (s.lo 8 rs), hagree (s.lo 16 rs), hagree (s.lo 32 rs),
      hagree (s.lo 64 rs)⟩

/-- Settles O41: the signed divisions by the corners of the rounded quotient; the unsigned DIV by those of its law. -/
theorem divisionCornerCases : Obligations.DivisionCornerCases := by
  obtain ⟨-, -, -, -, hdivides⟩ := divisionQuotientOrDivideByZero
  intro s rd rs
  obtain ⟨-, hdiv, -, -, hdiv1, hdiv2, hdiv4, hdiv8⟩ := hdivides s rd rs
  refine ⟨hdiv1.corners (by decide), hdiv2.corners (by decide), hdiv4.corners (by decide), hdiv8.corners (by decide),
    fun h => (hdiv h).corners (by decide), fun h => ⟨fun hb => ?_, fun ha hb => ?_, fun ha hb => ?_⟩⟩
  · have hone := aluCompletes_div_unsigned rd rs h (by rw [hb]; decide)
    rwa [hb, divuLaw_one _ (by decide)] at hone
  · have hzero := aluCompletes_div_unsigned rd rs h hb
    rwa [ha, divuLaw_zero_left] at hzero
  · rw [← divuLaw_eq_truncTo_sval ha hb.le]
    exact aluCompletes_div_unsigned rd rs h (ne_zero_of_sval_ne_zero hb.ne')

end Sys2Proof.Machine
end

section
/-! The statements of 42_logic_bits.md: the bitwise operations and the one-position shifts (R136 to R144). -/

namespace Sys2Proof.Machine

variable {w : Nat} {i : Instr} {s : State} {d : RegId} {r : BitVec w}

/-- An instruction that leaves a computed result, `State.aluResult`, completes with it at any width. -/
theorem aluCompletes_aluResult (h : exec i s = .next (s.aluResult d r)) (hw : w ∈ [8, 16, 32, 64]) :
    AluCompletes i s d r :=
  have ⟨hpos, hle⟩ := pos_and_le_of_mem_widths hw
  ⟨_, h, s.aluResult_effect d r hpos hle⟩

/-- A left shift by one position is twice the number, truncated (R143). -/
theorem shiftLeft_one_eq_truncTo (v : BitVec w) : v <<< 1 = truncTo w (uval v * 2) :=
  calc v <<< 1 = BitVec.ofNat w (v.toNat <<< 1) := rfl
    _ = BitVec.ofNat w (v.toNat * 2) := by rw [Nat.shiftLeft_eq, pow_one]
    _ = truncTo w (uval v * 2) := (BitVec.ofInt_natCast w _).symm

/-- A logical right shift by one position is half the number, rounded down (R144). -/
theorem uval_ushiftRight_one (v : BitVec w) : uval (v >>> 1) = uval v / 2 := by
  rw [uval, BitVec.toNat_ushiftRight, Nat.shiftRight_one]
  rfl

/-- Settles O42: AND, OR and XOR are `State.alu` with their operation, on a register or the widened immediate; NOT and the
shifts leave the result they compute from `Rd`. -/
theorem logicAndShifts : Obligations.LogicAndShifts := by
  refine ⟨spelledR_of_row rfl, spelledRR_of_row rfl, spelledRI_of_row rfl, spelledRR_of_row rfl, spelledRI_of_row rfl,
    spelledRR_of_row rfl, spelledRI_of_row rfl, spelledR_of_row rfl, spelledR_of_row rfl, fun s rd rs v => ?_⟩
  have hd := s.lo_64 rd
  have hs := s.lo_64 rs
  have hv := s.imm_64 v
  refine ⟨aluCompletes_aluResult rfl (by decide),
    aluCompletes_alu (f := (· &&& ·)) rfl (by decide) hd hs, aluCompletes_alu (f := (· &&& ·)) rfl (by decide) hd hv,
    aluCompletes_alu (f := (· ||| ·)) rfl (by decide) hd hs, aluCompletes_alu (f := (· ||| ·)) rfl (by decide) hd hv,
    aluCompletes_alu (f := (· ^^^ ·)) rfl (by decide) hd hs, aluCompletes_alu (f := (· ^^^ ·)) rfl (by decide) hd hv,
    ?_, ?_⟩
  · rw [← shiftLeft_one_eq_truncTo]
    exact aluCompletes_aluResult rfl (by decide)
  · rw [← uval_ushiftRight_one, truncTo_uval]
    exact aluCompletes_aluResult rfl (by decide)

end Sys2Proof.Machine
end

section
/-! How a data transfer, a compare, a load and a store complete, by the shared operation the instruction is. The operation
takes `c`, as the model spells it; `r`, `v` and the operands `a`, `b` of a compare are the spelling of the rules:
`s.reg rd` for `s.lo 64 rd`, and so on. -/

namespace Sys2Proof.Machine

variable {w : Nat} {i : Instr} {s : State} {d : RegId}

/-! ## The low bytes of a register (R9, R23) -/

theorem State.lo_of_le (s : State) (r : RegId) (hw : w ≤ 64) : s.lo w r = (s.reg r).extractLsb' 0 w :=
  BitVec.setWidth_eq_extractLsb' hw

/-! ## Data transfers (R22, R31) -/

theorem moveCompletes_writeSized {r c : BitVec w} (h : exec i s = .next (s.writeSized d c).advance)
    (hw : w ∈ [8, 16, 32, 64]) (hc : c = r) : MoveCompletes i s d r := by
  subst hc
  obtain ⟨hpos, hle⟩ := pos_and_le_of_mem_widths hw
  exact ⟨_, h, s.writeSized_effect d c hpos hle⟩

theorem moveCompletes_setReg {r c : Word} (h : exec i s = .next (s.setReg d c).advance) (hc : c = r) :
    MoveCompletes i s d r :=
  moveCompletes_writeSized (h.trans (by rw [State.writeSized_64])) (by decide) hc

/-! ## Compares (R29, R166) -/

/-- A compare completes with the difference of the unsigned readings, truncated. -/
theorem compareCompletes_compare {a b c : BitVec w} (h : exec i s = .next (s.compare d c)) (ha : s.lo w d = a)
    (hc : c = b) : CompareCompletes i s (truncTo w (uval a - uval b)) := by
  subst ha hc
  have hdiff : truncTo w (uval (s.lo w d) - uval c) = s.lo w d - c := by rw [← subLaw_eq_truncTo, subLaw_eq]
  rw [hdiff]
  exact ⟨_, h, s.compare_effect d c⟩

/-! ## Loads and stores (R53, R54, R235) -/

/-- A load is `MemRead`, then a data transfer of the value, whose bytes are those at the address. -/
theorem loadsFrom_loadInto {a : Word} (h : exec i s = .next (s.loadInto w d a)) (hw : w ∈ [8, 16, 32, 64]) :
    LoadsFrom i s w d a := by
  obtain ⟨hpos, hle⟩ := pos_and_le_of_mem_widths hw
  obtain ⟨hin, he⟩ | ⟨hout, he⟩ := s.loadInto_cases w d a
  · exact ⟨fun _ => ⟨_, h.trans (congrArg _ he), s.valueAt w a, s.bytesAt_valueAt a (eight_dvd_of_mem_widths hw),
      s.writeSized_effect d _ hpos hle⟩, absurd hin⟩
  · exact ⟨fun hin => absurd hin (Nat.not_le.2 hout), fun _ => h.trans (congrArg _ he)⟩

/-- A store is `MemWrite` of the value. -/
theorem storesTo_storeTo {a : Word} {v c : BitVec w} (h : exec i s = .next (s.storeTo a c)) (hc : c = v) :
    StoresTo i s a v := by
  subst hc
  obtain ⟨hin, -⟩ | ⟨hout, he⟩ := s.storeTo_cases a c
  · exact ⟨fun _ => ⟨_, h, s.storeTo_effect a c hin⟩, absurd hin⟩
  · exact ⟨fun hin => absurd hin (Nat.not_le.2 hout), fun _ => h.trans (congrArg _ he)⟩

end Sys2Proof.Machine
end

section
/-! The statements of 43_memory_data.md, with the sized forms of 46_mov.md and 47_load_store_sized.md: data transfers,
loads, stores and compares. -/

namespace Sys2Proof.Machine

/-- Settles O44: LOADV and CLEAR write the whole register, each move is `WriteSized` of its operand. -/
theorem immediateLoadsClearAndMoves : Obligations.ImmediateLoadsClearAndMoves := by
  refine ⟨spelledRI_of_row rfl, spelledR_of_row rfl, spelledRR_of_row rfl, spelledRR_of_row rfl, spelledRR_of_row rfl,
    spelledRR_of_row rfl, spelledRI_of_row rfl, spelledRI_of_row rfl, spelledRI_of_row rfl, spelledRI_of_row rfl,
    fun s rd rs v => ?_⟩
  have hv := s.imm_64 v
  exact ⟨moveCompletes_setReg rfl hv, moveCompletes_setReg rfl rfl,
    moveCompletes_writeSized rfl (by decide) (s.lo_of_le rs (by decide)),
    moveCompletes_writeSized rfl (by decide) (s.lo_of_le rs (by decide)),
    moveCompletes_writeSized rfl (by decide) (s.lo_of_le rs (by decide)),
    moveCompletes_writeSized rfl (by decide) (s.lo_64 rs),
    moveCompletes_writeSized rfl (by decide) (s.imm_of_le v (by decide)),
    moveCompletes_writeSized rfl (by decide) (s.imm_of_le v (by decide)),
    moveCompletes_writeSized rfl (by decide) (s.imm_of_le v (by decide)),
    moveCompletes_writeSized rfl (by decide) hv⟩

/-- Settles O45: each load is `State.loadInto` at its width; the address is read from `Rs` in the old state. -/
theorem loadsReadTheirBytesOrFault : Obligations.LoadsReadTheirBytesOrFault := by
  refine ⟨spelledRI_of_row rfl, spelledRI_of_row rfl, spelledRI_of_row rfl, spelledRI_of_row rfl, spelledRI_of_row rfl,
    spelledRR_of_row rfl, spelledRR_of_row rfl, spelledRR_of_row rfl, spelledRR_of_row rfl, fun s rd rs addr => ?_⟩
  exact ⟨loadsFrom_loadInto rfl (by decide), loadsFrom_loadInto rfl (by decide), loadsFrom_loadInto rfl (by decide),
    loadsFrom_loadInto rfl (by decide), loadsFrom_loadInto rfl (by decide), loadsFrom_loadInto rfl (by decide),
    loadsFrom_loadInto rfl (by decide), loadsFrom_loadInto rfl (by decide), loadsFrom_loadInto rfl (by decide)⟩

/-- Settles O46: each store is `State.storeTo` of the low bytes of `Rd` at its width. -/
theorem storesWriteExactlyTheirBytes : Obligations.StoresWriteExactlyTheirBytes := by
  refine ⟨spelledRR_of_row rfl, spelledRI_of_row rfl, spelledRI_of_row rfl, spelledRI_of_row rfl, spelledRI_of_row rfl,
    spelledRI_of_row rfl, spelledRR_of_row rfl, spelledRR_of_row rfl, spelledRR_of_row rfl, spelledRR_of_row rfl,
    fun s rd rs addr => ?_⟩
  have h8 := s.lo_of_le (w := 8) rd (by decide)
  have h16 := s.lo_of_le (w := 16) rd (by decide)
  have h32 := s.lo_of_le (w := 32) rd (by decide)
  have h64 := s.lo_64 rd
  exact ⟨storesTo_storeTo rfl rfl, storesTo_storeTo rfl rfl, storesTo_storeTo rfl h8, storesTo_storeTo rfl h16,
    storesTo_storeTo rfl h32, storesTo_storeTo rfl h64, storesTo_storeTo rfl h8, storesTo_storeTo rfl h16,
    storesTo_storeTo rfl h32, storesTo_storeTo rfl h64⟩

/-- Settles O47: each compare is `State.compare` at its width with its operand, whatever `ALU_FLAGS`. -/
theorem comparesSetFlagsOfTheDifference : Obligations.ComparesSetFlagsOfTheDifference := by
  refine ⟨spelledRR_of_row rfl, spelledRI_of_row rfl, spelledRR_of_row rfl, spelledRR_of_row rfl, spelledRR_of_row rfl,
    spelledRR_of_row rfl, spelledRI_of_row rfl, spelledRI_of_row rfl, spelledRI_of_row rfl, spelledRI_of_row rfl,
    fun s rd rs v => ?_⟩
  have hd := s.lo_64 rd
  have hs := s.lo_64 rs
  have hv := s.imm_64 v
  exact ⟨compareCompletes_compare rfl hd hs, compareCompletes_compare rfl hd hv, compareCompletes_compare rfl rfl rfl,
    compareCompletes_compare rfl rfl rfl, compareCompletes_compare rfl rfl rfl, compareCompletes_compare rfl hd hs,
    compareCompletes_compare rfl rfl (s.imm_of_le v (by decide)),
    compareCompletes_compare rfl rfl (s.imm_of_le v (by decide)),
    compareCompletes_compare rfl rfl (s.imm_of_le v (by decide)), compareCompletes_compare rfl hd hv⟩

end Sys2Proof.Machine
end

section
/-! The statements of 44_io.md: what the five input/output instructions do to the cells, the trace and the rest (R175 to
R182). -/

namespace Sys2Proof.Machine

/-! ## The words of format OP (R82) -/

theorem spelledOP_of_row {op : Opcode} {i : Instr} (h : opcodeRows.lookup op = some (.op i)) : SpelledOP op i :=
  fun alu8 strict => decode_encodeOP (rowOf_assigned h alu8) strict

/-! ## The cells (R175, R176) -/

/-- The cell of a 44-bit address operand is the one with its number (R175). -/
theorem eq_cell44_iff (c : IoCell) (addr : Imm44) : c = cell44 addr ↔ c.toNat = addr.toNat := by
  rw [← BitVec.toNat_inj, cell44, BitVec.toNat_setWidth_of_le (by decide)]

/-- `IoWrite` to the cell of an address operand (R176). -/
theorem State.ioCell_ioWrite_cell44 (s : State) (addr : Imm44) (v : Word) (c : IoCell) :
    (s.ioWrite (cell44 addr) v).ioCell c = if c.toNat = addr.toNat then v else s.ioCell c := by
  simp only [State.ioCell_ioWrite, eq_cell44_iff]

/-- `IoRead` leaves its answer in the cell it reads and keeps every other cell (R176): an input cell latches the answer,
any other cell already holds it. -/
theorem State.ioCell_ioReadState (s : State) (c d : IoCell) :
    (s.ioReadState c).ioCell d = if d = c then s.ioReadValue c else s.ioCell d := by
  obtain ⟨-, hv, ht⟩ | ⟨-, hv, ht⟩ := s.ioRead_cases c <;> rw [hv, ht]
  · exact s.ioCell_ioWrite c d _
  · split
    · next h => rw [h]
    · rfl

/-- A cell outside `IO_INPUT_SET` is read as it stands (R176). -/
theorem State.ioReadValue_of_not_input {s : State} {c : IoCell} (h : isInput s.params c.toNat = false) :
    s.ioReadValue c = s.ioCell c := by
  obtain ⟨hin, -⟩ | ⟨-, hv, -⟩ := s.ioRead_cases c
  · rw [h] at hin
    contradiction
  · exact hv

/-! ## Completion (R177) -/

/-- u differs from s at most in general registers, I/O cells and the count of values drawn. -/
def UpToRegsAndCells (s u : State) : Prop :=
  u.trace = s.trace ∧ u.pc = s.pc ∧ FlagsKept s u ∧ u.sp = s.sp ∧ BytesKept s u ∧ ControlKept s u

/-- An instruction that reaches u, emits one event and goes on has the cells of u and that event as effect (R177). -/
theorem ioEffect_emit {s u : State} {cells : IoCell → Word} (hu : UpToRegsAndCells s u)
    (hcells : ∀ c, u.ioCell c = cells c) (e : Event) : IoEffect s (u.emit e).advance cells e := by
  obtain ⟨htrace, hpc, hflags, hsp, hbytes, hcontrol⟩ := hu
  exact ⟨hcells, by simp [htrace], by simp [hpc], hflags, hsp, hbytes, hcontrol⟩

/-- An instruction that writes `IO` alone, emits one event and goes on keeps every register (R177). -/
theorem completes_emit {i : Instr} {s : State} {io : IoSpace} {cells : IoCell → Word} {e : Event}
    (h : exec i s = .next (State.emit { s with io := io } e).advance)
    (hcells : ∀ c, State.ioCell { s with io := io } c = cells c) :
    Completes i s fun t => RegsKept s t ∧ IoEffect s t cells e :=
  ⟨_, h, fun _ => rfl, ioEffect_emit ⟨rfl, rfl, ⟨rfl, rfl⟩, rfl, fun _ => rfl, rfl, rfl⟩ hcells e⟩

/-- `IoRead` into a register changes nothing else but the cell it reads (R176, R179). -/
theorem upToRegsAndCells_ioRead (s : State) (c : IoCell) (rd : RegId) (v : Word) :
    UpToRegsAndCells s ((s.ioReadState c).setReg rd v) := by
  simp [UpToRegsAndCells, FlagsKept, BytesKept, ControlKept]

/-- `LOADIO` completes with one value v in `Rd`, the cell and the event; v is the cell's own where the cell is no input
(R179). -/
theorem completes_loadio (s : State) (rd : RegId) (addr : Imm44) :
    Completes (.loadio rd addr) s fun t => ∃ v : Word, t.reg rd = v ∧ OtherRegsKept rd s t ∧
      (isInput s.params addr.toNat = false → v = s.ioCell (cell44 addr)) ∧
      IoEffect s t (fun c => if c.toNat = addr.toNat then v else s.ioCell c) (.input (cell44 addr) v) := by
  have hnum : (cell44 addr).toNat = addr.toNat := (eq_cell44_iff _ _).1 rfl
  refine ⟨_, rfl, s.ioReadValue (cell44 addr), ?_, fun i hi => ?_, fun hin => ?_, ?_⟩
  · simp
  · simp [State.reg_setReg_ne _ _ hi]
  · exact State.ioReadValue_of_not_input (hnum ▸ hin)
  · refine ioEffect_emit (upToRegsAndCells_ioRead s _ rd _) (fun c => ?_) _
    simp only [State.setReg_ioCell, State.ioCell_ioReadState, eq_cell44_iff]

/-- Settles O50: each instruction changes the cells by its own operation on `IO` (none for SHOWIO), emits its
event and goes on. -/
theorem inputOutputInstructions : Obligations.InputOutputInstructions := by
  refine ⟨spelledRI_of_row rfl, spelledRI_of_row rfl, spelledI_of_row rfl, spelledOP_of_row rfl, spelledOP_of_row rfl,
    fun s rd addr k => ?_⟩
  exact ⟨completes_emit rfl (s.ioCell_ioWrite_cell44 addr _), completes_loadio s rd addr,
    completes_emit rfl fun _ => rfl, completes_emit rfl s.ioCell_clearInputs, completes_emit rfl s.ioCell_clearIo⟩

end Sys2Proof.Machine
end

section
/-! The statements of 45_alu_sized.md: sums and differences at 1, 2, 4 and 8 bytes. -/

namespace Sys2Proof.Machine

/-- Settles O38: each is the sum or the difference law at its width; an immediate this narrow is the low bits of the field,
whatever `IMM_EXT`. -/
theorem sizedAddAndSubtract : Obligations.SizedAddAndSubtract := by
  refine ⟨spelledRR_of_row rfl, spelledRR_of_row rfl, spelledRI_of_row rfl, spelledRI_of_row rfl, spelledRR_of_row rfl,
    spelledRR_of_row rfl, spelledRI_of_row rfl, spelledRI_of_row rfl, spelledRR_of_row rfl, spelledRR_of_row rfl,
    spelledRI_of_row rfl, spelledRI_of_row rfl, fun s rd rs v => ?_⟩
  have h8 := s.imm_of_le (w := 8) v (by decide)
  have h16 := s.imm_of_le (w := 16) v (by decide)
  have h32 := s.imm_of_le (w := 32) v (by decide)
  exact ⟨aluCompletes_add rfl (by decide) rfl rfl, aluCompletes_sub rfl (by decide) rfl rfl,
    aluCompletes_add rfl (by decide) rfl h8, aluCompletes_sub rfl (by decide) rfl h8,
    aluCompletes_add rfl (by decide) rfl rfl, aluCompletes_sub rfl (by decide) rfl rfl,
    aluCompletes_add rfl (by decide) rfl h16, aluCompletes_sub rfl (by decide) rfl h16,
    aluCompletes_add rfl (by decide) rfl rfl, aluCompletes_sub rfl (by decide) rfl rfl,
    aluCompletes_add rfl (by decide) rfl h32, aluCompletes_sub rfl (by decide) rfl h32⟩

/-- By default no word decodes to an instruction that is no row of R93 (R97, R214). -/
theorem decode_none_ne_ok {i : Instr} (h : i.wellFormed = false) (strict : Bool) (w : Word) :
    decode none strict w ≠ .ok i := fun hdecode =>
  Bool.false_ne_true (h.symm.trans (wellFormed_of_decode hdecode))

/-- Settles O39: the four are no rows of R93; as instructions each is the sum or the difference law at 64 bits, where the
operands are whole registers and the widened immediate. -/
theorem eightByteAddAndSubtract : Obligations.EightByteAddAndSubtract := by
  intro s rd rs v
  have hd := s.lo_64 rd
  have hs := s.lo_64 rs
  have hv := s.imm_64 v
  exact ⟨fun strict w => ⟨decode_none_ne_ok rfl strict w, decode_none_ne_ok rfl strict w,
      decode_none_ne_ok rfl strict w, decode_none_ne_ok rfl strict w⟩,
    ⟨rfl, rfl, rfl, rfl⟩,
    aluCompletes_add rfl (by decide) hd hs, aluCompletes_sub rfl (by decide) hd hs,
    aluCompletes_add rfl (by decide) hd hv, aluCompletes_sub rfl (by decide) hd hv⟩

end Sys2Proof.Machine
end

section
/-! The fixed functions of 48_fpu.md: patterns read and packed (R260, R263), the exact result rounded once (R261), each
function by the shape of its operands, and how an instruction writes what it gives (R262, R264). -/

namespace Sys2Proof.Machine

variable {f : FpFormat}

/-! ## The two formats (R260) -/

/-- What the proofs use of a format: the fraction has bits, and the exponent field has a value
between 0 and its ones. -/
theorem IsFormat.bounds (h : IsFormat f) : 0 < f.fracBits ∧ 2 ≤ fpExpMax f := by
  rcases h with rfl | rfl <;> decide

/-! ## Reading a pattern (R260) -/

/-- Every pattern reads as the datum R260 gives it. -/
theorem datumOf_fpDatum (f : FpFormat) (v : Nat) : DatumOf f v (fpDatum f v) := by
  unfold fpDatum
  dsimp only
  split
  · next hmax =>
    split
    · next hfrac => exact ⟨hmax, hfrac, rfl⟩
    · next hfrac => exact ⟨hmax, hfrac⟩
  · next hmax =>
    split
    · next hzero => exact ⟨hmax, rfl, fun _ => rfl, fun h => absurd hzero h⟩
    · next hzero => exact ⟨hmax, rfl, fun h => absurd h hzero, fun _ => rfl⟩

/-- The datum of a pattern given by its fields, the exponent field not all ones: subnormal or zero, else normal. -/
theorem fpDatum_fields {neg : Bool} {e r : Nat} (he : e < fpExpMax f) (hr : r < 2 ^ f.fracBits) :
    fpDatum f (fpSign f neg + e * 2 ^ f.fracBits + r) =
      .fin neg (if e = 0 then r else (2 ^ f.fracBits + r) * 2 ^ (e - 1)) := by
  obtain ⟨hfrac, hexp, hsign⟩ := fp_fields (neg := neg) (he.trans fpExpMax_lt) hr
  simp only [fpDatum, hfrac, hexp, hsign, if_neg he.ne]
  split <;> rfl

/-! ## Packing a magnitude (R263) -/

/-- The significand of a magnitude of the format, scaled back by its exponent, is the magnitude: no bit is lost. -/
theorem representable_significand_mul {m : Nat} (hm : Representable f m) (h : 2 ^ f.fracBits ≤ m) :
    m / 2 ^ (Nat.log2 m - f.fracBits) * 2 ^ (Nat.log2 m - f.fracBits) = m := by
  obtain ⟨q, e, hq, rfl⟩ := hm
  have hpos : 0 < 2 ^ f.fracBits := by positivity
  have hlt : q * 2 ^ e < 2 ^ (f.fracBits + 1 + e) := by
    rw [pow_add]
    exact Nat.mul_lt_mul_of_pos_right hq (by positivity)
  have hlog : Nat.log2 (q * 2 ^ e) < f.fracBits + 1 + e := (Nat.log2_lt (by omega)).2 hlt
  exact Nat.div_mul_cancel (Dvd.dvd.mul_left (pow_dvd_pow 2 (by omega)) q)

/-- The largest finite magnitude bounds every significand with an exponent field below the ones. -/
theorem significand_mul_le_fpMaxFinite {q k : Nat} (hq : q < 2 ^ (f.fracBits + 1)) (hk : k + 2 ≤ fpExpMax f) :
    q * 2 ^ k ≤ fpMaxFinite f :=
  Nat.mul_le_mul (by omega) (Nat.pow_le_pow_right (by decide) (by omega))

/-- A normalised significand with a larger exponent is beyond the largest finite magnitude. -/
theorem fpMaxFinite_lt_significand_mul {q k : Nat} (hq : 2 ^ f.fracBits ≤ q) (hk : fpExpMax f ≤ k + 1)
    (hmax : 2 ≤ fpExpMax f) : fpMaxFinite f < q * 2 ^ k :=
  calc fpMaxFinite f < 2 ^ (f.fracBits + 1) * 2 ^ (fpExpMax f - 2) :=
        Nat.mul_lt_mul_of_pos_right (Nat.sub_lt (by positivity) (by decide)) (by positivity)
    _ = 2 ^ f.fracBits * 2 ^ (fpExpMax f - 1) := by rw [← pow_add, ← pow_add]; congr 1; omega
    _ ≤ q * 2 ^ k := Nat.mul_le_mul hq (Nat.pow_le_pow_right (by decide) (by omega))

/-- A magnitude of the format packs to a pattern that reads back as it, or to the infinity of its sign when it is larger
than the largest finite number. -/
theorem fpDatum_fpPack {m : Nat} (hmax : 2 ≤ fpExpMax f) (hm : Representable f m) (neg : Bool) :
    (m ≤ fpMaxFinite f ∧ fpDatum f (fpPack f neg m) = .fin neg m) ∨
    (fpMaxFinite f < m ∧ fpDatum f (fpPack f neg m) = .inf neg) := by
  rcases fpPack_cases f neg m with ⟨hlow, he⟩ | ⟨hle, hexp, he⟩ | ⟨hle, hexp, he⟩ <;> rw [he]
  · have hfin : m ≤ fpMaxFinite f := by
      simpa using significand_mul_le_fpMaxFinite (k := 0) (hlow.trans (Nat.pow_lt_pow_succ (by decide))) hmax
    exact .inl ⟨hfin, by simpa using fpDatum_fields (neg := neg) (e := 0) (by omega) hlow⟩
  · have hinf := fpMaxFinite_lt_significand_mul (fp_significand hle).1 hexp hmax
    rw [representable_significand_mul hm hle] at hinf
    exact .inr ⟨hinf, fpDatum_fpInf f neg⟩
  · obtain ⟨hlo, hhi⟩ := fp_significand hle
    have hscale := representable_significand_mul hm hle
    have hfin : m ≤ fpMaxFinite f := hscale ▸ significand_mul_le_fpMaxFinite hhi (by omega)
    refine .inl ⟨hfin, ?_⟩
    rw [fpDatum_fields hexp (by rw [pow_succ] at hhi; omega), if_neg (by omega), Nat.add_sub_cancel' hlo,
      Nat.add_sub_cancel, hscale]

/-- Packing a normal number gives its exponent field and its fraction. -/
theorem fpPack_normal {neg : Bool} {e r : Nat} (hr : r < 2 ^ f.fracBits) (h0 : e ≠ 0) (he : e < fpExpMax f) :
    fpPack f neg ((2 ^ f.fracBits + r) * 2 ^ (e - 1)) = fpSign f neg + e * 2 ^ f.fracBits + r := by
  have hpos : 0 < 2 ^ f.fracBits := by positivity
  have hpow : 0 < 2 ^ (e - 1) := by positivity
  have hge : 2 ^ f.fracBits ≤ (2 ^ f.fracBits + r) * 2 ^ (e - 1) :=
    (Nat.le_add_right _ _).trans (Nat.le_mul_of_pos_right _ hpow)
  have hlog : Nat.log2 ((2 ^ f.fracBits + r) * 2 ^ (e - 1)) = f.fracBits + (e - 1) := by
    rw [Nat.log2_eq_iff (by omega), Nat.add_right_comm, pow_add, pow_add]
    exact ⟨Nat.mul_le_mul_right _ (by omega), Nat.mul_lt_mul_of_pos_right (by rw [pow_succ]; omega) hpow⟩
  rcases fpPack_cases f neg ((2 ^ f.fracBits + r) * 2 ^ (e - 1)) with ⟨hlow, -⟩ | ⟨-, hexp, -⟩ | ⟨-, -, hpack⟩
  · omega
  · omega
  · rw [hpack, hlog, Nat.add_sub_cancel_left, Nat.mul_div_cancel _ hpow, Nat.add_sub_cancel_left,
      Nat.sub_add_cancel (Nat.pos_of_ne_zero h0)]

/-- A finite pattern is the packing of the magnitude it reads as, which is one of the format. -/
theorem fpPack_of_fpDatum {v m : Nat} {neg : Bool} (hmax : 2 ≤ fpExpMax f) (hv : v < 2 ^ (1 + f.expBits + f.fracBits))
    (h : fpDatum f v = .fin neg m) : Representable f m ∧ m ≤ fpMaxFinite f ∧ fpPack f neg m = v := by
  have hdatum := datumOf_fpDatum f v
  rw [h] at hdatum
  obtain ⟨hne, rfl, hsub, hnormal⟩ := hdatum
  have heta := fp_fields_eta hv
  have hr : v % 2 ^ f.fracBits < 2 ^ f.fracBits := Nat.mod_lt _ (by positivity)
  have he : v / 2 ^ f.fracBits % 2 ^ f.expBits < fpExpMax f := by
    have := Nat.mod_lt (v / 2 ^ f.fracBits) (show 0 < 2 ^ f.expBits by positivity)
    unfold fpExpMax at *
    omega
  generalize v / 2 ^ f.fracBits % 2 ^ f.expBits = e at *
  generalize v % 2 ^ f.fracBits = r at *
  by_cases h0 : e = 0
  · obtain rfl := hsub h0
    have hsig : m < 2 ^ (f.fracBits + 1) := hr.trans (Nat.pow_lt_pow_succ (by decide))
    refine ⟨⟨m, 0, hsig, by simp⟩, by simpa using significand_mul_le_fpMaxFinite (k := 0) hsig hmax, ?_⟩
    simpa [fpPack, hr, h0] using heta
  · obtain rfl := hnormal h0
    have hsig : 2 ^ f.fracBits + r < 2 ^ (f.fracBits + 1) := by rw [pow_succ]; omega
    exact ⟨⟨_, _, hsig, rfl⟩, significand_mul_le_fpMaxFinite hsig (by omega), (fpPack_normal hr h0 he).trans heta⟩

/-- The sign bit of a packed magnitude is the sign it is packed with, in all three ranges. -/
theorem testBit_fpPack (neg : Bool) (m : Nat) : (fpPack f neg m).testBit (f.expBits + f.fracBits) = neg := by
  have sign_of_fields {e r : Nat} (he : e < 2 ^ f.expBits) (hr : r < 2 ^ f.fracBits) :
      (fpSign f neg + e * 2 ^ f.fracBits + r).testBit (f.expBits + f.fracBits) = neg := (fp_fields he hr).2.2
  rcases fpPack_cases f neg m with ⟨hlow, he⟩ | ⟨-, -, he⟩ | ⟨hle, hexp, he⟩ <;> rw [he]
  · simpa using sign_of_fields (e := 0) (by positivity) hlow
  · simpa [fpInf] using sign_of_fields (r := 0) fpExpMax_lt (by positivity)
  · obtain ⟨hlo, hhi⟩ := fp_significand hle
    rw [pow_succ] at hhi
    exact sign_of_fields (hexp.trans fpExpMax_lt) (by omega)

/-! ## The functions on finite data (R261) -/

/-- An exact zero is packed with the sign given for it. -/
theorem fpOfInt_zero (f : FpFormat) (zeroNeg : Bool) : fpOfInt f zeroNeg 0 = .bits (fpPack f zeroNeg 0) := rfl

/-- A nonzero whole number of units is rounded once and keeps its sign. -/
theorem fpOfInt_nearestEven (hf : 0 < f.fracBits) (zeroNeg : Bool) {x : Int} (hx : x ≠ 0) :
    ∃ r, fpOfInt f zeroNeg x = .bits (fpPack f (decide (x < 0)) r) ∧ NearestEven f |(x : ℝ)| r := by
  refine ⟨fpRoundQuot f x.natAbs 1, if_neg hx, ?_⟩
  simpa [Nat.cast_natAbs] using fpRoundQuot_nearestEven hf x.natAbs Nat.one_pos

/-- A product of finite numbers is the exact one, rounded once. -/
theorem fpMul_fin_nearestEven (hf : 0 < f.fracBits) (a b : Bool) (m n : Nat) :
    ∃ r, fpMul f (.fin a m) (.fin b n) = .bits (fpPack f (a != b) r) ∧
      NearestEven f ((m : ℝ) * n / 2 ^ fpUnitExp f) r :=
  ⟨fpRoundQuot f (m * n) (2 ^ fpUnitExp f), rfl, by
    simpa using fpRoundQuot_nearestEven hf (m * n) (Nat.two_pow_pos (fpUnitExp f))⟩

/-- A quotient of finite numbers by a nonzero divisor, in terms of the rounding. -/
theorem fpDiv_fin_fin (f : FpFormat) (z : Nat) (a b : Bool) (m : Nat) {n : Nat} (hn : n ≠ 0) :
    fpDiv f z (.fin a m) (.fin b n) = .bits (fpPack f (a != b) (fpRoundQuot f (m * 2 ^ fpUnitExp f) n)) := if_neg hn

/-- A quotient of finite numbers by a nonzero divisor is the exact one, rounded once. -/
theorem fpDiv_fin_nearestEven (hf : 0 < f.fracBits) (z : Nat) (a b : Bool) (m : Nat) {n : Nat} (hn : n ≠ 0) :
    ∃ r, fpDiv f z (.fin a m) (.fin b n) = .bits (fpPack f (a != b) r) ∧
      NearestEven f ((m : ℝ) * 2 ^ fpUnitExp f / n) r :=
  ⟨_, fpDiv_fin_fin f z a b m hn, by
    simpa using fpRoundQuot_nearestEven hf (m * 2 ^ fpUnitExp f) (Nat.pos_of_ne_zero hn)⟩

/-- The root of a positive number is the exact one, rounded once. -/
theorem fpSqrt_fin_nearestEven (hf : 0 < f.fracBits) {m : Nat} (hm : m ≠ 0) :
    ∃ r, fpSqrt f (.fin false m) = .bits (fpPack f false r) ∧
      NearestEven f (Real.sqrt ((m : ℝ) * 2 ^ fpUnitExp f)) r :=
  ⟨fpRoundSqrt f (m * 2 ^ fpUnitExp f), if_neg hm, by
    simpa using fpRoundSqrt_nearestEven hf (m * 2 ^ fpUnitExp f)⟩

/-- A zero quotient rounds to zero. -/
theorem fpRoundQuot_zero (f : FpFormat) (den : Nat) : fpRoundQuot f 0 den = 0 := by
  have down (d : Nat) : roundHalfEven 0 0 d = 0 := if_pos (by omega)
  simp [fpRoundQuot, down]

/-! ## Zeros, infinities and NaNs as results (R262, R263) -/

/-- A function that gives a pattern of the format gives what the pattern reads as. -/
theorem outReads_bits {v : Nat} {d : FpDatum} (hv : v < 2 ^ (1 + f.expBits + f.fracBits)) (hd : fpDatum f v = d) :
    OutReads f (.bits v) d :=
  ⟨v, rfl, hv, hd ▸ datumOf_fpDatum f v⟩

theorem outReads_fpInf (f : FpFormat) (neg : Bool) : OutReads f (.bits (fpInf f neg)) (.inf neg) :=
  outReads_bits (fpInf_lt f neg) (fpDatum_fpInf f neg)

theorem outReads_fpPack_zero (hmax : 2 ≤ fpExpMax f) (neg : Bool) : OutReads f (.bits (fpPack f neg 0)) (.fin neg 0) := by
  obtain ⟨-, hd⟩ | ⟨hgt, -⟩ := fpDatum_fpPack (m := 0) hmax ⟨0, 0, by positivity, rfl⟩ neg
  · exact outReads_bits (fpPack_lt f neg 0) hd
  · omega

/-- A NaN operand makes every result a NaN, whichever side it is on. -/
theorem fp_nan_operand (f : FpFormat) (d : FpDatum) (z : Nat) :
    fpAdd f .nan d = .nan ∧ fpAdd f d .nan = .nan ∧ fpSub f .nan d = .nan ∧ fpSub f d .nan = .nan ∧
      fpMul f .nan d = .nan ∧ fpMul f d .nan = .nan ∧ fpDiv f z .nan d = .nan ∧ fpDiv f z d .nan = .nan ∧
      fpSqrt f .nan = .nan := by
  cases d <;> exact ⟨rfl, rfl, rfl, rfl, rfl, rfl, rfl, rfl, rfl⟩

/-- A sum of two infinities is the one both are, or a NaN. -/
theorem fpAdd_inf_inf (f : FpFormat) (a b : Bool) :
    fpAdd f (.inf a) (.inf b) = if a = b then .bits (fpInf f a) else .nan := rfl

/-- A difference of two infinities is a NaN when they are one, else the left one. -/
theorem fpSub_inf_inf (f : FpFormat) (a b : Bool) :
    fpSub f (.inf a) (.inf b) = if a = b then .nan else .bits (fpInf f a) := rfl

theorem fpMul_inf_fin (f : FpFormat) (a b : Bool) {m : Nat} (hm : m ≠ 0) :
    fpMul f (.inf a) (.fin b m) = .bits (fpInf f (a != b)) := if_neg hm

theorem fpMul_fin_inf (f : FpFormat) (a b : Bool) {m : Nat} (hm : m ≠ 0) :
    fpMul f (.fin b m) (.inf a) = .bits (fpInf f (b != a)) := if_neg hm

theorem fpDiv_inf_fin (f : FpFormat) (z : Nat) (a b : Bool) {m : Nat} (hm : m ≠ 0) :
    fpDiv f z (.inf a) (.fin b m) = .bits (fpInf f (a != b)) := if_neg hm

/-- A zero divisor of a nonzero finite number gives an infinity; nothing faults (R268). -/
theorem fpDiv_fin_zero (f : FpFormat) (z : Nat) (a b : Bool) {m : Nat} (hm : m ≠ 0) :
    fpDiv f z (.fin a m) (.fin b 0) = .bits (fpInf f (a != b)) := if_neg hm

theorem fpSqrt_negative (f : FpFormat) {m : Nat} (hm : m ≠ 0) : fpSqrt f (.fin true m) = .nan := if_neg hm

/-- An exact zero sum is +0 unless both operands are zeros with the sign -. -/
theorem fpAdd_fin_eq_zero {a b : Bool} {m n : Nat} (h : fpInt a m + fpInt b n = 0) (hne : ¬(m = 0 ∧ n = 0 ∧ a = b)) :
    fpAdd f (.fin a m) (.fin b n) = .bits (fpPack f false 0) := by
  have hsign : (a && b) = false := by
    refine Bool.eq_false_iff.2 fun hab => hne ?_
    obtain ⟨rfl, rfl⟩ := Bool.and_eq_true_iff.1 hab
    simp only [fpInt, if_true] at h
    exact ⟨by omega, by omega, rfl⟩
  calc fpAdd f (.fin a m) (.fin b n) = fpOfInt f (a && b) (fpInt a m + fpInt b n) := rfl
    _ = _ := by rw [h, hsign, fpOfInt_zero]

/-- An exact zero difference is +0. -/
theorem fpSub_fin_eq_zero {a b : Bool} {m n : Nat} (h : fpInt a m - fpInt b n = 0) :
    fpSub f (.fin a m) (.fin b n) = .bits (fpPack f false 0) :=
  calc fpSub f (.fin a m) (.fin b n) = fpOfInt f false (fpInt a m - fpInt b n) := rfl
    _ = _ := by rw [h, fpOfInt_zero]

/-- Two zeros of one sign sum to it. -/
theorem fpAdd_zero_zero (f : FpFormat) (a : Bool) : fpAdd f (.fin a 0) (.fin a 0) = .bits (fpPack f a 0) := by
  cases a <;> rfl

/-- A zero dividend's quotient by a nonzero number is the zero of the XOR of the signs (log 29). -/
theorem fpDiv_zero_fin (f : FpFormat) (z : Nat) (a b : Bool) {n : Nat} (hn : n ≠ 0) :
    fpDiv f z (.fin a 0) (.fin b n) = .bits (fpPack f (a != b) 0) := by
  rw [fpDiv_fin_fin f z a b 0 hn, Nat.zero_mul, fpRoundQuot_zero]

/-! ## The write of a result (R262, R264) -/

/-- An instruction that is `State.fpWrite` of an outcome of its format's width completes with it. -/
theorem fpCompletes_fpWrite {w : Nat} {i : Instr} {s : State} {d : RegId} {out : FpOut}
    (h : exec i s = .next (s.fpWrite f w d out)) (hfmt : IsFormat f) (hw : w = 1 + f.expBits + f.fracBits)
    (hm : w ∈ [8, 16, 32, 64]) (hout : ∀ v, out = .bits v → v < 2 ^ (1 + f.expBits + f.fracBits)) :
    FpCompletes f w i s d out := by
  obtain ⟨hpos, hle⟩ := pos_and_le_of_mem_widths hm
  obtain ⟨hfrac, -⟩ := hfmt.bounds
  obtain ⟨v, rfl, he⟩ | ⟨rfl, he⟩ := s.fpWrite_cases f w d out
  · exact ⟨_, h.trans (congrArg _ he), _, s.writeSized_effect d _ hpos hle,
      (BitVec.toNat_ofNat v w).trans (Nat.mod_eq_of_lt (hw ▸ hout v rfl))⟩
  · exact ⟨_, h.trans (congrArg _ he), _, s.drawn.writeSized_effect d _ hpos hle, nanOf_isNan _ w _ hfrac hw⟩

end Sys2Proof.Machine
end

section
/-! The statements of 48_fpu.md. -/

namespace Sys2Proof.Machine

/-- Settles O51: each instruction is `State.fpWrite` of its function, which gives a pattern of the format or a NaN. -/
theorem floatInstructionsApplyTheFixedFunctions : Obligations.FloatInstructionsApplyTheFixedFunctions := by
  refine ⟨spelledRR_of_row rfl, spelledRR_of_row rfl, spelledRR_of_row rfl, spelledRR_of_row rfl, spelledRR_of_row rfl,
    spelledRR_of_row rfl, spelledRR_of_row rfl, spelledRR_of_row rfl, spelledR_of_row rfl, spelledR_of_row rfl,
    fun s rd rs => ?_⟩
  have single {i : Instr} {out : FpOut} (h : exec i s = .next (s.fpWrite binary32 32 rd out)) :=
    fpCompletes_fpWrite h (.inl rfl) rfl (by decide)
  have double {i : Instr} {out : FpOut} (h : exec i s = .next (s.fpWrite binary64 64 rd out)) :=
    fpCompletes_fpWrite h (.inr rfl) rfl (by decide)
  exact ⟨single rfl fun _ => fpAdd_lt, single rfl fun _ => fpSub_lt, single rfl fun _ => fpMul_lt,
    single rfl fun _ => fpDiv_lt (BitVec.isLt _), single rfl fun _ => fpSqrt_lt,
    double rfl fun _ => fpAdd_lt, double rfl fun _ => fpSub_lt, double rfl fun _ => fpMul_lt,
    double rfl fun _ => fpDiv_lt (BitVec.isLt _), double rfl fun _ => fpSqrt_lt⟩

/-- Settles O52: each function is one rounding of an exact quotient or root of natural numbers. -/
theorem fixedFunctionsRoundOnce : Obligations.FixedFunctionsRoundOnce := by
  intro f hfmt
  obtain ⟨hf, -⟩ := hfmt.bounds
  exact ⟨fun a _ b _ hx => fpOfInt_nearestEven hf (a && b) hx, fun _ _ _ _ hx => fpOfInt_nearestEven hf false hx,
    fun a m b n => fpMul_fin_nearestEven hf a b m n, fun z a m b _ hn => fpDiv_fin_nearestEven hf z a b m hn,
    fun _ hm => fpSqrt_fin_nearestEven hf hm⟩

/-- Settles O53: the fields of the three ranges of `fpPack` read back, and a finite pattern's fields pack to it. -/
theorem packingIsExactOrInfinite : Obligations.PackingIsExactOrInfinite := by
  intro f hfmt
  obtain ⟨-, hmax⟩ := hfmt.bounds
  refine ⟨fun v _ => datumOf_fpDatum f v, fun neg m hm => ⟨fpPack_lt f neg m, ?_⟩,
    fun v neg m hv h => fpPack_of_fpDatum hmax hv h⟩
  obtain ⟨hle, hd⟩ | ⟨hgt, hd⟩ := fpDatum_fpPack hmax hm neg
  · exact ⟨fun _ => hd, fun hgt => absurd hle (Nat.not_le.2 hgt)⟩
  · exact ⟨fun hle => absurd hle (Nat.not_le.2 hgt), fun _ => hd⟩

/-- Settles O54: clause by clause, the branch of the function for these operands and what its pattern reads as. -/
theorem floatSpecialCases : Obligations.FloatSpecialCases := by
  intro f hfmt
  obtain ⟨-, hmax⟩ := hfmt.bounds
  have inf := outReads_fpInf f
  have zero := outReads_fpPack_zero hmax
  refine ⟨fp_nan_operand f, ?infMinusInf, ?sameInf, fun _ _ => ⟨rfl, rfl⟩, fun _ _ _ => ⟨rfl, rfl⟩, ?byZero,
    fun _ a _ b => zero (a != b), fun _ hm => fpSqrt_negative f hm, rfl, zero true, zero false, inf false, ?zeroSum,
    ?zeroDifference, ?zeros, ?productSign, ?quotientSign, ?zeroDividend, ?infs,
    fun a _ _ => ⟨inf a, inf a, inf a, inf !a⟩, fun a b => inf (a != b), ?infTimes, fun _ _ _ => rfl⟩
  case infMinusInf => exact fun a b h => (fpAdd_inf_inf f a b).trans (if_neg h)
  case sameInf => exact fun a => (fpSub_inf_inf f a a).trans (if_pos rfl)
  case byZero =>
    intro z a m b hm
    rw [fpDiv_fin_zero f z a b hm]
    exact inf (a != b)
  case zeroSum =>
    intro a m b n h hne
    rw [fpAdd_fin_eq_zero h hne]
    exact zero false
  case zeroDifference =>
    intro a m b n h
    rw [fpSub_fin_eq_zero h]
    exact zero false
  case zeros =>
    intro a
    rw [fpAdd_zero_zero]
    exact zero a
  case productSign => exact fun a m b n => ⟨_, rfl, testBit_fpPack _ _⟩
  case quotientSign => exact fun z a m b n hn => ⟨_, fpDiv_fin_fin f z a b m hn, testBit_fpPack _ _⟩
  case zeroDividend =>
    intro z a b n hn
    rw [fpDiv_zero_fin f z a b hn]
    exact zero (a != b)
  case infs =>
    intro a
    rw [fpAdd_inf_inf, fpSub_inf_inf, if_pos rfl, if_neg (by simp)]
    exact ⟨inf a, inf a⟩
  case infTimes =>
    intro z a b m hm
    rw [fpMul_inf_fin f a b hm, fpMul_fin_inf f a b hm, fpDiv_inf_fin f z a b hm]
    exact ⟨inf (a != b), inf (b != a), inf (a != b)⟩

/-- Settles O55: each is a data transfer of what the configuration function gives, of which nothing is used. -/
theorem sineAndCosineAreTheConfigurationFunctions : Obligations.SineAndCosineAreTheConfigurationFunctions := by
  refine ⟨spelledR_of_row rfl, spelledR_of_row rfl, spelledR_of_row rfl, spelledR_of_row rfl, fun s rd => ?_⟩
  have h32 := s.lo_of_le (w := 32) rd (by decide)
  have h64 := s.lo_64 rd
  exact ⟨moveCompletes_writeSized rfl (by decide) (congrArg _ h32),
    moveCompletes_writeSized rfl (by decide) (congrArg _ h32),
    moveCompletes_writeSized rfl (by decide) (congrArg _ h64),
    moveCompletes_writeSized rfl (by decide) (congrArg _ h64)⟩

end Sys2Proof.Machine
end

section
/-! The statements of 60_exceptions.md: a fault is raised on the old state, of which alone its information speaks. -/

namespace Sys2Proof.Machine

variable {i : Instr} {s t : State} {f : Fault} {a : Word} {n : Nat}

/-! ## Which fault a step ends in, and from which state (R302 to R304) -/

/-- An instruction that ends faulted raised, on the old state, a fault it has a cause for. -/
theorem exec_faulted (h : exec i s = .next t) (hr : s.run = .running) (hf : t.run = .faulted f) :
    t = s.raise f ∧ FaultCause s i f := by
  obtain ⟨g, hcause, rfl⟩ | hends := exec_ends h
  · obtain rfl : g = f := RunState.faulted.inj hf
    exact ⟨rfl, (hcause g).2 rfl⟩
  · obtain hkept | hhalted := hends.run
    · exact nomatch hf.symm.trans (hkept.trans hr)
    · exact nomatch hf.symm.trans hhalted

/-- A running step that ends faulted raised, on the old state, the fault of the fetch or one the fetched instruction has a
cause for. -/
theorem step_faults (h : step s = .next t) (hr : s.run = .running) (hf : t.run = .faulted f) :
    t = s.raise f ∧ (fetchInstr s = .error f ∨ ∃ i, FaultCause s i f) := by
  obtain ⟨i, -, hstep⟩ | ⟨g, hfetch, hstep⟩ := step_running hr
  · obtain ⟨ht, hcause⟩ := exec_faulted (hstep.symm.trans h) hr hf
    exact ⟨ht, .inr ⟨i, hcause⟩⟩
  · obtain rfl : s.raise g = t := Host.Outcome.next.inj (hstep.symm.trans h)
    obtain rfl : g = f := RunState.faulted.inj hf
    exact ⟨rfl, .inl hfetch⟩

/-! ## What the information of a fault says (R301) -/

/-- A read is of 1, 2, 4 or 8 bytes (R51, R58), by the arms of the table. -/
theorem readAccess_size (h : readAccess s i = some (a, n)) : n ∈ [1, 2, 4, 8] := by
  unfold readAccess at h
  split at h <;> simp_all

/-- A write is of 1, 2, 4 or 8 bytes (R51, R58), by the arms of the table. -/
theorem writeAccess_size (h : writeAccess s i = some (a, n)) : n ∈ [1, 2, 4, 8] := by
  unfold writeAccess at h
  split at h <;> simp_all

/-- A fault of the execution is recorded with its access, which is not inside, or with this `pc`. -/
theorem FaultCause.faultRecorded (h : FaultCause s i f) : FaultRecorded (s.raise f) := by
  obtain ⟨a, n, ha, hout, rfl⟩ | ⟨a, n, ha, hout, rfl⟩ | ⟨-, rfl⟩ := h
  · exact ⟨readAccess_size ha, Nat.lt_of_not_le hout⟩
  · exact ⟨writeAccess_size ha, Nat.lt_of_not_le hout⟩
  · exact rfl

/-- A fault of the fetch is recorded with this `pc` and its defect, or with the fetched word, which does not decode. -/
theorem faultRecorded_of_fetch_error (h : fetchInstr s = .error f) : FaultRecorded (s.raise f) := by
  obtain ⟨ha, hf⟩ | ⟨ha, hout, hf⟩ | ⟨-, -, e, hd, hf⟩ | ⟨-, -, i, -, hf⟩ := fetchInstr_cases s
  · obtain rfl := Except.error.inj (hf.symm.trans h)
    exact ⟨rfl, ha⟩
  · obtain rfl := Except.error.inj (hf.symm.trans h)
    exact ⟨rfl, ha, hout⟩
  · obtain rfl := Except.error.inj (hf.symm.trans h)
    exact ⟨rfl, rfl, fun i hi => nomatch hd.symm.trans hi⟩
  · exact nomatch hf.symm.trans h

/-- A state that is not faulted records no fault. -/
theorem faultRecorded_of_not_faulted (h : ∀ f, s.run ≠ .faulted f) : FaultRecorded s := by
  unfold FaultRecorded
  cases hr : s.run with
  | running => trivial
  | halted => trivial
  | faulted f => exact absurd hr (h f)

/-- Settles O21: a running step records the fault it ends in, if any, of the state it raised it on; a halted machine keeps
its state, and a faulted one has no next state. -/
theorem stepKeepsTheFaultRecord : Obligations.StepKeepsTheFaultRecord := by
  intro s t hrec h
  cases hr : s.run with
  | running =>
    by_cases hf : ∃ f, t.run = .faulted f
    · obtain ⟨f, hf⟩ := hf
      obtain ⟨rfl, hfetch | ⟨i, hcause⟩⟩ := step_faults h hr hf
      · exact faultRecorded_of_fetch_error hfetch
      · exact hcause.faultRecorded
    · exact faultRecorded_of_not_faulted (not_exists.1 hf)
  | halted =>
    obtain rfl : s = t := Host.Outcome.next.inj ((step_halted hr).symm.trans h)
    exact hrec
  | faulted f => exact nomatch h.symm.trans (step_faulted hr)

/-- Settles O28: the fault was raised on the old state. -/
theorem faultsArePrecise : Obligations.FaultsArePrecise := by
  intro s t f hr h hf
  obtain ⟨ht, -⟩ := step_faults h hr hf
  exact ht

end Sys2Proof.Machine
end

section
/-! The statements of 49_stack.md: pushes, pops and RET, one shared operation each. -/

namespace Sys2Proof.Machine

variable {w : Nat} {i : Instr} {s : State} {d : RegId}

/-! ## The shared operations (R286) -/

/-- A push is `MemWrite` of the value at `SP`, then `SP` grows. -/
theorem pushes_push {v c : BitVec w} (h : exec i s = .next (s.push c)) (hc : c = v) : Pushes i s v := by
  subst hc
  obtain ⟨hin, -⟩ | ⟨hout, he⟩ := s.push_cases c
  · exact ⟨fun _ => ⟨_, h, s.push_effect c hin⟩, absurd hin⟩
  · exact ⟨fun hin => absurd hin (Nat.not_le.2 hout), fun _ => h.trans (congrArg _ he)⟩

/-- A pop is `MemRead` below `SP`, then `SP` shrinks and the value goes to its register. -/
theorem pops_popInto (h : exec i s = .next (s.popInto w d)) (hw : w ∈ [8, 16, 32, 64]) : Pops i s w d := by
  obtain ⟨hpos, hle⟩ := pos_and_le_of_mem_widths hw
  obtain ⟨hin, -⟩ | ⟨hout, he⟩ := s.popInto_cases w d
  · exact ⟨fun _ => ⟨_, h, s.valueAt w (s.popAddr w), s.bytesAt_valueAt _ (eight_dvd_of_mem_widths hw),
      s.popInto_effect w d hpos hle hin⟩, absurd hin⟩
  · exact ⟨fun hin => absurd hin (Nat.not_le.2 hout), fun _ => h.trans (congrArg _ he)⟩

/-- Where `RET` reads: 8 below `SP`, wrapped. -/
theorem State.popAddr_64_eq_truncTo (s : State) : s.popAddr 64 = truncTo 64 (uval s.sp - 8) :=
  (subLaw_eq s.sp 8#64).symm

/-! ## The instructions (R285, R287 to R294) -/

/-- Settles O56: each push is `State.push` of the low bytes of `Rd` at its width. -/
theorem pushesStoreAtSp : Obligations.PushesStoreAtSp :=
  ⟨spelledR_of_row rfl, spelledR_of_row rfl, spelledR_of_row rfl, spelledR_of_row rfl, fun s rd =>
    ⟨pushes_push rfl (s.lo_of_le rd (by decide)), pushes_push rfl (s.lo_of_le rd (by decide)),
      pushes_push rfl (s.lo_of_le rd (by decide)), pushes_push rfl (s.lo_64 rd)⟩⟩

/-- Settles O57: each pop is `State.popInto` at its width. -/
theorem popsReadBelowSp : Obligations.PopsReadBelowSp :=
  ⟨spelledR_of_row rfl, spelledR_of_row rfl, spelledR_of_row rfl, spelledR_of_row rfl, fun _ _ =>
    ⟨pops_popInto rfl (by decide), pops_popInto rfl (by decide), pops_popInto rfl (by decide),
      pops_popInto rfl (by decide)⟩⟩

/-- Settles O58: `RET` does not check the value it pops, the fetch at it does. -/
theorem retPopsThePc : Obligations.RetPopsThePc := by
  refine ⟨spelledOP_of_row rfl, rfl, fun s => ?_⟩
  rw [TakesFault, ← s.popAddr_64_eq_truncTo]
  obtain ⟨hin, he⟩ | ⟨hout, he⟩ := s.popPc_cases
  · refine ⟨fun _ => ⟨_, s.valueAt 64 (s.popAddr 64), rfl, s.bytesAt_valueAt _ (by decide), congrArg _ he,
      fun hr hmis => ?_, fun hr ha hbad => ?_⟩, absurd hin⟩
    · exact step_of_fetch_error hr (fetchInstr_misaligned hmis)
    · exact step_of_fetch_error hr (fetchInstr_outOfRange ha (Nat.not_le.2 hbad))
  · exact ⟨fun hin => absurd hin (Nat.not_le.2 hout), fun _ => congrArg _ he⟩

end Sys2Proof.Machine
end
